-- ==== Sys2Proof/Word.lean ====
section
/-! DEFINITION. The plain values of 00_scope R8: bytes, descriptor words and levels. -/

namespace Sys2Proof

/-- A byte, `0 ≤ v ≤ 255` (R8); a nibble is a byte whose bits 7–4 are 0. -/
abbrev Byte := BitVec 8

/-- A 32-bit request descriptor word `q` (30_encoding R58, R59). -/
abbrev Desc := BitVec 32

/-- A line level (R8). -/
inductive Level where
  | low
  | high
deriving DecidableEq, Repr, Inhabited

/-- `levelOf` of a bit: `levelOf(0) = Low`, `levelOf(1) = High` (R8). -/
def Level.ofBit (b : Bool) : Level := if b then .high else .low

/-- `bitOf` of a level: `bitOf(Low) = 0`, `bitOf(High) = 1` (R8). -/
def Level.bit : Level → Nat
  | .low => 0
  | .high => 1

end Sys2Proof
end

