-- ==== Sys2Proof/Config.lean ====
section
/-! DEFINITION. The configuration record `Cfg` of 00_scope R6, fixed when the transport is constructed
(10_state R13), and the free values that the spec leaves open in every run. -/

namespace Sys2Proof

/-- `W`: the line width chosen at construction (R6). -/
inductive LineWidth where
  | four
  | eight
deriving DecidableEq, Repr

/-- The number of data lines a width calls for: 4 or 8 (R6, R7). -/
def LineWidth.lines : LineWidth → Nat
  | .four => 4
  | .eight => 8

/-- `TAP_SCOPE` (R6; 40_bus_transport R80; D18). -/
inductive TapScope where
  | reference
  | all
deriving DecidableEq, Repr

/-- `INPUT_DRIVE_EFFECT`, left OPEN by the spec and so an argument of the model (R6; 20_memory R42; D17). -/
inductive InputDriveEffect where
  | undriven
  | drives
deriving DecidableEq, Repr

/-- The parameter table of R6. A line handle is an external object; here it is a number that names it,
and only its identity matters (R7). Durations are nanoseconds (R10). -/
structure Cfg where
  /-- `W`. -/
  width : LineWidth
  /-- `D[0..N-1]`, in order. -/
  data : List Nat
  /-- The enable-line handle. -/
  e : Nat
  /-- The register-select-line handle. -/
  rs : Nat
  /-- The read/write-direction-line handle. -/
  rw : Nat
  /-- `T_EL`, enable low hold before the rise. -/
  tEl : Nat
  /-- `T_EH`, enable high hold. -/
  tEh : Nat
  /-- `T_SETTLE`, trailing settle. -/
  tSettle : Nat
  /-- `RW_WRITE_LEVEL`. -/
  rwWriteLevel : Level
  /-- `RW_READ_LEVEL`. -/
  rwReadLevel : Level
  /-- `WN_DRIVES_RW`. -/
  wnDrivesRw : Bool
  /-- `TAP_SCOPE`. -/
  tapScope : TapScope
  /-- `INPUT_DRIVE_EFFECT`. -/
  inputDriveEffect : InputDriveEffect
  /-- `T_RD_EH`, hold after the enable rise of a read cycle. -/
  tRdEh : Nat
  /-- `T_RD_EL`, hold after the enable fall of a read cycle. -/
  tRdEl : Nat
  /-- `LEN_BITS`, the width of the request length field. -/
  lenBits : Nat
deriving DecidableEq, Repr

/-- `N`, the data-line count (R6). -/
def Cfg.n (c : Cfg) : Nat := c.data.length

/-- A configuration of width `w` with every default of R6. DESIGN CHOICE (logs 1 and 2): the handles are
numbered as `lineNo` numbers the lines (R34), and the OPEN `INPUT_DRIVE_EFFECT` is `Undriven`. -/
def Cfg.default (w : LineWidth) : Cfg where
  width := w
  data := List.range w.lines
  e := w.lines
  rs := w.lines + 1
  rw := w.lines + 2
  tEl := 1000
  tEh := 1000
  tSettle := 100000
  rwWriteLevel := .low
  rwReadLevel := .high
  wnDrivesRw := false
  tapScope := .reference
  inputDriveEffect := .undriven
  tRdEh := 0
  tRdEl := 0
  lenBits := 24

/-- The width that `LEN` has in a descriptor: `LEN_BITS` (30_encoding R59). DESIGN CHOICE (log 3): the
descriptor is laid out by the spec for 24; a wider `LEN` than the 29 bits below `C` has no place in it. -/
def Cfg.lenWidth (c : Cfg) : Nat := min c.lenBits 29

/-- FREE VALUE: the level that an unconstrained `Sample` returns (20_memory R45, D21, D31), applied to the
draw counter of the state (log 5). It has no body that a proof can see. -/
opaque Config.freeLevel : Nat → Level

/-- FREE VALUE: the elapsed time `δ` of a capability call, and what a `Sleep` takes beyond its request
(20_memory R40, R41, D12), applied to the draw counter of the state (log 6). -/
opaque Config.freeDelay : Nat → Nat

end Sys2Proof
end

