-- ==== Sys2Proof/Syntax.lean ====
section
/-! DEFINITION. The requests of the upstream port, one constructor per row of `opcode_table.json`
(30_encoding R58), and the pseudo-requests of R69. -/

namespace Sys2Proof

/-- A request with its operands (30_encoding R58, R66). -/
inductive Instr where
  /-- SETMODE, `setCommandMode(isCommand)` (40_bus_transport R72). -/
  | setmode (isCommand : Bool)
  /-- WRITE, `write(p)` (R73). -/
  | write (payload : List Byte)
  /-- WRNIB, `writeNibble(p)`, legal only when `W = Four` (R74). -/
  | wrnib (payload : List Byte)
  /-- READ of `len` bytes (R75). -/
  | read (len : Nat)
deriving DecidableEq, Repr

/-- The pseudo-requests (30_encoding R69). -/
inductive Pseudo where
  | cmd (bytes : List Byte)
  | data (bytes : List Byte)
deriving DecidableEq, Repr

end Sys2Proof
end

