-- ==== Sys2Proof/WellFormed.lean ====
section
/-! DEFINITION. What a constructible configuration is (00_scope R7) and what an encodable request is
(30_encoding R63, R65). -/

namespace Sys2Proof

/-- The constraints of R7: the width invariant, the two datasheet floors, two different `RW` levels and
pairwise distinct handles. A configuration that breaks one has no transport (D27). -/
def Cfg.wf (c : Cfg) : Bool :=
  c.data.length == c.width.lines &&
  decide (450 < c.tEh) &&
  decide (37000 < c.tSettle) &&
  decide (c.rwReadLevel ≠ c.rwWriteLevel) &&
  decide (c.data ++ [c.e, c.rs, c.rw]).Nodup

/-- A request that has a descriptor under configuration `c`: its element count fits `LEN` (R63), and WRNIB
only when `W = Four` (R65). -/
def Instr.wf (c : Cfg) : Instr → Bool
  | .setmode _ => true
  | .write p => decide (p.length < 2 ^ c.lenWidth)
  | .wrnib p => decide (p.length < 2 ^ c.lenWidth) && decide (c.width = .four)
  | .read n => decide (n < 2 ^ c.lenWidth)

end Sys2Proof
end

