-- ==== Sys2Proof/Decode.lean ====
section
/-! DEFINITION. The request encoding of 30_encoding R58 to R67: the descriptor's fields, the total decoder,
the encoder, and the rows of `opcode_table.json`. -/

namespace Sys2Proof

/-- Why a descriptor is refused (60_exceptions R101). -/
inductive RefuseReason where
  /-- Descriptor bits 28:24 are not 0. -/
  | reservedBits
  /-- SETMODE with `LEN ≠ 0`. -/
  | setModeLength
  /-- `C = 1` on WRITE, WRNIB or READ. -/
  | reservedC
  /-- WRNIB with `W = Eight`. -/
  | wrnibEightMode
deriving DecidableEq, Repr

/-- `OP`, bits 31:30 (R59). -/
def opField (q : Desc) : BitVec 2 := q.extractLsb' 30 2

/-- `C`, bit 29 (R59, R61). -/
def cField (q : Desc) : Bool := q.getLsbD 29

/-- `RSV`, the bits between `LEN` and `C`: 28:24 (R59, R62). -/
def rsvField (c : Cfg) (q : Desc) : Nat := (q.extractLsb' c.lenWidth (29 - c.lenWidth)).toNat

/-- `LEN`, the low `LEN_BITS` bits: 23:0, an unsigned count (R59, R63). -/
def lenField (c : Cfg) (q : Desc) : Nat := (q.extractLsb' 0 c.lenWidth).toNat

/-- The number of payload bytes that follow a descriptor whose `LEN` is `width` bits wide, told from `OP` and
`LEN` alone, whether or not the request is refused (R67, 40_bus_transport R71). -/
def payloadLen (width : Nat) (q : Desc) : Nat :=
  if opField q = 0b01#2 ∨ opField q = 0b10#2 then (q.extractLsb' 0 width).toNat else 0

/-- A request as delivered: one descriptor followed by exactly its payload bytes (R58), as a `LEN` of
`lenWidth` bits counts them. -/
structure Request where
  lenWidth : Nat
  desc : Desc
  payload : List Byte
  exact : payload.length = payloadLen lenWidth desc
deriving DecidableEq, Repr

/-- The request is framed by the width of `LEN` that the configuration has (log 4). -/
def Request.framed (c : Cfg) (r : Request) : Bool := r.lenWidth == c.lenWidth

/-- R64, on a descriptor word and the payload that came with it; the checks run in the order written and
the first that fails names the refusal (60_exceptions R102). -/
def decodeWords (c : Cfg) (q : Desc) (payload : List Byte) : Except RefuseReason Instr :=
  if rsvField c q ≠ 0 then .error .reservedBits
  else if opField q = 0b00#2 then
    if lenField c q ≠ 0 then .error .setModeLength else .ok (.setmode (cField q))
  else if cField q = true then .error .reservedC
  else if opField q = 0b01#2 then .ok (.write payload)
  else if opField q = 0b10#2 then
    if c.width = .eight then .error .wrnibEightMode else .ok (.wrnib payload)
  else .ok (.read (lenField c q))

/-- Decoding of a delivered request (R64, R66): total, a request or a refusal by name. -/
def decodeRequest (c : Cfg) (r : Request) : Except RefuseReason Instr :=
  decodeWords c r.desc r.payload

/-! ### The encoder -/

/-- A descriptor from its fields, most significant first; the bits of `RSV` are the zeros above the count
(R59). -/
def mkDesc (c : Cfg) (op : BitVec 2) (cBit : Bool) (len : Nat) : Desc :=
  op ++ BitVec.ofBool cBit ++ BitVec.ofNat 29 (len % 2 ^ c.lenWidth)

/-- The descriptor of a request (R60 to R63). -/
def encodeDesc (c : Cfg) : Instr → Desc
  | .setmode isCommand => mkDesc c 0b00#2 isCommand 0
  | .write p => mkDesc c 0b01#2 false p.length
  | .wrnib p => mkDesc c 0b10#2 false p.length
  | .read n => mkDesc c 0b11#2 false n

/-- The payload bytes of a request, in index order (R58). -/
def encodePayload : Instr → List Byte
  | .write p => p
  | .wrnib p => p
  | .setmode _ => []
  | .read _ => []

/-- The words of a request: its descriptor and its payload (R58). -/
def encode (c : Cfg) (i : Instr) : Desc × List Byte := (encodeDesc c i, encodePayload i)

/-! ### The opcode table -/

/-- A row of `opcode_table.json`. -/
structure OpcodeRow where
  mnemonic : String
  pattern : Desc
  mask : Desc
deriving DecidableEq, Repr

/-- The four rows of `opcode_table.json`. -/
def opcodeRows : List OpcodeRow :=
  [⟨"setmode", 0x00000000#32, 0xDFFFFFFF#32⟩,
   ⟨"write", 0x40000000#32, 0xFF000000#32⟩,
   ⟨"wrnib", 0x80000000#32, 0xFF000000#32⟩,
   ⟨"read", 0xC0000000#32, 0xFF000000#32⟩]

/-- A word belongs to a row when its masked bits are the row's. -/
def OpcodeRow.holds (r : OpcodeRow) (q : Desc) : Bool := q &&& r.mask == r.pattern

/-- The table's name of a request. -/
def mnemonic : Instr → String
  | .setmode _ => "setmode"
  | .write _ => "write"
  | .wrnib _ => "wrnib"
  | .read _ => "read"

/-! ### An instruction from table-numbered bits -/

/-- `count` bytes of the number `w`, from byte `k` on, least significant first. -/
def bytesFrom (w : Nat) : (k count : Nat) → List Byte
  | _, 0 => []
  | k, count + 1 => BitVec.ofNat 8 (w >>> (8 * k)) :: bytesFrom w (k + 1) count

theorem bytesFrom_length (w k count : Nat) : (bytesFrom w k count).length = count := by
  induction count generalizing k with
  | zero => rfl
  | succ m ih => simp [bytesFrom, ih]

/-- The delivery that bits `w` stand for: bits 31:0 are the descriptor, the payload bytes follow, as many
as it counts, and bits from `nbits` on are 0 (log 17). -/
def tableRequest (c : Cfg) (nbits w : Nat) : Request where
  lenWidth := c.lenWidth
  desc := BitVec.ofNat 32 (w % 2 ^ nbits)
  payload := bytesFrom (w % 2 ^ nbits) 4 (payloadLen c.lenWidth (BitVec.ofNat 32 (w % 2 ^ nbits)))
  exact := bytesFrom_length _ _ _

theorem tableRequest_framed (c : Cfg) (nbits w : Nat) : (tableRequest c nbits w).framed c = true := by
  simp [Request.framed, tableRequest]

/-- The request that this decoder reads from table-numbered bits, under the configuration of `State.reset`. -/
def decodeTableWord (nbits w : Nat) : Option Instr :=
  match decodeRequest (Cfg.default .four) (tableRequest (Cfg.default .four) nbits w) with
  | .ok i => some i
  | .error _ => none

end Sys2Proof
end

