-- ==== Sys2Proof/Machine/State.lean ====
section
/-! DEFINITION. The architectural state of 10_state as plain data, the state at construction (R32), and
the reasons a step can stop. -/

namespace Sys2Proof.Machine

/-- The lines, addressed by role (20_memory R34, R35). -/
inductive Line where
  /-- Data line `D[i]`. -/
  | d (i : Nat)
  /-- Enable. -/
  | e
  /-- Register-select. -/
  | rs
  /-- Read/write direction. -/
  | rw
deriving DecidableEq, Repr

/-- A line's direction `cfg(l)` (10_state R15). -/
inductive LineDir where
  | output
  | input
deriving DecidableEq, Repr

/-- The two state variables of a line (R15): `dir` is `cfg(l)`, and `lat` is `lat(l)` with `none` for
`Unknown`, which is a value of the spec and no level (R33). -/
structure LineState where
  dir : LineDir
  lat : Option Level
deriving DecidableEq, Repr

/-- The line set `D[0..N-1], E, RS, RW` (R34); `data` is in index order. -/
structure Lines where
  data : List LineState
  e : LineState
  rs : LineState
  rw : LineState
deriving DecidableEq, Repr

/-- `RSMODE` (R18). -/
inductive RsMode where
  | unset
  | command
  | data
deriving DecidableEq, Repr

/-- `RESULT.status` (60_exceptions R99); a refusal keeps its reason (R100). -/
inductive Status where
  | ok
  | invalidArgument
  | refused (reason : RefuseReason)
deriving DecidableEq, Repr

/-- `RESULT`, the response to the last completed request (R25). -/
structure Result where
  count : Nat
  status : Status
  rbuf : List Byte
deriving DecidableEq, Repr

/-- The event kinds of the trace (R27). -/
inductive EventKind where
  | beginReq (q : Desc)
  | cfgOut (l : Line)
  | cfgIn (l : Line)
  | drive (l : Line) (lvl : Level)
  | sample (l : Line) (lvl : Level)
  | sleep (requested elapsed : Nat)
  | tap (v : Byte) (width : Nat)
  | endReq (count : Nat) (status : Status)
deriving DecidableEq, Repr

/-- An event with its start time in nanoseconds (R27). -/
structure Event where
  t : Nat
  kind : EventKind
deriving DecidableEq, Repr

/-- What the sequencer keeps while a request runs: the request, the position of its next statement (R23),
and the local variables of its pseudocode: `acc` of GET (42_transcoding R90), `hi` of READUNIT in Four
mode and the bytes read so far (40_bus_transport R75, R77). -/
structure Active where
  req : Instr
  pos : Nat
  acc : Byte
  hi : Byte
  rbuf : List Byte
deriving DecidableEq, Repr

/-- `SEQ` (R23). -/
inductive Seq where
  | idle
  | busy (a : Active)
deriving DecidableEq, Repr

/-- Who answers a `Sample` (20_memory R45): the unconstrained oracle that claims are stated for, or one of
the two test simulators. -/
inductive Oracle where
  | unconstrained
  | levelMirror
  | latchReplay
deriving DecidableEq, Repr

/-- The outside world's choices (the model's own fields, logs 5 and 6). The next free choice is the head
of its list while the list lasts, then the opaque free value of Config at the counter `draws`. -/
structure Env where
  oracle : Oracle
  answers : List Level
  delays : List Nat
  draws : Nat
deriving DecidableEq, Repr

/-- What arrives on the upstream port: a request (30_encoding R58), or the caller's move on the lines
between two requests (70_reset_and_hazards R141). -/
inductive Delivery where
  | request (r : Request)
  | restoreOut
deriving DecidableEq, Repr

/-- The state of the transport: configuration, lines, transport state, bookkeeping (10_state), and the
model's own port and environment (logs 4 to 6). -/
structure State where
  /-- The configuration, fixed at construction (R13). -/
  cfg : Cfg
  /-- The line state (R15). -/
  lines : Lines
  /-- `RSMODE` (R18). -/
  rsMode : RsMode
  /-- `DIR` (R20). -/
  dir : LineDir
  /-- `SEQ` (R23). -/
  seq : Seq
  /-- `RESULT` (R25). -/
  result : Result
  /-- The current time in nanoseconds (R26). -/
  now : Nat
  /-- `TRACE`, oldest event first (R27). -/
  trace : List Event
  /-- Deliveries not yet taken, oldest first (log 4). -/
  port : List Delivery
  /-- The outside world's choices (logs 5 and 6). -/
  env : Env
deriving DecidableEq, Repr

/-- Why the machine stops with a fault. There is no constructor: nothing in the transport is a fault, and
hazards are predicates over the trace (93_implementation_defined part 1, 70_reset_and_hazards R137).
Nobody raises one, which is safe: no behaviour of the spec is cut off. -/
inductive Fault where
deriving DecidableEq, Repr

/-- Why the model gives an instruction no meaning. A refused descriptor (60_exceptions R100) is not one of
these: the spec says what the transport does with it, and the model does it. -/
inductive Refusal where
  /-- Raised only by an arm of `exec` whose instruction has no meaning yet; no arm raises it. It is safe:
  a refusal proves nothing about the hardware. -/
  | notModelled (mnemonic : String)
deriving DecidableEq, Repr

/-- The lines of a transport with `n` data lines at construction (R32): every line an output, `E` low, and
no other line driven since construction. -/
def Lines.constructed (n : Nat) : Lines where
  data := List.replicate n ⟨.output, none⟩
  e := ⟨.output, some .low⟩
  rs := ⟨.output, none⟩
  rw := ⟨.output, none⟩

/-- The state at construction under configuration `c` (R32); nothing has been issued (R117). The model's
own fields start empty (logs 4 to 6). -/
def State.constructed (c : Cfg) : State where
  cfg := c
  lines := Lines.constructed c.n
  rsMode := .unset
  dir := .output
  seq := .idle
  result := ⟨0, .ok, []⟩
  now := 0
  trace := []
  port := []
  env := ⟨.unconstrained, [], [], 0⟩

/-- The state right after reset, that is after construction (70_reset_and_hazards R116), with every default
of R6 and, a DESIGN CHOICE (log 1), `W = Four`, the width under which all four requests are legal. -/
def State.reset : State := State.constructed (Cfg.default .four)

end Sys2Proof.Machine
end

