-- ==== Sys2Proof/Machine/BusView.lean ====
section
/-! DEFINITION. The accessors of the line set, and the bus view of 20_memory R42 to R44: what the display
sees on the wires, as a function of the trace (00_scope R11). -/

namespace Sys2Proof.Machine

/-! ### The line set as an address space -/

/-- What a line number outside the line set would read as; no operation reaches one (R34). -/
def absentLine : LineState := ⟨.output, none⟩

/-- The state of a line. -/
def Lines.get (ls : Lines) : Line → LineState
  | .d i => ls.data.getD i absentLine
  | .e => ls.e
  | .rs => ls.rs
  | .rw => ls.rw

/-- The line set with one line's state replaced; a line outside the set does not exist and changes nothing. -/
def Lines.set (ls : Lines) (l : Line) (x : LineState) : Lines := match l with
  | .d i => { ls with data := ls.data.set i x }
  | .e => { ls with e := x }
  | .rs => { ls with rs := x }
  | .rw => { ls with rw := x }

/-- `lat(l) <- lvl` (R38). -/
def Lines.setLat (ls : Lines) (l : Line) (lvl : Level) : Lines :=
  ls.set l { ls.get l with lat := some lvl }

/-- `cfg(l) <- dir` (R36, R37). -/
def Lines.setDir (ls : Lines) (l : Line) (dir : LineDir) : Lines :=
  ls.set l { ls.get l with dir := dir }

/-- The line set has exactly the data lines of the configuration (R34). -/
def Lines.wf (n : Nat) (ls : Lines) : Bool := ls.data.length == n

/-- A line belongs to the line set of a transport with `n` data lines (R34). -/
def Line.inSet (n : Nat) : Line → Bool
  | .d i => decide (i < n)
  | _ => true

/-- `lineNo` (R34, R35). -/
def Line.no (n : Nat) : Line → Nat
  | .d i => i
  | .e => n
  | .rs => n + 1
  | .rw => n + 2

/-- The data latch file as a number, when every latch is known (10_state R16). -/
def latchValue (data : List LineState) : Option Nat :=
  data.foldr (fun x acc => match x.lat, acc with
    | some l, some v => some (l.bit + 2 * v)
    | _, _ => none) (some 0)

/-- The display pin `DB(k)` that data line `i` is conventionally wired to (30_encoding R70); informative,
no rule of the transport depends on it. -/
def displayPin : LineWidth → Nat → Nat
  | .eight, i => i
  | .four, i => i + 4

/-! ### The bus level of a line -/

/-- What the display sees on a wire (R42). `unknown` and `notDriven` are no levels: each stands for a draw,
free at every use (10_state R33). -/
inductive BusLevel where
  | low
  | high
  | unknown
  | notDriven
deriving DecidableEq, Repr

/-- A known level on the bus. -/
def BusLevel.ofLevel : Level → BusLevel
  | .low => .low
  | .high => .high

/-- The bus level of a driven wire whose latch is `lat`. -/
def BusLevel.ofLat : Option Level → BusLevel
  | some l => .ofLevel l
  | none => .unknown

/-- The level of a wire the transport drives to a known level, if it does. -/
def BusLevel.known : BusLevel → Option Level
  | .low => some .low
  | .high => some .high
  | .unknown => none
  | .notDriven => none

/-- The levels the display may see: a known level alone, or either level for a draw (R33, R42). -/
def BusLevel.admits (b : BusLevel) (l : Level) : Bool := match b.known with
  | some k => decide (k = l)
  | none => true

/-- `bus(l)` (R42). -/
def bus (c : Cfg) (ls : Lines) : Line → BusLevel
  | .e => .ofLat (ls.get .e).lat
  | .rs => .ofLat (ls.get .rs).lat
  | .rw => .ofLat (ls.get .rw).lat
  | .d i => match (ls.get (.d i)).dir, c.inputDriveEffect with
    | .output, _ => .ofLat (ls.get (.d i)).lat
    | .input, .undriven => .notDriven
    | .input, .drives => .ofLat (ls.get (.d i)).lat

/-- `[bus(D[0]), ..., bus(D[N-1])]` (R43). -/
def busData (c : Cfg) (ls : Lines) : List BusLevel := (List.range c.n).map fun i => bus c ls (.d i)

/-- The cycle that an enable strobe makes, told from `bus(RW)` (R43, R44). -/
inductive CycleKind where
  | write
  | read
  /-- `bus(RW)` is `Unknown`: a draw, and a claim must hold for both cycle types (R43). -/
  | either
deriving DecidableEq, Repr

/-- The cycle type under the lines as they stand (R43, R44). -/
def cycleKind (c : Cfg) (ls : Lines) : CycleKind := match (bus c ls .rw).known with
  | some l => if l = c.rwWriteLevel then .write else .read
  | none => .either

/-! ### Events in their context -/

/-- The effect of an event on the lines (R36 to R40). -/
def Lines.after (ls : Lines) : EventKind → Lines
  | .cfgOut l => ls.setDir l .output
  | .cfgIn l => ls.setDir l .input
  | .drive l lvl => ls.setLat l lvl
  | _ => ls

/-- The request in progress after an event (40_bus_transport R71). -/
def requestAfter (req : Option Desc) : EventKind → Option Desc
  | .beginReq q => some q
  | .endReq _ _ => none
  | _ => req

/-- An event with the lines just before it and the descriptor of the request it belongs to. -/
structure Seen where
  lines : Lines
  req : Option Desc
  ev : Event
deriving DecidableEq, Repr

/-- The lines after a list of events. -/
def replayLines (ls : Lines) (evs : List Event) : Lines :=
  evs.foldl (fun ls ev => ls.after ev.kind) ls

/-- Every event of a list in its context, starting from lines `ls` and request `req`. -/
def seenFrom (ls : Lines) (req : Option Desc) : List Event → List Seen
  | [] => []
  | ev :: evs => ⟨ls, req, ev⟩ :: seenFrom (ls.after ev.kind) (requestAfter req ev.kind) evs

/-- The whole trace in its context, from construction (00_scope R11). -/
def State.seen (s : State) : List Seen := seenFrom (Lines.constructed s.cfg.n) none s.trace

/-- A falling edge of `E`: `Drive(E, Low)` issued while `lat(E) = High` (R43). -/
def Seen.isFall (x : Seen) : Bool :=
  decide (x.ev.kind = .drive .e .low) && decide ((x.lines.get .e).lat = some .high)

/-- A rising edge of `E`: `Drive(E, High)` issued while `lat(E)` is not `High` (R38, R44). -/
def Seen.isRise (x : Seen) : Bool :=
  decide (x.ev.kind = .drive .e .high) && decide ((x.lines.get .e).lat ≠ some .high)

/-! ### Latch events -/

/-- A latched unit `(rs, d)` with its time (R43). `certain` is false when `bus(RW)` is `Unknown`: the edge
may then be a latch event or the end of a read cycle. -/
structure LatchedUnit where
  t : Nat
  certain : Bool
  rs : BusLevel
  data : List BusLevel
deriving DecidableEq, Repr

/-- The unit the display takes in at an event, if the event may be a latch event (R43). -/
def Seen.latched (c : Cfg) (x : Seen) : Option LatchedUnit :=
  if x.isFall then match cycleKind c x.lines with
    | .write => some ⟨x.ev.t, true, bus c x.lines .rs, busData c x.lines⟩
    | .either => some ⟨x.ev.t, false, bus c x.lines .rs, busData c x.lines⟩
    | .read => none
  else none

/-- The units latched over a list of events that starts from lines `ls`. -/
def latchedFrom (c : Cfg) (ls : Lines) (evs : List Event) : List LatchedUnit :=
  (seenFrom ls none evs).filterMap (Seen.latched c)

/-- The units the display has latched since construction. -/
def State.latchedUnits (s : State) : List LatchedUnit :=
  latchedFrom s.cfg (Lines.constructed s.cfg.n) s.trace

/-- The value of a unit's data lines, `Σ bitOf(bus(D[i])) << i`, when every one is known (R43). -/
def busValue (data : List BusLevel) : Option Nat :=
  data.foldr (fun b acc => match b.known, acc with
    | some l, some v => some (l.bit + 2 * v)
    | _, _ => none) (some 0)

/-! ### Read strobes and read cycles -/

/-- A read strobe: a `Sample` of a data line while `E` is High and `RW` is at the read level (R44). -/
def Seen.isReadStrobe (c : Cfg) (x : Seen) : Bool := match x.ev.kind with
  | .sample (.d _) _ => decide ((x.lines.get .e).lat = some .high) && decide (cycleKind c x.lines = .read)
  | _ => false

/-- The start of a read cycle: a rise of `E` while `RW` is at the read level (R44). -/
def Seen.startsReadCycle (c : Cfg) (x : Seen) : Bool := x.isRise && decide (cycleKind c x.lines = .read)

/-! ### The two test oracles -/

/-- What `LatchReplay` keeps of the trace (R45): the lines, the units latched by the WRITE or WRNIB in
progress (`none` outside one), the list `U` of the most recent completed one, and the read cycles begun
since. A unit counts only if its cycle is certainly a write (log 7). -/
structure ReplayView where
  lines : Lines
  current : Option (List (List BusLevel))
  replayed : List (List BusLevel)
  cycles : Nat
deriving DecidableEq, Repr

/-- `LatchReplay`'s view after one more event (R45). -/
def ReplayView.after (c : Cfg) (v : ReplayView) (ev : Event) : ReplayView :=
  let x : Seen := ⟨v.lines, none, ev⟩
  let v' := { v with lines := v.lines.after ev.kind }
  match ev.kind with
  | .beginReq q =>
    { v' with current := if opField q = 0b01#2 ∨ opField q = 0b10#2 then some [] else none }
  | .endReq _ status => match v.current, status with
    | some us, .ok => { v' with current := none, replayed := us, cycles := 0 }
    | _, _ => { v' with current := none }
  | .drive .e .low =>
    if x.isFall && decide (cycleKind c v.lines = .write) then
      { v' with current := v.current.map (· ++ [busData c v.lines]) }
    else v'
  | .drive .e .high => if x.startsReadCycle c then { v' with cycles := v.cycles + 1 } else v'
  | _ => v'

/-- `LatchReplay`'s view of a whole trace. -/
def replayView (c : Cfg) (trace : List Event) : ReplayView :=
  trace.foldl (ReplayView.after c) ⟨Lines.constructed c.n, none, [], 0⟩

/-- `LatchReplay`'s answer on `D[i]`: `U[r][i]` inside a read cycle with `r < len(U)`, else a draw (R45). -/
def replayAnswer (c : Cfg) (trace : List Event) (i : Nat) : Option Level :=
  let v := replayView c trace
  if (v.lines.get .e).lat = some .high ∧ cycleKind c v.lines = .read then
    match v.cycles with
    | 0 => none
    | r + 1 => (v.replayed[r]?).bind fun u => (u[i]?).bind BusLevel.known
  else none

/-- The level the oracle is bound to answer on a line, or `none` where its answer is a draw (R45). -/
def oracleAnswer (s : State) (l : Line) : Option Level := match s.env.oracle with
  | .unconstrained => none
  | .levelMirror => (s.lines.get l).lat
  | .latchReplay => match l with
    | .d i => replayAnswer s.cfg s.trace i
    | _ => none

end Sys2Proof.Machine
end

