-- ==== Sys2Proof/Machine/Flags.lean ====
section
/-! DEFINITION. The transport has no condition codes; its mode flags are `RSMODE` and `DIR`. This file holds
what the spec computes from them: the `RS` level of a mode (10_state R18), the state view `SV` (R30), and
the status codes (60_exceptions R99). -/

namespace Sys2Proof.Machine

/-- The mode that `isCommand` selects (40_bus_transport R72). -/
def RsMode.select (isCommand : Bool) : RsMode := if isCommand then .command else .data

/-- The level SETMODE drives on `RS`: low for command mode, high for data mode (R72, 30_encoding R61). -/
def rsLevel (isCommand : Bool) : Level := if isCommand then .low else .high

/-- The `lat(RS)` that a mode determines (10_state R18). -/
def RsMode.lat : RsMode → Option Level
  | .unset => none
  | .command => some .low
  | .data => some .high

/-- The numeric status codes (60_exceptions R99). -/
def Status.code : Status → Nat
  | .ok => 0
  | .invalidArgument => 1
  | .refused _ => 2

/-- `SV[0]`, the line width (10_state R30). -/
def svWidth (s : State) : BitVec 1 := match s.cfg.width with
  | .four => 0#1
  | .eight => 1#1

/-- `SV[1]`, the direction (R30). -/
def svDir (s : State) : BitVec 1 := match s.dir with
  | .output => 0#1
  | .input => 1#1

/-- `SV[3:2]`, the register-select mode (R30). -/
def svMode (s : State) : BitVec 2 := match s.rsMode with
  | .unset => 0b00#2
  | .command => 0b01#2
  | .data => 0b10#2

/-- `SV[4]`, whether a request is executing (R30). -/
def svBusy (s : State) : BitVec 1 := match s.seq with
  | .idle => 0#1
  | .busy _ => 1#1

/-- The 8-bit state view `SV`; bits 7:5 are always 0 (R30). -/
def sv (s : State) : BitVec 8 := 0#3 ++ svBusy s ++ svMode s ++ svDir s ++ svWidth s

end Sys2Proof.Machine
end

