-- ==== Sys2Proof/Machine/Operands.lean ====
section
/-! DEFINITION. Operand assembly (30_encoding R66) and the nibble/byte encoder as pure functions
(42_transcoding R91 to R94). -/

namespace Sys2Proof.Machine

/-- `hi(v) = v[7:4]` (R91). -/
def hiNibble (v : Byte) : Byte := (v >>> 4) &&& 0x0F#8

/-- `lo(v) = v[3:0]` (R91), the part of a WRNIB element that is used (30_encoding R66). -/
def loNibble (v : Byte) : Byte := v &&& 0x0F#8

/-- `assemble(hi, lo) = (hi << 4) | lo` (R92). -/
def assemble (hi lo : Byte) : Byte := (hi <<< 4) ||| lo

/-- `units(W, v)`: the unit values a byte becomes, in the order they travel (R93). -/
def units : LineWidth → Byte → List Byte
  | .eight, v => [v]
  | .four, v => [hiNibble v, loNibble v]

/-- `decodeUnits(W, us)` on the units sampled in one byte's read cycles; no other number of units is
sampled for a byte (R94). -/
def decodeUnits : LineWidth → List Byte → Option Byte
  | .eight, [u] => some u
  | .four, [u0, u1] => some (assemble u0 u1)
  | _, _ => none

/-- GET's accumulation step: `acc | (1 << i)` if the line reads high (R90). -/
def orBit (acc : Byte) (i : Nat) : Level → Byte
  | .high => acc ||| (1#8 <<< i)
  | .low => acc

/-- GET as a pure function of the levels sampled on `D[i], D[i+1], ...` into `acc` (R90, R57). -/
def gather (acc : Byte) : (i : Nat) → List Level → Byte
  | _, [] => acc
  | i, l :: ls => gather (orBit acc i l) (i + 1) ls

/-- The levels that PUT drives on `D[0..n-1]` for value `v` (R89, R47). -/
def bitLevels (v : Byte) (n : Nat) : List Level := (List.range n).map fun i => Level.ofBit (v.getLsbD i)

/-- The expansion of a pseudo-request (30_encoding R69). -/
def expandPseudo : Pseudo → List Instr
  | .cmd bytes => [.setmode true, .write bytes]
  | .data bytes => [.setmode false, .write bytes]

/-- A sequence cut into pieces of at most `k + 1` elements, in order (R63). -/
def chunks (k : Nat) : (fuel : Nat) → List Byte → List (List Byte)
  | 0, _ => []
  | _ + 1, [] => []
  | fuel + 1, p => p.take (k + 1) :: chunks k fuel (p.drop (k + 1))

/-- The WRITE requests of a sequence of any length: one where it fits `LEN`, else several (R63, D22). -/
def splitWrite (c : Cfg) (p : List Byte) : List Instr :=
  if p.length < 2 ^ c.lenWidth then [.write p]
  else (chunks (2 ^ c.lenWidth - 2) p.length p).map .write

/-- The WRNIB requests of a sequence of any length; each has a trailing pulse of its own (R63, D22). -/
def splitWrnib (c : Cfg) (p : List Byte) : List Instr :=
  if p.length < 2 ^ c.lenWidth then [.wrnib p]
  else (chunks (2 ^ c.lenWidth - 2) p.length p).map .wrnib

end Sys2Proof.Machine
end

