-- ==== Sys2Proof/Machine/Ops.lean ====
section
/-! DEFINITION. The capability primitives of 20_memory R36 to R41, the bookkeeping of a request, and the one
operation by which an error or a refusal ends a request (60_exceptions R97, R100). -/

namespace Sys2Proof.Machine

/-! ### Free choices -/

/-- The next draw of elapsed time (R40, R41). -/
def Env.delay (e : Env) : Nat := match e.delays with
  | d :: _ => d
  | [] => Config.freeDelay e.draws

/-- The environment after that draw. -/
def Env.afterDelay (e : Env) : Env := match e.delays with
  | _ :: ds => { e with delays := ds }
  | [] => { e with draws := e.draws + 1 }

/-- The next draw of a sampled level (R45). -/
def Env.answer (e : Env) : Level := match e.answers with
  | l :: _ => l
  | [] => Config.freeLevel e.draws

/-- The environment after that draw. -/
def Env.afterAnswer (e : Env) : Env := match e.answers with
  | _ :: ls => { e with answers := ls }
  | [] => { e with draws := e.draws + 1 }

/-! ### The trace and the time -/

/-- `TRACE <- TRACE ++ [k @ now]` (10_state R27). -/
def State.emit (s : State) (k : EventKind) : State := { s with trace := s.trace ++ [⟨s.now, k⟩] }

/-- `now <- now + δ` with `δ` a draw (R41). -/
def State.elapse (s : State) : State :=
  { s with now := s.now + s.env.delay, env := s.env.afterDelay }

/-- `emit Tap(v, w)`: an event and nothing else (60_exceptions R109). -/
def State.tap (s : State) (v : Byte) (width : Nat) : State := s.emit (.tap v width)

/-! ### The capability calls -/

/-- `CfgOut(l)` (R36). -/
def State.cfgOut (s : State) (l : Line) : State :=
  { s.emit (.cfgOut l) with lines := s.lines.setDir l .output }.elapse

/-- `CfgIn(l)` (R37). -/
def State.cfgIn (s : State) (l : Line) : State :=
  { s.emit (.cfgIn l) with lines := s.lines.setDir l .input }.elapse

/-- `Drive(l, lvl)` (R38): the latch takes the level whatever the line's direction is. -/
def State.drive (s : State) (l : Line) (lvl : Level) : State :=
  { s.emit (.drive l lvl) with lines := s.lines.setLat l lvl }.elapse

/-- `Sleep(t)`: at least `t`, with no upper bound (R40). -/
def State.sleep (s : State) (t : Nat) : State :=
  { s.emit (.sleep t (t + s.env.delay)) with
    now := s.now + (t + s.env.delay), env := s.env.afterDelay }

/-- The level `Sample(l)` returns: the oracle's answer, or a draw where it is free (R39, R45). -/
def State.sampleLevel (s : State) (l : Line) : Level := (oracleAnswer s l).getD s.env.answer

/-- The environment after the oracle's answer: a draw is consumed only where the answer is one. -/
def State.envAfterSample (s : State) (l : Line) : Env :=
  if (oracleAnswer s l).isSome then s.env else s.env.afterAnswer

/-- `Sample(l)` (R39): no line changes. -/
def State.sample (s : State) (l : Line) : State :=
  { s.emit (.sample l (s.sampleLevel l)) with env := s.envAfterSample l }.elapse

/-! ### The sequencer's position and the pseudocode's local variables -/

/-- A change of what the sequencer keeps for the request in progress. -/
def Seq.map (f : Active → Active) : Seq → Seq
  | .idle => .idle
  | .busy a => .busy (f a)

/-- The same on the whole state. -/
def State.mapActive (s : State) (f : Active → Active) : State := { s with seq := s.seq.map f }

/-! ### Beginning and ending a request -/

/-- The start of an accepted request: `Begin`, then `SEQ <- Busy(r, 0)` (40_bus_transport R71). -/
def State.accept (s : State) (i : Instr) : State :=
  { s.emit (.beginReq (encodeDesc s.cfg i)) with seq := .busy ⟨i, 0, 0#8, 0#8, []⟩ }

/-- The end of a request: `RESULT`, `End`, then `SEQ <- Idle` (R71). -/
def State.respond (s : State) (r : Result) : State :=
  { s.emit (.endReq r.count r.status) with result := r, seq := .idle }

/-- `raise Err(code)`: the request ends at once with count 0 and no bytes; nothing is saved and control
goes nowhere (60_exceptions R97). An error and a refusal both end here. -/
def State.raise (s : State) (code : Status) : State := s.respond ⟨0, code, []⟩

/-- A refused descriptor: `Begin` and `End(0, REFUSED)`, and no line is touched (R100); the reason is kept. -/
def State.refuse (s : State) (q : Desc) (reason : RefuseReason) : State :=
  (s.emit (.beginReq q)).raise (.refused reason)

end Sys2Proof.Machine
end

