-- ==== Sys2Proof/Machine/Caller.lean ====
section
/-! DEFINITION. The caller's side: construction (70_reset_and_hazards R116), the move `RESTORE_OUT` (R141),
and what is taken next from the upstream port (30_encoding R58, 40_bus_transport R71). -/

namespace Sys2Proof.Machine

/-- Construction: a configuration that breaks 00_scope R7 has no transport (R116, D27). -/
def State.construct (c : Cfg) : Option State := if c.wf then some (State.constructed c) else none

/-- `RESTORE_OUT`: the data lines to outputs in ascending order, then `DIR <- Output` (R141). -/
def restoreOut (s : State) : State :=
  { (List.range s.cfg.n).foldl (fun s i => s.cfgOut (.d i)) s with dir := .output }

/-- What the transport does next. -/
inductive Fetched where
  /-- A request is executing: it goes on, and nothing is taken from the port (R71). -/
  | resume
  /-- Nothing has been delivered: the transport waits (70_reset_and_hazards R121). -/
  | wait
  /-- The caller's move. -/
  | restore (rest : List Delivery)
  /-- A request that decodes to an instruction. -/
  | run (i : Instr) (rest : List Delivery)
  /-- A request that is refused (60_exceptions R100). -/
  | refuse (q : Desc) (reason : RefuseReason) (rest : List Delivery)
deriving DecidableEq, Repr

/-- The oldest delivery on the port, taken only when `SEQ = Idle` (R71); a refused request's payload is
taken with it and discarded (D4). What is framed by
another width of `LEN` is no request of this transport, which waits (log 4). -/
def fetch (s : State) : Fetched := match s.seq, s.port with
  | .busy _, _ => .resume
  | .idle, [] => .wait
  | .idle, .restoreOut :: rest => .restore rest
  | .idle, .request r :: rest =>
    if r.framed s.cfg then match decodeRequest s.cfg r with
      | .ok i => .run i rest
      | .error reason => .refuse r.desc reason rest
    else .wait

/-- The state with the deliveries that remain. -/
def State.withPort (s : State) (rest : List Delivery) : State := { s with port := rest }

end Sys2Proof.Machine
end

