-- ==== Sys2Proof/Machine/Sequencer.lean ====
section
/-! DEFINITION. The statements that a request's pseudocode unrolls into (10_state R23, R24), what each does,
and the internal operations PULSE (41_enable_sequencer R83), PUT and GET (42_transcoding R89, R90). -/

namespace Sys2Proof.Machine

/-- One statement of an unrolled operation: a capability call, a tap, or an assignment. -/
inductive Stmt where
  | cfgIn (l : Line)
  | drive (l : Line) (lvl : Level)
  | sleep (t : Nat)
  | tap (v : Byte) (width : Nat)
  /-- `acc <- 0`, the start of GET (42_transcoding R90). -/
  | clearAcc
  /-- `if Sample(D[i]) = High: acc <- acc | (1 << i)` (R90). -/
  | sampleBit (i : Nat)
  /-- `hi <- GET(4)`, the assignment (40_bus_transport R77). -/
  | saveHi
  /-- `rbuf[k] <- v` with `v` the byte of GET(8) (R75, R76). -/
  | storeByte
  /-- `rbuf[k] <- (hi << 4) | lo` with `lo` the nibble of GET(4) (R75, R77). -/
  | storeNibbles
  | setRsMode (m : RsMode)
  | setDir (dir : LineDir)
deriving DecidableEq, Repr

/-- What a statement does, but for the sequencer's position. -/
def stmtEffect (s : State) : Stmt → State
  | .cfgIn l => s.cfgIn l
  | .drive l lvl => s.drive l lvl
  | .sleep t => s.sleep t
  | .tap v w => s.tap v w
  | .clearAcc => s.mapActive fun a => { a with acc := 0#8 }
  | .sampleBit i =>
    (s.sample (.d i)).mapActive fun a => { a with acc := orBit a.acc i (s.sampleLevel (.d i)) }
  | .saveHi => s.mapActive fun a => { a with hi := a.acc }
  | .storeByte => s.mapActive fun a => { a with rbuf := a.rbuf ++ [a.acc] }
  | .storeNibbles => s.mapActive fun a => { a with rbuf := a.rbuf ++ [assemble a.hi a.acc] }
  | .setRsMode m => { s with rsMode := m }
  | .setDir dir => { s with dir := dir }

/-- `pos` advances by one statement at a time, in textual order (10_state R23). -/
def nextPos (a : Active) : Active := { a with pos := a.pos + 1 }

/-- One statement. -/
def runStmt (s : State) (st : Stmt) : State := (stmtEffect s st).mapActive nextPos

/-- Statements one at a time, in textual order (00_scope R9). -/
def runStmts (s : State) (l : List Stmt) : State := l.foldl runStmt s

/-! ### The internal operations -/

/-- PULSE, one enable strobe with its timing envelope (41_enable_sequencer R83). -/
def pulse (c : Cfg) : List Stmt :=
  [.drive .e .low, .sleep c.tEl, .drive .e .high, .sleep c.tEh, .drive .e .low, .sleep c.tSettle]

/-- PUT(v, n): drive the first `n` data lines, ascending (42_transcoding R89). -/
def put (v : Byte) (n : Nat) : List Stmt :=
  (List.range n).map fun i => .drive (.d i) (Level.ofBit (v.getLsbD i))

/-- GET(n): sample the first `n` data lines into the accumulator, ascending (R90). -/
def get (n : Nat) : List Stmt := .clearAcc :: (List.range n).map .sampleBit

/-- `if t > 0: Sleep(t)`, a read-path hold (40_bus_transport R76, R77; D14). -/
def hold (t : Nat) : List Stmt := if 0 < t then [.sleep t] else []

end Sys2Proof.Machine
end

