-- ==== Sys2Proof/Machine/Transport.lean ====
section
/-! DEFINITION. The Bus Transport operations of 40_bus_transport: SETMODE, WRITE, WRNIB and READ. Each is
the list of statements its pseudocode unrolls into (10_state R24); `perform` runs a request from `Begin` to
`End` as one transition (R71, D19), and `statementStep` is the same machine one statement at a time. -/

namespace Sys2Proof.Machine

/-! ### The pseudocode of the operations -/

/-- SETMODE's statements (R72). -/
def setmodeStmts (isCommand : Bool) : List Stmt :=
  [.drive .rs (rsLevel isCommand), .setRsMode (RsMode.select isCommand)]

/-- `emit Tap` where `TAP_SCOPE = All` (R80). -/
def tapIfAll (c : Cfg) (v : Byte) (w : Nat) : List Stmt := match c.tapScope with
  | .all => [.tap v w]
  | .reference => []

/-- One byte of WRITE (R73, step 2). -/
def writeByteStmts (c : Cfg) (v : Byte) : List Stmt := match c.width with
  | .eight => tapIfAll c v 8 ++ put v 8 ++ pulse c
  | .four =>
    .tap (hiNibble v) 4 :: put (hiNibble v) 4 ++ pulse c ++
      (.tap (loNibble v) 4 :: put (loNibble v) 4 ++ pulse c)

/-- WRITE's statements (R73). -/
def writeStmts (c : Cfg) (p : List Byte) : List Stmt :=
  .drive .rw c.rwWriteLevel :: p.flatMap (writeByteStmts c)

/-- One element of WRNIB (R74). -/
def wrnibElemStmts (c : Cfg) (v : Byte) : List Stmt :=
  tapIfAll c (loNibble v) 4 ++ put (loNibble v) 4 ++ pulse c

/-- WRNIB's statements: the optional `RW` drive (D8), the elements, and the trailing pulse (R74). -/
def wrnibStmts (c : Cfg) (p : List Byte) : List Stmt :=
  (if c.wnDrivesRw then [.drive .rw c.rwWriteLevel] else []) ++ p.flatMap (wrnibElemStmts c) ++ pulse c

/-- One read cycle of `n` lines, up to its fall and the hold after it (R76, R77). -/
def readCycle (c : Cfg) (n : Nat) : List Stmt :=
  .drive .e .high :: hold c.tRdEh ++ get n ++ (.drive .e .low :: hold c.tRdEl)

/-- READUNIT and the store of its byte: one cycle in Eight mode (R76), two in Four mode (R77). -/
def readUnitStmts (c : Cfg) : List Stmt := match c.width with
  | .eight => readCycle c 8 ++ [.storeByte]
  | .four => readCycle c 4 ++ .saveHi :: readCycle c 4 ++ [.storeNibbles]

/-- `for i in 0 .. N-1: CfgIn(D[i])` (R75, steps 2 and 4). -/
def dataLinesIn (c : Cfg) : List Stmt := (List.range c.n).map fun i => .cfgIn (.d i)

/-- READ's statements for `LEN = n`; with `LEN = 0` the error comes before any of them (R75). -/
def readStmts (c : Cfg) : (n : Nat) → List Stmt
  | 0 => []
  | n + 1 =>
    .drive .rw c.rwReadLevel :: dataLinesIn c ++ .setDir .input ::
      (List.replicate (n + 1) (readUnitStmts c)).flatten ++ dataLinesIn c

/-- The statements of a request, a function of `Cfg` and the request alone (10_state R24). -/
def stmtsOf (c : Cfg) : Instr → List Stmt
  | .setmode isCommand => setmodeStmts isCommand
  | .write p => writeStmts c p
  | .wrnib p => wrnibStmts c p
  | .read n => readStmts c n

/-! ### Ending an operation -/

/-- What an operation returns once its statements have run (R72 to R75, R78); READ of length 0 raises
`INVALID_ARGUMENT` (60_exceptions R98). -/
def endRequest (s : State) (a : Active) : State := match a.req with
  | .setmode _ => s.respond ⟨0, .ok, []⟩
  | .write p => s.respond ⟨p.length, .ok, []⟩
  | .wrnib p => s.respond ⟨p.length, .ok, []⟩
  | .read 0 => s.raise .invalidArgument
  | .read (n + 1) => s.respond ⟨n + 1, .ok, a.rbuf⟩

/-- The end of the request in progress, if one is. -/
def closeRequest (s : State) : State := match s.seq with
  | .idle => s
  | .busy a => endRequest s a

/-! ### Running a request -/

/-- The request in progress run to its `End`; an idle transport stays as it is (R71). -/
def finish (s : State) : State := match s.seq with
  | .idle => s
  | .busy a => closeRequest (runStmts s ((stmtsOf s.cfg a.req).drop a.pos))

/-- A request from acceptance to its `End` as one transition (R71, D19). A transport that is still busy
first runs its request to the end, since only then is the next one accepted (log 8). -/
def perform (i : Instr) (s : State) : State := finish ((finish s).accept i)

/-- The sequencer one statement at a time (10_state R23): the next statement of the request in progress,
or its end when none is left; an idle transport stays as it is. -/
def statementStep (s : State) : State := match s.seq with
  | .idle => s
  | .busy a => match (stmtsOf s.cfg a.req)[a.pos]? with
    | some st => runStmt s st
    | none => closeRequest s

/-- That many steps of the sequencer. -/
def statementSteps : (k : Nat) → State → State
  | 0, s => s
  | k + 1, s => statementSteps k (statementStep s)

/-! ### The meanings -/

/-- SETMODE (R72). -/
def execSetmode (isCommand : Bool) (s : State) : Host.Outcome State Fault Refusal :=
  .next (perform (.setmode isCommand) s)

/-- WRITE (R73). -/
def execWrite (p : List Byte) (s : State) : Host.Outcome State Fault Refusal :=
  .next (perform (.write p) s)

/-- WRNIB (R74); with `W = Eight` its descriptor is a refused one (30_encoding R65). -/
def execWrnib (p : List Byte) (s : State) : Host.Outcome State Fault Refusal := match s.cfg.width with
  | .four => .next (perform (.wrnib p) s)
  | .eight => .next ((finish s).refuse (encodeDesc s.cfg (.wrnib p)) .wrnibEightMode)

/-- READ (R75), with its error case. -/
def execRead (n : Nat) (s : State) : Host.Outcome State Fault Refusal :=
  .next (perform (.read n) s)

end Sys2Proof.Machine
end

