-- ==== Sys2Proof/Machine/Dispatch.lean ====
section
/-! DEFINITION. One arm per constructor of Instr, each a direct call of its meaning. -/

namespace Sys2Proof.Machine

def exec (i : Instr) (s : State) : Host.Outcome State Fault Refusal :=
  match i with
  | .setmode isCommand => Sys2Proof.Machine.execSetmode isCommand s
  | .write p => Sys2Proof.Machine.execWrite p s
  | .wrnib p => Sys2Proof.Machine.execWrnib p s
  | .read n => Sys2Proof.Machine.execRead n s

end Sys2Proof.Machine
end

