-- ==== Sys2Proof/Machine/Step.lean ====
section
/-! DEFINITION. One step of the transport: a whole request as one transition (40_bus_transport R71, D19), the
caller's move, or the rest of a request in progress. -/

namespace Sys2Proof.Machine

/-- One step. An idle transport to which nothing was delivered waits: its state does not change. -/
def step (s : State) : Host.Outcome State Fault Refusal :=
  match fetch s with
  | .resume => .next (finish s)
  | .wait => .next s
  | .restore rest => .next (restoreOut (s.withPort rest))
  | .run i rest => exec i (s.withPort rest)
  | .refuse q reason rest => .next ((s.withPort rest).refuse q reason)

/-- `s` with the request that table-numbered bits `w` stand for delivered first, to an idle transport. -/
def State.withFetchWord (s : State) (nbits w : Nat) : State :=
  { s with seq := .idle, port := .request (tableRequest s.cfg nbits w) :: s.port }

end Sys2Proof.Machine
end

