-- ==== Sys2Proof/Machine/Run.lean ====
section
/-! DEFINITION. A run of the transport and what it observes (70_reset_and_hazards R140). -/

namespace Sys2Proof.Machine

/-- Deliveries taken one after another by an idle transport, with the `RESULT` of each request in order
(R140); `RESTORE_OUT` is no request and has none (R141). It ends early only where a step does. -/
def runDeliveries (s : State) : List Delivery → Host.Outcome (State × List Result) Fault Refusal
  | [] => .next (s, [])
  | d :: ds => match step (s.withPort [d]) with
    | .next t => match runDeliveries t ds with
      | .next (u, rs) => .next (u, match d with
        | .request _ => t.result :: rs
        | .restoreOut => rs)
      | .fault r => .fault r
      | .refused r => .refused r
    | .fault r => .fault r
    | .refused r => .refused r

/-- A request encoded under a configuration, as a delivery (30_encoding R58). -/
def deliver (c : Cfg) (i : Instr)
    (h : (encodePayload i).length = payloadLen c.lenWidth (encodeDesc c i)) : Delivery :=
  .request ⟨c.lenWidth, encodeDesc c i, encodePayload i, h⟩

end Sys2Proof.Machine
end

