-- ==== Sys2Proof/Machine/Hazards.lean ====
section
/-! DEFINITION. Event counts, setup and hold, and the hazards of 70_reset_and_hazards as predicates over
events in their context (R122 to R133, R137): the machine never stops on one. -/

namespace Sys2Proof.Machine

/-! ### Kinds of events -/

/-- A capability call: not `Begin`, `End` or `Tap` (20_memory R36 to R40; 40_bus_transport R82). -/
def EventKind.isCall : EventKind → Bool
  | .cfgOut _ => true
  | .cfgIn _ => true
  | .drive _ _ => true
  | .sample _ _ => true
  | .sleep _ _ => true
  | .beginReq _ => false
  | .tap _ _ => false
  | .endReq _ _ => false

/-- A tap (60_exceptions R109). -/
def EventKind.isTap : EventKind → Bool
  | .tap _ _ => true
  | _ => false

/-- `Drive(D[·], ·)`. -/
def EventKind.drivesData : EventKind → Bool
  | .drive (.d _) _ => true
  | _ => false

/-- `Drive(E, ·)`. -/
def EventKind.drivesEnable : EventKind → Bool
  | .drive .e _ => true
  | _ => false

/-- `Drive(RS, ·)` or `Drive(RW, ·)`. -/
def EventKind.drivesSelect : EventKind → Bool
  | .drive .rs _ => true
  | .drive .rw _ => true
  | _ => false

/-- `Sleep(·)`. -/
def EventKind.isSleep : EventKind → Bool
  | .sleep _ _ => true
  | _ => false

/-- `Sample(·)`. -/
def EventKind.isSample : EventKind → Bool
  | .sample _ _ => true
  | _ => false

/-- `CfgIn(·)`. -/
def EventKind.isCfgIn : EventKind → Bool
  | .cfgIn _ => true
  | _ => false

/-- `CfgOut(·)`. -/
def EventKind.isCfgOut : EventKind → Bool
  | .cfgOut _ => true
  | _ => false

/-- How many events of a list are of a kind. -/
def countKind (p : EventKind → Bool) (evs : List Event) : Nat := evs.countP fun ev => p ev.kind

/-- The kind of call and its line or request, without times and sampled levels (10_state R24): what a
request fixes of its trace. -/
def EventKind.shape : EventKind → EventKind
  | .sample l _ => .sample l .low
  | .sleep requested _ => .sleep requested requested
  | .beginReq q => .beginReq q
  | .cfgOut l => .cfgOut l
  | .cfgIn l => .cfgIn l
  | .drive l lvl => .drive l lvl
  | .tap v w => .tap v w
  | .endReq n st => .endReq n st

/-- A list of events in time order, none before `t` (10_state R26, R27). -/
def timed (t : Nat) (evs : List Event) : Prop :=
  (∀ ev ∈ evs, t ≤ ev.t) ∧ evs.Pairwise fun a b => a.t ≤ b.t

/-! ### Setup and hold -/

/-- From every event of the first kind to every later one of the second at least `gap` ns pass. -/
def spaced (first second : Seen → Bool) (gap : Nat) (evs : List Seen) : Prop :=
  evs.Pairwise fun a b => first a = true → second b = true → a.ev.t + gap ≤ b.ev.t

/-- `Drive(D[·], ·)` in context. -/
def Seen.drivesData (x : Seen) : Bool := x.ev.kind.drivesData

/-- `Drive(E, Low)`, an edge or not. -/
def Seen.drivesEnableLow (x : Seen) : Bool := decide (x.ev.kind = .drive .e .low)

/-- A drive of a data line, `RS` or `RW` (R132). -/
def Seen.changesBus (x : Seen) : Bool := x.ev.kind.drivesData || x.ev.kind.drivesSelect

/-- `Drive(RS, ·)` or `Drive(RW, ·)` (R127, R133). -/
def Seen.drivesSelect (x : Seen) : Bool := x.ev.kind.drivesSelect

/-- `Sample(·)` (R126). -/
def Seen.isSample (x : Seen) : Bool := x.ev.kind.isSample

/-- R130: every data-line drive happens while `E` is low, at least `T_EL` before every later rise and
`T_EL + T_EH` before every later fall. -/
def dataSetup (c : Cfg) (evs : List Seen) : Prop :=
  (∀ x ∈ evs, x.drivesData = true → (x.lines.get .e).lat = some .low) ∧
  spaced Seen.drivesData Seen.isRise c.tEl evs ∧
  spaced Seen.drivesData Seen.isFall (c.tEl + c.tEh) evs

/-- R131: enable high time, enable low time before a rise, and the time between rises. -/
def pulseWidths (c : Cfg) (evs : List Seen) : Prop :=
  spaced Seen.isRise Seen.isFall c.tEh evs ∧
  spaced Seen.drivesEnableLow Seen.isRise c.tEl evs ∧
  spaced Seen.isRise Seen.isRise (c.tEh + c.tSettle + c.tEl) evs

/-- R132: after a fall of `E` nothing on the bus changes for `T_SETTLE`. -/
def busHold (c : Cfg) (evs : List Seen) : Prop := spaced Seen.isFall Seen.changesBus c.tSettle evs

/-- R133: `RS` and `RW` are driven at least `T_EL` before every later rise. -/
def selectSetup (c : Cfg) (evs : List Seen) : Prop := spaced Seen.drivesSelect Seen.isRise c.tEl evs

/-! ### Hazards -/

/-- The latch event's unit, or the read strobe, is addressed by an `RS` that nothing has driven (R125). -/
def rsUnset (c : Cfg) (x : Seen) : Bool :=
  ((x.latched c).isSome || x.isReadStrobe c) && decide (bus c x.lines .rs = .unknown)

/-- A WRITE or WRNIB drives a data line that is an input (R122). -/
def drivesInput (x : Seen) : Bool := match x.ev.kind with
  | .drive (.d i) _ => decide ((x.lines.get (.d i)).dir = .input)
  | _ => false

/-- The display latches a unit whose data the transport does not drive (R122). -/
def latchesUndriven (c : Cfg) (x : Seen) : Bool := match x.latched c with
  | some u => u.data.any fun b => decide (b = .notDriven)
  | none => false

/-- An enable fall of a WRNIB that is no certain latch event: `RW` is at the read level or unknown (R123). -/
def wrnibNotWriting (c : Cfg) (x : Seen) : Bool := match x.req with
  | some q => x.isFall && decide (opField q = 0b10#2) && decide (cycleKind c x.lines ≠ .write)
  | none => false

/-- An enable rise at which the display may drive data lines that are still outputs (R123, R138). -/
def contention (c : Cfg) (x : Seen) : Bool :=
  x.isRise && decide (cycleKind c x.lines ≠ .write) && x.lines.data.any fun l => decide (l.dir = .output)

/-- A data line driven while `E` is high, which premise `EnableLow` rules out (R124, R130). -/
def drivesWhileEnabled (x : Seen) : Bool :=
  x.drivesData && decide ((x.lines.get .e).lat = some .high)

/-- Read-cycle timing, which the defaults do not enforce (R126): a sample comes at least `delay` after the
rise, and the enable is high for `width`. -/
def readTiming (delay width : Nat) (evs : List Seen) : Prop :=
  spaced Seen.isRise Seen.isSample delay evs ∧ spaced Seen.isRise Seen.isFall width evs

/-- Address setup: `RS` and `RW` are driven at least `setup` before a later rise (R127). -/
def addressSetup (setup : Nat) (evs : List Seen) : Prop := spaced Seen.drivesSelect Seen.isRise setup evs

/-- An event that is none of the hazards R122 to R125. -/
def hazardFreeEvent (c : Cfg) (x : Seen) : Bool :=
  !rsUnset c x && !drivesInput x && !latchesUndriven c x && !wrnibNotWriting c x && !contention c x &&
    !drivesWhileEnabled x

end Sys2Proof.Machine
end

