-- ==== Sys2Proof/Safety.lean ====
section
/-! DEFINITION. What a safe run is, in the terms claims use: the facts that hold at every request boundary,
the facts that tie the trace to the state, and freedom from the hazards of 70_reset_and_hazards. -/

namespace Sys2Proof.Machine

/-- `DIR` agrees with the data lines (10_state R22). -/
def State.dirAgrees (s : State) : Prop := ∀ l ∈ s.lines.data, l.dir = s.dir

/-- The premises of R118 that a state can show, and what 10_state says of every request boundary: a
configuration that meets R7, exactly its lines (20_memory R34), control lines that are outputs (R17), `E`
low (R29), `RS` as the mode says (R18), `DIR` as the data lines are (R22), and no request executing (R23). -/
structure State.AtBoundary (s : State) : Prop where
  cfgWf : s.cfg.wf = true
  linesWf : s.lines.wf s.cfg.n = true
  enableOut : s.lines.e.dir = .output
  selectOut : s.lines.rs.dir = .output
  readWriteOut : s.lines.rw.dir = .output
  enableLow : s.lines.e.lat = some .low
  rsAgrees : s.lines.rs.lat = s.rsMode.lat
  dirAgrees : s.dirAgrees
  idle : s.seq = .idle

/-- The lines are what the trace since construction made them (00_scope R11, 20_memory R50). -/
def State.TraceExplainsLines (s : State) : Prop :=
  s.lines = replayLines (Lines.constructed s.cfg.n) s.trace

/-- The trace is in time order and no event starts after `now` (10_state R26, R27). -/
def State.TraceIsTimed (s : State) : Prop := timed 0 s.trace ∧ ∀ ev ∈ s.trace, ev.t ≤ s.now

/-- No hazard of R122 to R125 has occurred since construction (R137). -/
def State.HazardFree (s : State) : Prop := ∀ x ∈ s.seen, hazardFreeEvent s.cfg x = true

/-- A unit that leaves the display nothing to draw: certainly latched, with `RS` and every data line known. -/
def LatchedUnit.definite (u : LatchedUnit) : Bool :=
  u.certain && u.rs.known.isSome && u.data.all fun b => b.known.isSome

/-- What a latched unit carries, without its time. -/
def LatchedUnit.content (u : LatchedUnit) : Bool × BusLevel × List BusLevel := (u.certain, u.rs, u.data)

/-- The data lines of a unit of value `v` on `n` driven lines (30_encoding R54, R55). -/
def unitOnBus (v : Byte) (n : Nat) : List BusLevel := (bitLevels v n).map BusLevel.ofLevel

/-- The samples of a list of events, in order, each with its line (20_memory R39). -/
def samplesOf (evs : List Event) : List (Line × Level) :=
  evs.filterMap fun ev => match ev.kind with
    | .sample l lvl => some (l, lvl)
    | _ => none

/-- The samples up to the next `Drive(E, Low)`. -/
def samplesToFall : List Event → List (Line × Level)
  | [] => []
  | ev :: evs => match ev.kind with
    | .drive .e .low => []
    | .sample l lvl => (l, lvl) :: samplesToFall evs
    | _ => samplesToFall evs

/-- The samples of each read cycle, which runs from a `Drive(E, High)` to the next `Drive(E, Low)`
(20_memory R44). -/
def cycleSamples : List Event → List (List (Line × Level))
  | [] => []
  | ev :: evs => match ev.kind with
    | .drive .e .high => samplesToFall evs :: cycleSamples evs
    | _ => cycleSamples evs

/-- The values and widths of the taps of a list of events, in order (60_exceptions R109). -/
def tapsOf (evs : List Event) : List (Byte × Nat) :=
  evs.filterMap fun ev => match ev.kind with
    | .tap v w => some (v, w)
    | _ => none

/-- The taps of a request, the table of 40_bus_transport R80. -/
def tapTable (c : Cfg) : Instr → List (Byte × Nat)
  | .setmode _ => []
  | .write p => match c.width, c.tapScope with
    | .four, _ => p.flatMap fun v : Byte => [(v >>> 4, 4), (v &&& 0x0F#8, 4)]
    | .eight, .reference => []
    | .eight, .all => p.map fun v : Byte => (v, 8)
  | .wrnib p => match c.width, c.tapScope with
    | .four, .all => p.map fun v : Byte => (v &&& 0x0F#8, 4)
    | .four, .reference => []
    | .eight, _ => []
  | .read _ => []

/-- The drives of PUT(v, n) (42_transcoding R89). -/
def putCalls (v : Byte) (n : Nat) : List EventKind :=
  (List.range n).map fun i => .drive (.d i) (if v.getLsbD i = true then .high else .low)

/-- The calls of PULSE, without elapsed times (41_enable_sequencer R83). -/
def pulseCalls (c : Cfg) : List EventKind :=
  [.drive .e .low, .sleep c.tEl c.tEl, .drive .e .high, .sleep c.tEh c.tEh, .drive .e .low,
   .sleep c.tSettle c.tSettle]

/-- A read-path hold, issued only when its time is positive (40_bus_transport R76, R77). -/
def holdCalls (t : Nat) : List EventKind := if t = 0 then [] else [.sleep t t]

/-- The calls of one read cycle on `n` lines, without elapsed times and sampled levels (R76, R77). -/
def readCycleCalls (c : Cfg) (n : Nat) : List EventKind :=
  .drive .e .high :: holdCalls c.tRdEh ++ (List.range n).map (fun i => .sample (.d i) .low) ++
    .drive .e .low :: holdCalls c.tRdEl

/-- The events of a list without the taps, and without elapsed times and sampled levels. -/
def callShapes (evs : List Event) : List EventKind :=
  (evs.filter fun ev => !ev.kind.isTap).map fun ev => ev.kind.shape

/-- Every data line is an output. -/
def State.DataOut (s : State) : Prop := ∀ l ∈ s.lines.data, l.dir = .output

/-- Every data line is an input. -/
def State.DataIn (s : State) : Prop := ∀ l ∈ s.lines.data, l.dir = .input

/-- A transport that can take a request: constructible, with its lines, and idle (70_reset_and_hazards R118,
40_bus_transport R71). -/
structure State.Ready (s : State) : Prop where
  cfgWf : s.cfg.wf = true
  linesWf : s.lines.wf s.cfg.n = true
  idle : s.seq = .idle

/-- 40_bus_transport R82: the seven counts of a list of events, the last the number of `Drive(E, High)`,
one for each enable pulse or read cycle. -/
def eventCounts (evs : List Event) : List Nat :=
  [countKind EventKind.drivesData evs, countKind EventKind.drivesEnable evs,
   countKind EventKind.drivesSelect evs, countKind EventKind.isSleep evs,
   countKind EventKind.isSample evs, countKind EventKind.isCfgIn evs,
   countKind (fun k => k = .drive .e .high) evs]

/-- 70_reset_and_hazards R135: the minimum duration of a request. -/
def minDuration (c : Cfg) : Instr → Nat
  | .setmode _ => 0
  | .write p => match c.width with
    | .eight => p.length * (c.tEl + c.tEh + c.tSettle)
    | .four => 2 * p.length * (c.tEl + c.tEh + c.tSettle)
  | .wrnib p => match c.width with
    | .eight => 0
    | .four => (p.length + 1) * (c.tEl + c.tEh + c.tSettle)
  | .read n => match c.width with
    | .eight => n * (c.tRdEh + c.tRdEl)
    | .four => 2 * n * (c.tRdEh + c.tRdEl)

end Sys2Proof.Machine
end

