-- ==== Sys2Proof/Certificates/Slice0/Obligations.lean ====
section
/-! DEFINITION. The statements for the provers. Each docstring names the rule of spec/ it formalises; a
statement that reads the model's own fields (port, environment) or a log entry's choice says so. -/

open Sys2Proof Sys2Proof.Machine

/-! ### Encoding -/

/-- 30_encoding R64, 95_test_vectors 2.1: words written out from the spec's encoding decode to the requests
they stand for, or are refused for the reason the table gives. That a payload byte stands in the bits above
the descriptor of a numbered word is the model's choice (log 17), and so is the configuration under which
`decodeTableWord` reads one, that of `State.reset` with `W = Four` (log 1). -/
def Obligations.DecodesTheSpecWords : Prop :=
  decodeTableWord 32 0x20000000 = some (.setmode true) ∧
  decodeTableWord 32 0x00000000 = some (.setmode false) ∧
  decodeTableWord 56 0x073C_A540000003 = some (.write [0xA5#8, 0x3C#8, 0x07#8]) ∧
  decodeTableWord 40 0x03_80000001 = some (.wrnib [0x03#8]) ∧
  decodeTableWord 32 0xC0000010 = some (.read 16) ∧
  decodeWords (Cfg.default .eight) 0x80000001#32 [0x07#8] = .error .wrnibEightMode ∧
  decodeWords (Cfg.default .four) 0xE0000000#32 [] = .error .reservedC

/-- 30_encoding R58 to R64: decoding an encoded well-formed request gives it back, with every operand at
every value the descriptor admits, under every configuration (the place of a `LEN` of another width than 24
is the model's choice, log 3). -/
def Obligations.EncodeThenDecode : Prop :=
  ∀ (c : Cfg) (i : Instr), i.wf c = true →
    ∃ h : (encode c i).2.length = payloadLen c.lenWidth (encode c i).1,
      decodeRequest c ⟨c.lenWidth, (encode c i).1, (encode c i).2, h⟩ = .ok i

/-- 30_encoding R58 to R65: each accepted delivery has one meaning and is the only encoding of it (for a
`LEN` of another width than 24, log 3). -/
def Obligations.DecodeThenEncode : Prop :=
  ∀ (c : Cfg) (r : Request) (i : Instr), r.framed c = true → decodeRequest c r = .ok i →
    i.wf c = true ∧ encode c i = (r.desc, r.payload)

/-- `opcode_table.json` against R64: under width Four and the spec's `LEN_BITS = 24` a word is accepted exactly
when it matches one row of the table, and then it is that row's request. -/
def Obligations.AcceptedWordsMatchOneTableRow : Prop :=
  ∀ (c : Cfg) (r : Request), c.width = .four → c.lenBits = 24 →
    ((opcodeRows.filter fun row => row.holds r.desc).map fun row => row.mnemonic) =
      match decodeRequest c r with
      | .ok i => [mnemonic i]
      | .error _ => []

/-- 30_encoding R65, 60_exceptions R101, R102, in single descriptor bits: which words are refused, for which
reason, the first failing check naming it. `LEN` is the low `c.lenWidth` bits, 24 of them where
`LEN_BITS = 24`; where another width puts the reserved bits is the model's choice (log 3). -/
def Obligations.RefusalNamesTheFirstFailingCheck : Prop :=
  (∀ c : Cfg, c.lenBits = 24 → c.lenWidth = 24) ∧
  ∀ (c : Cfg) (r : Request) (reason : RefuseReason), decodeRequest c r = .error reason ↔
    match reason with
    | .reservedBits => ∃ k, c.lenWidth ≤ k ∧ k ≤ 28 ∧ r.desc.getLsbD k = true
    | .setModeLength =>
      (∀ k, c.lenWidth ≤ k → k ≤ 28 → r.desc.getLsbD k = false) ∧
      r.desc.getLsbD 31 = false ∧ r.desc.getLsbD 30 = false ∧
      ∃ k, k < c.lenWidth ∧ r.desc.getLsbD k = true
    | .reservedC =>
      (∀ k, c.lenWidth ≤ k → k ≤ 28 → r.desc.getLsbD k = false) ∧
      (r.desc.getLsbD 31 = true ∨ r.desc.getLsbD 30 = true) ∧ r.desc.getLsbD 29 = true
    | .wrnibEightMode =>
      (∀ k, c.lenWidth ≤ k → k ≤ 28 → r.desc.getLsbD k = false) ∧ r.desc.getLsbD 29 = false ∧
      r.desc.getLsbD 31 = true ∧ r.desc.getLsbD 30 = false ∧ c.width = .eight

/-- 30_encoding R63: a sequence of any length is sent by WRITE requests that all fit `LEN` and carry its
bytes in order (where they are cut is the model's choice, log 14; a `LEN` of no bits counts nothing). -/
def Obligations.SplitWritesCarryTheSequence : Prop :=
  ∀ (c : Cfg) (p : List Byte), 0 < c.lenBits →
    (splitWrite c p).flatMap encodePayload = p ∧ ∀ i ∈ splitWrite c p, i.wf c = true

/-! ### Construction and the step -/

/-- 00_scope R7: which configurations have a transport. -/
def Obligations.ConstructionNeedsTheConstraints : Prop :=
  ∀ c : Cfg, (∃ s, State.construct c = some s) ↔
    (c.width = .four → c.n = 4) ∧ (c.width = .eight → c.n = 8) ∧ 450 < c.tEh ∧ 37000 < c.tSettle ∧
      c.rwReadLevel ≠ c.rwWriteLevel ∧ (c.data ++ [c.e, c.rs, c.rw]).Nodup

/-- 10_state R32, 70_reset_and_hazards R117: the state at construction, every entry of the rule's table. -/
def Obligations.ConstructionGivesTheResetValues : Prop :=
  ∀ (c : Cfg) (s : State), State.construct c = some s →
    s.cfg = c ∧ s.lines.data.length = c.n ∧ (∀ l ∈ s.lines.data, l = ⟨.output, none⟩) ∧
    s.lines.e = ⟨.output, some .low⟩ ∧ s.lines.rs = ⟨.output, none⟩ ∧ s.lines.rw = ⟨.output, none⟩ ∧
    s.rsMode = .unset ∧ s.dir = .output ∧ s.seq = .idle ∧ s.result = ⟨0, .ok, []⟩ ∧ s.now = 0 ∧
    s.trace = [] ∧ sv s = (match c.width with | .four => 0x00#8 | .eight => 0x01#8)

/-- 40_bus_transport R71: with a request that decodes at the head of the port, an idle transport's step is
`exec` of it on the state from which the delivery has been taken (the port is the model's, log 4). -/
def Obligations.StepRunsTheDecodedRequest : Prop :=
  ∀ (s : State) (r : Request) (rest : List Delivery) (i : Instr), s.seq = .idle →
    s.port = .request r :: rest → r.framed s.cfg = true → decodeRequest s.cfg r = .ok i →
    step s = exec i (s.withPort rest)

/-- 30_encoding R65, first sentence, on the next delivery of an idle transport: whatever descriptor of the
rule's table it has, `Begin` and `End(0, REFUSED)` are issued with the reason, and nothing else changes (the
port is the model's, log 4, and so is the place of `RSV` for another `LEN_BITS` than 24, log 3). -/
def Obligations.StepRefusesByName : Prop :=
  ∀ (s : State) (r : Request) (rest : List Delivery), s.seq = .idle → s.port = .request r :: rest →
    r.framed s.cfg = true →
    ((rsvField s.cfg r.desc ≠ 0) ∨ (opField r.desc = 0b00#2 ∧ lenField s.cfg r.desc ≠ 0) ∨
      (opField r.desc ≠ 0b00#2 ∧ cField r.desc = true) ∨
      (opField r.desc = 0b10#2 ∧ s.cfg.width = .eight)) →
    ∃ reason, step s = .next { s with
        port := rest
        result := ⟨0, .refused reason, []⟩
        trace := s.trace ++ [⟨s.now, .beginReq r.desc⟩, ⟨s.now, .endReq 0 (.refused reason)⟩] } ∧
      reason = (if rsvField s.cfg r.desc ≠ 0 then .reservedBits
        else if opField r.desc = 0b00#2 then .setModeLength
        else if cField r.desc = true then .reservedC
        else .wrnibEightMode)

/-- 70_reset_and_hazards R121, 30_encoding R58: an idle transport waits while nothing was delivered, or only
what is framed by another width of `LEN` (the port and the idle step are the model's, log 4). -/
def Obligations.StepWaitsForADelivery : Prop :=
  ∀ s : State, s.seq = .idle →
    (s.port = [] ∨ ∃ r rest, s.port = .request r :: rest ∧ r.framed s.cfg = false) → step s = .next s

/-- 20_memory R41, 70_reset_and_hazards R136, R137: nothing stops the machine and every request ends. That a
step ends with no request executing is the model's choice: a request is one transition (log 9), a busy
transport's step runs to the end (log 8), and an idle one with nothing delivered stays as it is (log 4). -/
def Obligations.EveryStepCompletesAndLeavesIdle : Prop :=
  ∀ s : State, ∃ t, step s = .next t ∧ t.seq = .idle

/-- 10_state R23, 40_bus_transport R71: running a request as one transition is running its statements one at
a time and then ending it; in between the sequencer is busy with it, at each position in turn. What counts
as one statement, and so the numbering of `pos`, is the model's choice (log 9). -/
def Obligations.RequestIsItsStatementsOneByOne : Prop :=
  ∀ (s : State) (i : Instr), s.seq = .idle → i.wf s.cfg = true →
    exec i s = .next (statementSteps ((stmtsOf s.cfg i).length + 1) (s.accept i)) ∧
    ∀ k ≤ (stmtsOf s.cfg i).length,
      ∃ a, (statementSteps k (s.accept i)).seq = .busy a ∧ a.req = i ∧ a.pos = k

/-- 10_state R23, 40_bus_transport R71: a busy transport's step runs what is left of its request and takes
nothing from the port (log 8). -/
def Obligations.BusyTransportFinishesItsRequest : Prop :=
  ∀ (s : State) (a : Active), s.seq = .busy a →
    ∃ t, step s = .next t ∧ t.port = s.port ∧ t.seq = .idle ∧
      t = statementSteps ((stmtsOf s.cfg a.req).length - a.pos + 1) s

/-- 70_reset_and_hazards R141, the whole move: what `RESTORE_OUT` between two requests changes, and that it
changes nothing else. -/
def Obligations.RestoreOutMakesTheDataLinesOutputs : Prop :=
  ∀ (s : State) (rest : List Delivery), s.Ready → s.port = .restoreOut :: rest →
    ∃ t evs, step s = .next t ∧ t.trace = s.trace ++ evs ∧
      evs.map (fun ev => ev.kind) = (List.range s.cfg.n).map (fun i => .cfgOut (.d i)) ∧
      t.lines = { s.lines with data := s.lines.data.map fun l => { l with dir := .output } } ∧
      (∀ i < s.cfg.n, bus s.cfg t.lines (.d i) = .ofLat (s.lines.get (.d i)).lat) ∧
      t.dir = .output ∧ t.rsMode = s.rsMode ∧ t.result = s.result ∧ t.cfg = s.cfg ∧ t.seq = .idle ∧
      t.port = rest ∧ s.now ≤ t.now

/-! ### The internal operations -/

/-- 42_transcoding R89: PUT drives the first `n` data lines, ascending, to the bits of the value; every
other line, every direction, the modes and the answer are as they were. -/
def Obligations.PutDrivesTheBitsInOrder : Prop :=
  ∀ (s : State) (v : Byte) (n : Nat), n ≤ s.lines.data.length →
    ∃ evs, (runStmts s (put v n)).trace = s.trace ++ evs ∧
      evs.map (fun ev => ev.kind) = (List.range n).map (fun i =>
        .drive (.d i) (if v.getLsbD i = true then .high else .low)) ∧
      (∀ i < n, (runStmts s (put v n)).lines.get (.d i) =
        ⟨(s.lines.get (.d i)).dir, some (if v.getLsbD i = true then .high else .low)⟩) ∧
      (∀ l, (∀ i < n, l ≠ .d i) → (runStmts s (put v n)).lines.get l = s.lines.get l) ∧
      (runStmts s (put v n)).rsMode = s.rsMode ∧ (runStmts s (put v n)).dir = s.dir ∧
      (runStmts s (put v n)).result = s.result ∧ (runStmts s (put v n)).cfg = s.cfg ∧
      s.now ≤ (runStmts s (put v n)).now

/-- 42_transcoding R90: GET samples the first `n` data lines, ascending, each once, into a value whose bit
`i` says whether line `i` read high; no line changes. -/
def Obligations.GetGathersTheSampledLevels : Prop :=
  ∀ (s : State) (a : Active) (n : Nat), n ≤ 8 → s.seq = .busy a →
    ∃ (levels : List Level) (evs : List Event) (b : Active),
      levels.length = n ∧ (runStmts s (get n)).trace = s.trace ++ evs ∧
      evs.map (fun ev => ev.kind) =
        (List.range n).zipWith (fun i lvl => .sample (.d i) lvl) levels ∧
      (runStmts s (get n)).seq = .busy b ∧
      (∀ i, b.acc.getLsbD i = true ↔ levels[i]? = some .high) ∧ b.hi = a.hi ∧ b.rbuf = a.rbuf ∧
      (runStmts s (get n)).lines = s.lines ∧ (runStmts s (get n)).rsMode = s.rsMode ∧
      (runStmts s (get n)).dir = s.dir

/-- 41_enable_sequencer R83, R84, R86: PULSE issues its six calls with the three holds between them, leaves
`E` low, and touches no other line and no mode. -/
def Obligations.PulseIsOneTimedStrobe : Prop :=
  ∀ s : State, s.cfg.wf = true → ∃ t0 t1 tRise t3 tFall t5 x1 x2 x3 : Nat,
    (runStmts s (pulse s.cfg)).trace = s.trace ++
      [⟨t0, .drive .e .low⟩, ⟨t1, .sleep s.cfg.tEl x1⟩, ⟨tRise, .drive .e .high⟩,
       ⟨t3, .sleep s.cfg.tEh x2⟩, ⟨tFall, .drive .e .low⟩, ⟨t5, .sleep s.cfg.tSettle x3⟩] ∧
    t0 = s.now ∧ t0 ≤ t1 ∧ tRise ≤ t3 ∧ tFall ≤ t5 ∧
    s.cfg.tEl ≤ x1 ∧ s.cfg.tEh ≤ x2 ∧ s.cfg.tSettle ≤ x3 ∧
    t0 + s.cfg.tEl ≤ tRise ∧ tRise + s.cfg.tEh ≤ tFall ∧ tRise + 450 < tFall ∧
    tFall + s.cfg.tSettle ≤ (runStmts s (pulse s.cfg)).now ∧
    tFall + 37000 < (runStmts s (pulse s.cfg)).now ∧
    (runStmts s (pulse s.cfg)).lines = { s.lines with e := ⟨s.lines.e.dir, some .low⟩ } ∧
    (runStmts s (pulse s.cfg)).rsMode = s.rsMode ∧ (runStmts s (pulse s.cfg)).dir = s.dir ∧
    (runStmts s (pulse s.cfg)).result = s.result ∧ (runStmts s (pulse s.cfg)).cfg = s.cfg

/-- 41_enable_sequencer R85: one PULSE takes at least the three holds, 102000 ns with the defaults, and has
no upper bound (for every bound some draws of elapsed time exceed it). -/
def Obligations.PulseTakesAtLeastItsHolds : Prop :=
  (∀ s : State,
    s.now + (s.cfg.tEl + s.cfg.tEh + s.cfg.tSettle) ≤ (runStmts s (pulse s.cfg)).now) ∧
  (∀ (s : State) (w : LineWidth), s.cfg = Cfg.default w →
    s.now + 102000 ≤ (runStmts s (pulse s.cfg)).now) ∧
  (∀ (s : State) (bound : Nat), ∃ delays : List Nat,
    bound < (runStmts { s with env := { s.env with delays := delays } } (pulse s.cfg)).now)

/-! ### SETMODE -/

/-- 40_bus_transport R72, the whole next state: SETMODE drives `RS`, low for command mode and high for data
mode, sets `RSMODE`, answers `(0, OK, [])`, and changes nothing else; one draw of elapsed time is consumed. -/
def Obligations.SetmodeDrivesRegisterSelect : Prop :=
  ∀ (s : State) (isCommand : Bool), s.seq = .idle →
    ∃ d : Nat, exec (.setmode isCommand) s = .next { s with
      lines := { s.lines with
        rs := ⟨s.lines.rs.dir, some (if isCommand = true then .low else .high)⟩ }
      rsMode := if isCommand = true then .command else .data
      result := ⟨0, .ok, []⟩
      now := s.now + d
      trace := s.trace ++
        [⟨s.now, .beginReq (if isCommand = true then 0x20000000#32 else 0x00000000#32)⟩,
         ⟨s.now, .drive .rs (if isCommand = true then .low else .high)⟩,
         ⟨s.now + d, .endReq 0 .ok⟩]
      env := s.env.afterDelay }

/-! ### WRITE -/

/-- 40_bus_transport R73, 10_state R31: what WRITE leaves, and its frame: `RW` at the write level, `E` low
and the data latches at the last unit when anything was sent, and every other line, the mode, the
direction, the configuration and the port as they were. -/
def Obligations.WriteEndState : Prop :=
  ∀ (s : State) (p : List Byte), s.Ready →
    ∃ t, exec (.write p) s = .next t ∧
      t.lines.rw = ⟨s.lines.rw.dir, some s.cfg.rwWriteLevel⟩ ∧ t.lines.rs = s.lines.rs ∧
      t.lines.e = (if p = [] then s.lines.e else ⟨s.lines.e.dir, some .low⟩) ∧
      t.lines.data.length = s.lines.data.length ∧
      (∀ i < s.cfg.n, t.lines.get (.d i) =
        match (p.flatMap (units s.cfg.width)).getLast? with
        | none => s.lines.get (.d i)
        | some u => ⟨(s.lines.get (.d i)).dir, some (if u.getLsbD i = true then .high else .low)⟩) ∧
      t.rsMode = s.rsMode ∧ t.dir = s.dir ∧ t.cfg = s.cfg ∧ t.seq = .idle ∧ t.port = s.port ∧
      t.result = ⟨p.length, .ok, []⟩ ∧ s.now ≤ t.now

/-- 42_transcoding R93, 30_encoding R54, R55, 20_memory R43: with the data lines outputs and `E` low, the
display latches exactly the units of the bytes, in order, high nibble first in Four mode, each in a write
cycle under the `RS` level of the time. -/
def Obligations.WriteLatchesEveryUnit : Prop :=
  ∀ (s : State) (p : List Byte), s.Ready → s.DataOut → s.lines.e.lat = some .low →
    ∃ t evs, exec (.write p) s = .next t ∧ t.trace = s.trace ++ evs ∧
      (latchedFrom s.cfg s.lines evs).map LatchedUnit.content =
        (p.flatMap (units s.cfg.width)).map fun u =>
          (true, bus s.cfg s.lines .rs, unitOnBus u s.cfg.n)

/-- 70_reset_and_hazards R122: a WRITE or a WRNIB whose data lines are inputs completes all the same. Under
`Undriven` every unit latched during it has undriven data, whatever `RW` is; with `RW` at the write level the
latched units are, under `Undriven`, one of undriven data per pulse, and under `Drives` the units sent. -/
def Obligations.WriteAfterReadLatchesUndrivenData : Prop :=
  ∀ (s : State) (p : List Byte), s.Ready → s.DataIn → s.lines.e.lat = some .low →
    (∃ t evs, exec (.write p) s = .next t ∧ t.trace = s.trace ++ evs ∧
      t.result = ⟨p.length, .ok, []⟩ ∧ t.DataIn ∧
      (latchedFrom s.cfg s.lines evs).map LatchedUnit.content =
        (p.flatMap (units s.cfg.width)).map fun u => (true, bus s.cfg s.lines .rs,
          match s.cfg.inputDriveEffect with
          | .undriven => List.replicate s.cfg.n .notDriven
          | .drives => unitOnBus u s.cfg.n)) ∧
    (s.cfg.width = .four →
      ∃ t evs, exec (.wrnib p) s = .next t ∧ t.trace = s.trace ++ evs ∧
        t.result = ⟨p.length, .ok, []⟩ ∧ t.DataIn ∧
        (s.cfg.inputDriveEffect = .undriven → ∀ u ∈ latchedFrom s.cfg s.lines evs,
          u.data = List.replicate s.cfg.n .notDriven) ∧
        (s.cfg.wnDrivesRw = true ∨ s.lines.rw.lat = some s.cfg.rwWriteLevel →
          (latchedFrom s.cfg s.lines evs).map LatchedUnit.content =
            (match s.cfg.inputDriveEffect with
              | .undriven => List.replicate (p.length + 1) (List.replicate s.cfg.n BusLevel.notDriven)
              | .drives => (p.map fun v => unitOnBus v 4) ++
                [match p.getLast? with
                  | some v => unitOnBus v 4
                  | none => busData s.cfg s.lines]).map
              fun d => (true, bus s.cfg s.lines .rs, d)))

/-- 70_reset_and_hazards R124: with `E` high before it, a WRITE or WRNIB of some bytes drives its first data lines
while `E` is high, and its first pulse makes one falling edge more than it has without that (as the one pulse
of an empty WRNIB does), a latch event where `RW` is at the write level; a READ makes one rise less than it
has cycles. -/
def Obligations.EnableHighAddsALatchEvent : Prop :=
  ∀ s : State, s.Ready → s.lines.e.lat = some .high →
    (∀ p : List Byte, p ≠ [] → ∃ t evs, exec (.write p) s = .next t ∧ t.trace = s.trace ++ evs ∧
      (latchedFrom s.cfg s.lines evs).length = (p.flatMap (units s.cfg.width)).length + 1 ∧
      (seenFrom s.lines none evs).any drivesWhileEnabled = true) ∧
    (s.cfg.width = .four → ∀ p : List Byte, ∃ t evs, exec (.wrnib p) s = .next t ∧
      t.trace = s.trace ++ evs ∧
      (seenFrom s.lines none evs).countP (fun x => x.isFall) = p.length + 2 ∧
      (s.cfg.wnDrivesRw = true ∨ s.lines.rw.lat = some s.cfg.rwWriteLevel →
        (latchedFrom s.cfg s.lines evs).length = p.length + 2) ∧
      (p ≠ [] → (seenFrom s.lines none evs).any drivesWhileEnabled = true)) ∧
    (∀ n : Nat, 0 < n → ∃ t evs, exec (.read n) s = .next t ∧ t.trace = s.trace ++ evs ∧
      (seenFrom s.lines none evs).countP (fun x => x.isRise) + 1 =
        countKind (fun k => k = .drive .e .high) evs)

/-! ### WRNIB -/

/-- 40_bus_transport R74, 10_state R31: what WRNIB leaves in Four mode, and its frame. -/
def Obligations.WrnibEndState : Prop :=
  ∀ (s : State) (p : List Byte), s.Ready → s.cfg.width = .four →
    ∃ t, exec (.wrnib p) s = .next t ∧
      t.lines.rw = (if s.cfg.wnDrivesRw = true then ⟨s.lines.rw.dir, some s.cfg.rwWriteLevel⟩
        else s.lines.rw) ∧
      t.lines.rs = s.lines.rs ∧ t.lines.e = ⟨s.lines.e.dir, some .low⟩ ∧
      t.lines.data.length = s.lines.data.length ∧
      (∀ i < s.cfg.n, t.lines.get (.d i) =
        match p.getLast? with
        | none => s.lines.get (.d i)
        | some v => ⟨(s.lines.get (.d i)).dir, some (if v.getLsbD i = true then .high else .low)⟩) ∧
      t.rsMode = s.rsMode ∧ t.dir = s.dir ∧ t.cfg = s.cfg ∧ t.seq = .idle ∧ t.port = s.port ∧
      t.result = ⟨p.length, .ok, []⟩ ∧ s.now ≤ t.now

/-- 70_reset_and_hazards R134, 30_encoding R56: with `RW` at the write level WRNIB latches the low nibble of
each element and then the data latches once more. -/
def Obligations.WrnibLatchesTheLastNibbleTwice : Prop :=
  ∀ (s : State) (p : List Byte), s.Ready → s.cfg.width = .four → s.DataOut →
    s.lines.e.lat = some .low →
    (s.cfg.wnDrivesRw = true ∨ s.lines.rw.lat = some s.cfg.rwWriteLevel) →
    ∃ t evs, exec (.wrnib p) s = .next t ∧ t.trace = s.trace ++ evs ∧
      (latchedFrom s.cfg s.lines evs).map LatchedUnit.content =
        ((p.map fun v => unitOnBus v 4) ++
          [match p.getLast? with
            | some v => unitOnBus v 4
            | none => busData s.cfg s.lines]).map
          fun d => (true, bus s.cfg s.lines .rs, d)

/-- 70_reset_and_hazards R123: without a drive of `RW` of its own, WRNIB after a READ latches nothing and
makes one read cycle per pulse; before any drive of `RW` every pulse's cycle type is a draw. -/
def Obligations.WrnibWithoutWriteLevel : Prop :=
  ∀ (s : State) (p : List Byte), s.Ready → s.cfg.width = .four → s.cfg.wnDrivesRw = false →
    s.lines.e.lat = some .low →
    ∃ t evs, exec (.wrnib p) s = .next t ∧ t.trace = s.trace ++ evs ∧
      (s.lines.rw.lat = some s.cfg.rwReadLevel →
        latchedFrom s.cfg s.lines evs = [] ∧
        (seenFrom s.lines none evs).countP (fun x => x.startsReadCycle s.cfg) = p.length + 1) ∧
      (s.lines.rw.lat = none →
        (latchedFrom s.cfg s.lines evs).map (fun u => u.certain) =
          List.replicate (p.length + 1) false)

/-- 30_encoding R65, 40_bus_transport R74: in Eight mode WRNIB is refused by name and changes nothing else. -/
def Obligations.WrnibInEightModeIsRefused : Prop :=
  ∀ (s : State) (p : List Byte), s.seq = .idle → s.cfg.width = .eight →
    exec (.wrnib p) s = .next { s with
      result := ⟨0, .refused .wrnibEightMode, []⟩
      trace := s.trace ++ [⟨s.now, .beginReq (encodeDesc s.cfg (.wrnib p))⟩,
        ⟨s.now, .endReq 0 (.refused .wrnibEightMode)⟩] }

/-- 30_encoding R63, 40_bus_transport R74: sending a sequence in two WRNIB requests makes one enable pulse
more than sending it in one. -/
def Obligations.SplitWrnibAddsAPulse : Prop :=
  ∀ (s : State) (p q : List Byte), s.Ready → s.cfg.width = .four →
    ∃ t u v e1 e2 e3, exec (.wrnib (p ++ q)) s = .next t ∧ t.trace = s.trace ++ e1 ∧
      exec (.wrnib p) s = .next u ∧ u.trace = s.trace ++ e2 ∧
      exec (.wrnib q) u = .next v ∧ v.trace = u.trace ++ e3 ∧
      countKind (fun k => k = .drive .e .high) e2 + countKind (fun k => k = .drive .e .high) e3 =
        countKind (fun k => k = .drive .e .high) e1 + 1

/-! ### READ -/

/-- 40_bus_transport R75, 10_state R31: what READ of a positive length leaves, and its frame: `RW` at the
read level, every data line an input with its latch kept, `DIR` Input, `E` low; `RS`, the mode, the
configuration and the port as they were. -/
def Obligations.ReadEndState : Prop :=
  ∀ (s : State) (n : Nat), s.Ready → 0 < n →
    ∃ t, exec (.read n) s = .next t ∧
      t.lines.rw = ⟨s.lines.rw.dir, some s.cfg.rwReadLevel⟩ ∧ t.lines.rs = s.lines.rs ∧
      t.lines.e = ⟨s.lines.e.dir, some .low⟩ ∧
      t.lines.data = s.lines.data.map (fun l => ⟨.input, l.lat⟩) ∧
      t.rsMode = s.rsMode ∧ t.dir = .input ∧ t.cfg = s.cfg ∧ t.seq = .idle ∧ t.port = s.port ∧
      t.result.count = n ∧ t.result.status = .ok ∧ t.result.rbuf.length = n ∧ s.now ≤ t.now

/-- 30_encoding R57, 40_bus_transport R76, R77, 42_transcoding R90, R92: READ samples only inside its read
cycles, in each of them `D[0]` to `D[N-1]` once and in that order; every byte is assembled from the levels
sampled for it: bit `i` from `D[i]` of its one cycle in Eight mode; in Four mode the first of its two cycles
gives bits 7–4 and the second bits 3–0. -/
def Obligations.ReadAssemblesTheSampledLevels : Prop :=
  ∀ (s : State) (n : Nat), s.Ready → 0 < n →
    ∃ t evs, exec (.read n) s = .next t ∧ t.trace = s.trace ++ evs ∧
      samplesOf evs = (cycleSamples evs).flatten ∧
      (cycleSamples evs).length = (match s.cfg.width with | .eight => n | .four => 2 * n) ∧
      (∀ cycle ∈ cycleSamples evs, cycle.map Prod.fst = (List.range s.cfg.n).map .d) ∧
      t.result.rbuf.length = n ∧
      ∀ k < n, ∀ i < 8, ∃ v, t.result.rbuf[k]? = some v ∧
        (v.getLsbD i = true ↔ match s.cfg.width with
          | .eight => (cycleSamples evs)[k]?.bind (fun cycle => cycle[i]?) = some (.d i, .high)
          | .four => (cycleSamples evs)[if 4 ≤ i then 2 * k else 2 * k + 1]?.bind
              (fun cycle => cycle[i % 4]?) = some (.d (i % 4), .high))

/-- 60_exceptions R98: READ of length 0 raises `INVALID_ARGUMENT` before any capability call, with only
`Begin` and `End` in the trace and no other effect, and nothing else raises it. -/
def Obligations.ReadZeroRaisesInvalidArgument : Prop :=
  (∀ s : State, s.seq = .idle → exec (.read 0) s = .next { s with
    result := ⟨0, .invalidArgument, []⟩
    trace := s.trace ++ [⟨s.now, .beginReq 0xC0000000#32⟩, ⟨s.now, .endReq 0 .invalidArgument⟩] }) ∧
  (∀ (s t : State) (i : Instr), s.seq = .idle → exec i s = .next t →
    t.result.status = .invalidArgument → i = .read 0) ∧
  (∀ (s t : State), s.seq = .idle → step s = .next t → t.result.status = .invalidArgument →
    (∃ rest, fetch s = .run (.read 0) rest) ∨ t.result = s.result)

/-- 70_reset_and_hazards R139: READ ends with a reconfiguration that changes no direction, no latch and no
bus level; its only effect is its `CfgIn` events and their time. -/
def Obligations.SecondReconfigurationChangesNothing : Prop :=
  ∀ (s : State) (n : Nat), s.lines.wf s.cfg.n = true →
    ∃ l, stmtsOf s.cfg (.read (n + 1)) = l ++ dataLinesIn s.cfg ∧
      ∀ u, u = runStmts (s.accept (.read (n + 1))) l →
        (runStmts u (dataLinesIn s.cfg)).lines = u.lines ∧
        (∀ line, bus s.cfg (runStmts u (dataLinesIn s.cfg)).lines line = bus s.cfg u.lines line) ∧
        (runStmts u (dataLinesIn s.cfg)).dir = u.dir ∧
        (runStmts u (dataLinesIn s.cfg)).rsMode = u.rsMode ∧
        ∃ evs, (runStmts u (dataLinesIn s.cfg)).trace = u.trace ++ evs ∧
          evs.map (fun ev => ev.kind) = (List.range s.cfg.n).map (fun i => .cfgIn (.d i))

/-- 70_reset_and_hazards R138: from a request boundary, `E` is low while READ turns the bus round, and no
enable rise of it finds a data line still an output. -/
def Obligations.ReadEntryHasNoContention : Prop :=
  ∀ (s : State) (n : Nat), s.AtBoundary → 0 < n →
    ∃ t evs, exec (.read n) s = .next t ∧ t.trace = s.trace ++ evs ∧
      ∀ x ∈ seenFrom s.lines none evs, contention s.cfg x = false ∧
        ((x.ev.kind.isCfgIn = true ∨ x.ev.kind.drivesSelect = true) → x.lines.e.lat = some .low)

/-! ### Round trips -/

/-- 42_transcoding R95: against `LatchReplay` a byte written and read back is the same byte under both
widths; against `LevelMirror` it is so in Eight mode, and Four mode returns its low nibble twice. -/
def Obligations.WriteThenReadRoundTrip : Prop :=
  ∀ (s : State) (v : Byte), s.Ready → s.DataOut → s.lines.e.lat = some .low → s.TraceExplainsLines →
    (s.env.oracle = .latchReplay → ∃ t u, exec (.write [v]) s = .next t ∧ exec (.read 1) t = .next u ∧
      u.result = ⟨1, .ok, [v]⟩) ∧
    (s.env.oracle = .levelMirror → ∃ t u, exec (.write [v]) s = .next t ∧ exec (.read 1) t = .next u ∧
      u.result = ⟨1, .ok, [match s.cfg.width with
        | .eight => v
        | .four => (v &&& 0x0F#8) * 0x11#8]⟩)

/-- 20_memory R45, 95_test_vectors RT4: against `LatchReplay` a whole sequence reads back as written. -/
def Obligations.WrittenSequenceReadsBack : Prop :=
  ∀ (s : State) (p : List Byte), s.Ready → s.DataOut → s.lines.e.lat = some .low →
    s.TraceExplainsLines → s.env.oracle = .latchReplay → p ≠ [] →
    ∃ t u, exec (.write p) s = .next t ∧ exec (.read p.length) t = .next u ∧
      u.result = ⟨p.length, .ok, p⟩

/-! ### What every request answers -/

/-- 40_bus_transport R78, 60_exceptions R99: the count and the numeric status code of every request. -/
def Obligations.CountsAndStatusCodes : Prop :=
  (∀ (s : State) (i : Instr), s.seq = .idle → ∃ t, exec i s = .next t ∧
    (t.result.count, t.result.status.code) = match i with
      | .setmode _ => (0, 0)
      | .write p => (p.length, 0)
      | .wrnib p => if s.cfg.width = .four then (p.length, 0) else (0, 2)
      | .read n => if n = 0 then (0, 1) else (n, 0)) ∧
  (∀ (s : State) (r : Request) (rest : List Delivery) (reason : RefuseReason), s.seq = .idle →
    s.port = .request r :: rest → r.framed s.cfg = true → decodeRequest s.cfg r = .error reason →
    ∃ t, step s = .next t ∧ (t.result.count, t.result.status.code) = (0, 2))

/-- 40_bus_transport R79: the events of the three empty requests and what they answer. -/
def Obligations.EmptySequences : Prop :=
  ∀ s : State, s.seq = .idle →
    (∃ t evs, exec (.write []) s = .next t ∧ t.trace = s.trace ++ evs ∧ t.result = ⟨0, .ok, []⟩ ∧
      evs.map (fun ev => ev.kind.shape) =
        [.beginReq 0x40000000#32, .drive .rw s.cfg.rwWriteLevel, .endReq 0 .ok]) ∧
    (s.cfg.width = .four →
      ∃ t evs, exec (.wrnib []) s = .next t ∧ t.trace = s.trace ++ evs ∧ t.result = ⟨0, .ok, []⟩ ∧
        evs.map (fun ev => ev.kind.shape) = .beginReq 0x80000000#32 ::
          (if s.cfg.wnDrivesRw = true then [.drive .rw s.cfg.rwWriteLevel] else []) ++
          [.drive .e .low, .sleep s.cfg.tEl s.cfg.tEl, .drive .e .high, .sleep s.cfg.tEh s.cfg.tEh,
           .drive .e .low, .sleep s.cfg.tSettle s.cfg.tSettle, .endReq 0 .ok]) ∧
    (∃ t evs, exec (.read 0) s = .next t ∧ t.trace = s.trace ++ evs ∧
      t.result = ⟨0, .invalidArgument, []⟩ ∧
      evs.map (fun ev => ev.kind) = [.beginReq 0xC0000000#32, .endReq 0 .invalidArgument])

/-- 40_bus_transport R82, R76, R77, 70_reset_and_hazards R136: how many calls of each kind every request
issues (`Begin` and `End` not counted), each read-path hold that is not 0 once per read cycle, and the total
for WRITE. -/
def Obligations.EventCountsPerRequest : Prop :=
  ∀ (s : State) (i : Instr) (holds : Nat), s.Ready →
    holds = (if s.cfg.tRdEh = 0 then 0 else 1) + (if s.cfg.tRdEl = 0 then 0 else 1) →
    ∃ t evs, exec i s = .next t ∧ t.trace = s.trace ++ evs ∧
      eventCounts evs = (match i, s.cfg.width with
        | .setmode _, _ => [0, 0, 1, 0, 0, 0, 0]
        | .write p, .eight => [8 * p.length, 3 * p.length, 1, 3 * p.length, 0, 0, p.length]
        | .write p, .four => [8 * p.length, 6 * p.length, 1, 6 * p.length, 0, 0, 2 * p.length]
        | .wrnib p, .four => [4 * p.length, 3 * (p.length + 1), if s.cfg.wnDrivesRw = true then 1 else 0,
            3 * (p.length + 1), 0, 0, p.length + 1]
        | .wrnib _, .eight => [0, 0, 0, 0, 0, 0, 0]
        | .read 0, _ => [0, 0, 0, 0, 0, 0, 0]
        | .read (n + 1), .eight =>
          [0, 2 * (n + 1), 1, holds * (n + 1), 8 * (n + 1), 16, n + 1]
        | .read (n + 1), .four =>
          [0, 4 * (n + 1), 1, holds * (2 * (n + 1)), 8 * (n + 1), 8, 2 * (n + 1)]) ∧
      ∀ p, i = .write p → countKind EventKind.isCall evs = match s.cfg.width with
        | .eight => 14 * p.length + 1
        | .four => 20 * p.length + 1

/-! ### Time -/

/-- 70_reset_and_hazards R135: every request takes at least its minimum, and some draws of elapsed time give
exactly the minimum (the reference timing of 95_test_vectors section 0). -/
def Obligations.MinimumDurations : Prop :=
  ∀ (s : State) (i : Instr), s.Ready →
    (∃ t, exec i s = .next t ∧ s.now + minDuration s.cfg i ≤ t.now) ∧
    (∃ (delays : List Nat) (t : State),
      exec i { s with env := { s.env with delays := delays } } = .next t ∧
      t.now = s.now + minDuration s.cfg i)

/-- 70_reset_and_hazards R130 to R133: on the write path every data-line drive happens while `E` is low and
is set up before the next rise and the next latch edge, every enable pulse has its widths, nothing on the
bus changes for the settle time after an edge, and `RW` is set up before the first rise. These are the
request's own events; `SetupAndHoldAcrossRequests` says what holds towards the requests around it. -/
def Obligations.WritePathSetupAndHold : Prop :=
  ∀ (s : State) (i : Instr), s.Ready → s.lines.e.lat = some .low →
    ((∃ p, i = .write p) ∨ (∃ p, i = .wrnib p)) →
    ∃ t evs, exec i s = .next t ∧ t.trace = s.trace ++ evs ∧
      dataSetup s.cfg (seenFrom s.lines none evs) ∧ pulseWidths s.cfg (seenFrom s.lines none evs) ∧
      busHold s.cfg (seenFrom s.lines none evs) ∧ selectSetup s.cfg (seenFrom s.lines none evs)

/-- 10_state R26, R27: a step only appends to the trace, time does not go back, and whoever answers the
samples stays the same (the last is the model's own field, log 5). -/
def Obligations.TraceGrowsAndTimeAdvances : Prop :=
  ∀ s t : State, step s = .next t →
    s.trace <+: t.trace ∧ s.now ≤ t.now ∧ t.env.oracle = s.env.oracle

/-! ### Invariants that every step keeps -/

/-- 70_reset_and_hazards R119: nothing reconfigures the transport: no step changes the configuration or the
number of lines. -/
def Obligations.ConfigurationIsFixed : Prop :=
  ∀ s t : State, step s = .next t →
    t.cfg = s.cfg ∧ t.lines.data.length = s.lines.data.length

/-- The three invariants hold at construction (10_state R32), and so at `State.reset`, which is a
construction; its width is the model's choice (log 1). -/
def Obligations.ConstructionMeetsTheInvariants : Prop :=
  State.construct (Cfg.default .four) = some State.reset ∧
  ∀ (c : Cfg) (s : State), State.construct c = some s →
    s.AtBoundary ∧ s.TraceExplainsLines ∧ s.TraceIsTimed

/-- 10_state R17, R18, R22, R29, 20_memory R34: what holds at one request boundary holds at the next. -/
def Obligations.StepKeepsTheBoundary : Prop :=
  ∀ s t : State, s.AtBoundary → step s = .next t → t.AtBoundary

/-- 00_scope R11, 20_memory R50: the lines are what the trace made them, and every step keeps it so. -/
def Obligations.StepKeepsTraceExplainingLines : Prop :=
  ∀ s t : State, s.TraceExplainsLines → step s = .next t → t.TraceExplainsLines

/-- 10_state R26, R27: the trace stays in time order, with no event after `now`. -/
def Obligations.StepKeepsTheTraceTimed : Prop :=
  ∀ s t : State, s.TraceIsTimed → step s = .next t → t.TraceIsTimed

/-! ### Whole-machine rules -/

/-- 10_state R19: no request but SETMODE changes `RSMODE`, and none reads it: with another mode the same
request does the same in everything else; no refusal and no move of the caller changes it either. -/
def Obligations.OnlySetmodeTouchesTheMode : Prop :=
  (∀ (s t : State) (i : Instr), s.seq = .idle → (∀ c, i ≠ .setmode c) → exec i s = .next t →
    t.rsMode = s.rsMode ∧
    ∀ m, exec i { s with rsMode := m } = .next { t with rsMode := m }) ∧
  (∀ s t : State, s.seq = .idle → step s = .next t →
    (∀ c rest, fetch s ≠ .run (.setmode c) rest) → t.rsMode = s.rsMode)

/-- 10_state R21: the transitions of `DIR`: `Input` after a READ of a positive length, `Output` after the
caller's restore, unchanged after every other request and every refused one. -/
def Obligations.DirectionTransitions : Prop :=
  (∀ (s : State) (i : Instr), s.seq = .idle → ∃ t, exec i s = .next t ∧
    t.dir = match i with
      | .setmode _ => s.dir
      | .write _ => s.dir
      | .wrnib _ => s.dir
      | .read n => if n = 0 then s.dir else .input) ∧
  (∀ (s : State) (r : Request) (rest : List Delivery) (reason : RefuseReason), s.seq = .idle →
    s.port = .request r :: rest → r.framed s.cfg = true → decodeRequest s.cfg r = .error reason →
    ∃ t, step s = .next t ∧ t.dir = s.dir) ∧
  (∀ (s : State) (rest : List Delivery), s.seq = .idle → s.port = .restoreOut :: rest →
    ∃ t, step s = .next t ∧ t.dir = .output)

/-- 60_exceptions R103: errors and refusals leave every line, `DIR`, `RSMODE` and `SEQ` as before the
request; only `RESULT`, `TRACE` and `now` differ (and the port, from which the delivery was taken). -/
def Obligations.ErrorsAndRefusalsArePrecise : Prop :=
  ∀ (s t : State) (r : Request) (rest : List Delivery), s.seq = .idle → s.port = .request r :: rest →
    step s = .next t → t.result.status ≠ .ok →
    t.lines = s.lines ∧ t.dir = s.dir ∧ t.rsMode = s.rsMode ∧ t.seq = s.seq ∧ t.cfg = s.cfg ∧
      t.env = s.env ∧
      ∃ evs, t.trace = s.trace ++ evs ∧ countKind EventKind.isCall evs = 0

/-- 10_state R24: the calls a request issues, with their lines and levels driven but without times and
sampled levels, are fixed by the configuration and the request: no oracle and no timing steers them. -/
def Obligations.SampledLevelsDoNotSteer : Prop :=
  ∀ (s s' : State) (i : Instr), s.seq = .idle → s'.seq = .idle → s.cfg = s'.cfg →
    ∃ t t' evs evs', exec i s = .next t ∧ exec i s' = .next t' ∧
      t.trace = s.trace ++ evs ∧ t'.trace = s'.trace ++ evs' ∧
      evs.map (fun ev => ev.kind.shape) = evs'.map (fun ev => ev.kind.shape)

/-- 10_state R28, 42_transcoding R96: taps are observational: under either `TAP_SCOPE` a request does the
same in every line, level, time and answer, and issues the same events but for the taps. -/
def Obligations.TapsAreObservational : Prop :=
  ∀ (s : State) (i : Instr) (scope : TapScope), s.seq = .idle →
    ∃ t u evs evs', exec i s = .next t ∧
      exec i { s with cfg := { s.cfg with tapScope := scope } } = .next u ∧
      t.trace = s.trace ++ evs ∧ u.trace = s.trace ++ evs' ∧
      evs.filter (fun ev => !ev.kind.isTap) = evs'.filter (fun ev => !ev.kind.isTap) ∧
      u.lines = t.lines ∧ u.rsMode = t.rsMode ∧ u.dir = t.dir ∧ u.result = t.result ∧ u.now = t.now ∧
      u.env = t.env

/-! ### The calls of every request in order, its taps and its samples -/

/-- 40_bus_transport R73, 42_transcoding R89, 41_enable_sequencer R83, R87: WRITE drives `RW` and then, for each
unit of its bytes in order, the data lines in ascending order and one whole pulse, its settle included. -/
def Obligations.WriteIssuesItsCallsInOrder : Prop :=
  ∀ (s : State) (p : List Byte), s.Ready →
    ∃ t evs, exec (.write p) s = .next t ∧ t.trace = s.trace ++ evs ∧
      callShapes evs = [.beginReq (encodeDesc s.cfg (.write p)), .drive .rw s.cfg.rwWriteLevel] ++
        (p.flatMap (units s.cfg.width)).flatMap (fun u => putCalls u s.cfg.n ++ pulseCalls s.cfg) ++
        [.endReq p.length .ok]

/-- 40_bus_transport R74: in Four mode WRNIB drives `RW` only when `WN_DRIVES_RW`, then for each element the
four data lines to its bits 3–0 and one pulse, and after the last one pulse more. -/
def Obligations.WrnibIssuesItsCallsInOrder : Prop :=
  ∀ (s : State) (p : List Byte), s.Ready → s.cfg.width = .four →
    ∃ t evs, exec (.wrnib p) s = .next t ∧ t.trace = s.trace ++ evs ∧
      callShapes evs = [.beginReq (encodeDesc s.cfg (.wrnib p))] ++
        (if s.cfg.wnDrivesRw = true then [.drive .rw s.cfg.rwWriteLevel] else []) ++
        p.flatMap (fun v => putCalls v 4 ++ pulseCalls s.cfg) ++ pulseCalls s.cfg ++
        [.endReq p.length .ok]

/-- 40_bus_transport R75 to R77: READ of a positive length drives `RW`, configures the data lines as inputs,
makes one read cycle per byte in Eight mode and two in Four mode, each with its holds where they are not 0,
and configures the data lines as inputs again. -/
def Obligations.ReadIssuesItsCallsInOrder : Prop :=
  ∀ (s : State) (n : Nat), s.Ready → 0 < n →
    ∃ t evs, exec (.read n) s = .next t ∧ t.trace = s.trace ++ evs ∧
      callShapes evs = [.beginReq (encodeDesc s.cfg (.read n)), .drive .rw s.cfg.rwReadLevel] ++
        (List.range s.cfg.n).map (fun i => .cfgIn (.d i)) ++
        (List.replicate (match s.cfg.width with | .eight => n | .four => 2 * n)
          (readCycleCalls s.cfg s.cfg.n)).flatten ++
        (List.range s.cfg.n).map (fun i => .cfgIn (.d i)) ++ [.endReq n .ok]

/-- 20_memory R44, 40_bus_transport R75 to R77: every `Sample` of a request is a read strobe, issued with `E`
high and `RW` at the read level, and no request but READ samples. -/
def Obligations.EverySampleIsAReadStrobe : Prop :=
  ∀ (s : State) (i : Instr), s.Ready →
    ∃ t evs, exec i s = .next t ∧ t.trace = s.trace ++ evs ∧
      (∀ x ∈ seenFrom s.lines none evs, x.isSample = true → x.isReadStrobe s.cfg = true) ∧
      ((∀ n, i ≠ .read n) → samplesOf evs = [])

/-- 40_bus_transport R80, 60_exceptions R109: under either `TAP_SCOPE` a request emits exactly the taps of the
rule's table, in order, and each tap stands directly before the PUT of its value on as many lines as its
width says, at the time of that PUT's first drive. -/
def Obligations.TapsShowTheUnitsAboutToBeDriven : Prop :=
  ∀ (s : State) (i : Instr), s.seq = .idle →
    ∃ t evs, exec i s = .next t ∧ t.trace = s.trace ++ evs ∧ tapsOf evs = tapTable s.cfg i ∧
      ∀ (a b : List Event) (ev : Event) (v : Byte) (w : Nat), evs = a ++ ev :: b → ev.kind = .tap v w →
        (b.take w).map (fun e => e.kind) = putCalls v w ∧ ∀ first ∈ b.head?, first.t = ev.t

/-- 70_reset_and_hazards R132, R133, across requests: everything issued before a WRITE or WRNIB began, the
drive of `RS` by an earlier SETMODE among it, is at least `T_EL` before its first rise; and after each of its
falls `T_SETTLE` passes before it ends and so before anything the next step issues. -/
def Obligations.SetupAndHoldAcrossRequests : Prop :=
  ∀ (s : State) (i : Instr), s.Ready → s.lines.e.lat = some .low → s.TraceIsTimed →
    ((∃ p, i = .write p) ∨ (∃ p, i = .wrnib p)) →
    ∃ t evs, exec i s = .next t ∧ t.trace = s.trace ++ evs ∧
      (∀ x ∈ seenFrom s.lines none evs, x.isRise = true → ∀ old ∈ s.trace, old.t + s.cfg.tEl ≤ x.ev.t) ∧
      ∀ x ∈ seenFrom s.lines none evs, x.isFall = true → x.ev.t + s.cfg.tSettle ≤ t.now ∧
        ∀ u later, step t = .next u → u.trace = t.trace ++ later →
          ∀ new ∈ later, x.ev.t + s.cfg.tSettle ≤ new.t
end

