-- ==== Sys2Proof/Laws/Decode.lean ====
section
/-! SUPPORT. The descriptor's fields, read back from a descriptor made of them and the other way round. -/

namespace Sys2Proof

theorem Cfg.lenWidth_le (c : Cfg) : c.lenWidth ≤ 29 := Nat.min_le_right _ _

theorem Cfg.default_lenWidth (w : LineWidth) : (Cfg.default w).lenWidth = 24 := rfl

/-- The bits of a descriptor made from its fields (30_encoding R59). -/
theorem mkDesc_bit (c : Cfg) (op : BitVec 2) (b : Bool) (n k : Nat) :
    (mkDesc c op b n).getLsbD k =
      if k < c.lenWidth then n.testBit k
      else if k < 29 then false
      else if k = 29 then b
      else op.getLsbD (k - 30) := by
  have hw := c.lenWidth_le
  simp only [mkDesc, BitVec.getLsbD_append, BitVec.getLsbD_ofNat, BitVec.getLsbD_ofBool,
    Nat.testBit_mod_two_pow]
  by_cases h2 : k < 29
  · by_cases h1 : k < c.lenWidth <;> simp [h1, h2]
  have h1 : ¬ k < c.lenWidth := by omega
  by_cases h3 : k = 29
  · subst h3; simp [h1]
  · have e2 : ¬ k - 29 < 1 := by omega
    have e3 : k - 29 - 1 = k - 30 := by omega
    rw [if_neg h2, if_neg e2, if_neg h1, if_neg h2, if_neg h3, e3]

@[simp] theorem opField_mkDesc (c : Cfg) (op : BitVec 2) (b : Bool) (n : Nat) :
    opField (mkDesc c op b n) = op := by
  have hw := c.lenWidth_le
  refine BitVec.eq_of_getLsbD_eq fun i hi => ?_
  rw [opField, BitVec.getLsbD_extractLsb', mkDesc_bit, if_neg (by omega), if_neg (by omega),
    if_neg (by omega)]
  simp [hi]

@[simp] theorem cField_mkDesc (c : Cfg) (op : BitVec 2) (b : Bool) (n : Nat) :
    cField (mkDesc c op b n) = b := by
  have hw := c.lenWidth_le
  rw [cField, mkDesc_bit, if_neg (by omega), if_neg (by omega), if_pos rfl]

@[simp] theorem rsvField_mkDesc (c : Cfg) (op : BitVec 2) (b : Bool) (n : Nat) :
    rsvField c (mkDesc c op b n) = 0 := by
  have e : (mkDesc c op b n).extractLsb' c.lenWidth (29 - c.lenWidth) = 0#(29 - c.lenWidth) := by
    refine BitVec.eq_of_getLsbD_eq fun i hi => ?_
    rw [BitVec.getLsbD_extractLsb', mkDesc_bit, if_neg (by omega), if_pos (by omega)]
    simp
  rw [rsvField, e]; rfl

theorem lenField_mkDesc (c : Cfg) (op : BitVec 2) (b : Bool) (n : Nat) (h : n < 2 ^ c.lenWidth) :
    lenField c (mkDesc c op b n) = n := by
  have e : (mkDesc c op b n).extractLsb' 0 c.lenWidth = BitVec.ofNat c.lenWidth n := by
    refine BitVec.eq_of_getLsbD_eq fun i hi => ?_
    rw [BitVec.getLsbD_extractLsb', mkDesc_bit, if_pos (by omega), BitVec.getLsbD_ofNat]
    simp
  rw [lenField, e, BitVec.toNat_ofNat]
  exact Nat.mod_eq_of_lt h

theorem lenField_lt (c : Cfg) (q : Desc) : lenField c q < 2 ^ c.lenWidth := BitVec.isLt _

/-- The payload length under a configuration's own width of `LEN` (R67). -/
theorem payloadLen_lenWidth (c : Cfg) (q : Desc) : payloadLen c.lenWidth q =
    if opField q = 0b01#2 ∨ opField q = 0b10#2 then lenField c q else 0 := rfl

/-- `RSV` is 0 exactly when each of its bits is (R62). -/
theorem rsvField_eq_zero (c : Cfg) (q : Desc) :
    rsvField c q = 0 ↔ ∀ k, c.lenWidth ≤ k → k ≤ 28 → q.getLsbD k = false := by
  constructor
  · intro h k h1 h2
    have e : q.extractLsb' c.lenWidth (29 - c.lenWidth) = 0#(29 - c.lenWidth) := BitVec.eq_of_toNat_eq h
    have := congrArg (fun x => x.getLsbD (k - c.lenWidth)) e
    simpa [BitVec.getLsbD_extractLsb', show c.lenWidth + (k - c.lenWidth) = k by omega,
      show k - c.lenWidth < 29 - c.lenWidth by omega] using this
  · intro h
    have e : q.extractLsb' c.lenWidth (29 - c.lenWidth) = 0#(29 - c.lenWidth) := by
      refine BitVec.eq_of_getLsbD_eq fun i hi => ?_
      rw [BitVec.getLsbD_extractLsb', h _ (by omega) (by omega)]; simp
    rw [rsvField, e]; rfl

/-- `LEN` is 0 exactly when each of its bits is (R63). -/
theorem lenField_eq_zero (c : Cfg) (q : Desc) :
    lenField c q = 0 ↔ ∀ k < c.lenWidth, q.getLsbD k = false := by
  constructor
  · intro h k h1
    have e : q.extractLsb' 0 c.lenWidth = 0#c.lenWidth := BitVec.eq_of_toNat_eq h
    have := congrArg (fun x => x.getLsbD k) e
    simpa [BitVec.getLsbD_extractLsb', h1] using this
  · intro h
    have e : q.extractLsb' 0 c.lenWidth = 0#c.lenWidth := by
      refine BitVec.eq_of_getLsbD_eq fun i hi => ?_
      rw [BitVec.getLsbD_extractLsb', h _ (by omega)]; simp
    rw [lenField, e]; rfl

/-- A descriptor whose reserved bits are 0 is the one made from its fields. -/
theorem mkDesc_fields (c : Cfg) (q : Desc) (h : rsvField c q = 0) :
    mkDesc c (opField q) (cField q) (lenField c q) = q := by
  have hw := c.lenWidth_le
  refine BitVec.eq_of_getLsbD_eq fun i hi => ?_
  rw [mkDesc_bit]
  by_cases h1 : i < c.lenWidth
  · rw [if_pos h1, lenField, BitVec.testBit_toNat, BitVec.getLsbD_extractLsb']
    simp [h1]
  by_cases h2 : i < 29
  · rw [if_neg h1, if_pos h2, (rsvField_eq_zero c q).mp h i (by omega) (by omega)]
  by_cases h3 : i = 29
  · rw [if_neg h1, if_neg h2, if_pos h3, h3]; rfl
  · rw [if_neg h1, if_neg h2, if_neg h3, opField, BitVec.getLsbD_extractLsb',
      show 30 + (i - 30) = i by omega]
    simp [show i - 30 < 2 by omega]

/-- Every value of `OP` is assigned (R60). -/
theorem opField_cases (q : Desc) :
    opField q = 0b00#2 ∨ opField q = 0b01#2 ∨ opField q = 0b10#2 ∨ opField q = 0b11#2 := by
  generalize opField q = o
  revert o; decide

end Sys2Proof
end

