-- ==== Sys2Proof/Laws/State.lean ====
section
/-! SUPPORT. One lemma per field per update of State, so that no later proof unfolds a record update. -/

namespace Sys2Proof.Machine

/-! ### `emit` -/

@[simp] theorem emit_cfg (s : State) (k : EventKind) : (s.emit k).cfg = s.cfg := rfl
@[simp] theorem emit_lines (s : State) (k : EventKind) : (s.emit k).lines = s.lines := rfl
@[simp] theorem emit_rsMode (s : State) (k : EventKind) : (s.emit k).rsMode = s.rsMode := rfl
@[simp] theorem emit_dir (s : State) (k : EventKind) : (s.emit k).dir = s.dir := rfl
@[simp] theorem emit_seq (s : State) (k : EventKind) : (s.emit k).seq = s.seq := rfl
@[simp] theorem emit_result (s : State) (k : EventKind) : (s.emit k).result = s.result := rfl
@[simp] theorem emit_now (s : State) (k : EventKind) : (s.emit k).now = s.now := rfl
@[simp] theorem emit_trace (s : State) (k : EventKind) : (s.emit k).trace = s.trace ++ [⟨s.now, k⟩] := rfl
@[simp] theorem emit_port (s : State) (k : EventKind) : (s.emit k).port = s.port := rfl
@[simp] theorem emit_env (s : State) (k : EventKind) : (s.emit k).env = s.env := rfl

/-! ### `elapse` -/

@[simp] theorem elapse_cfg (s : State) : s.elapse.cfg = s.cfg := rfl
@[simp] theorem elapse_lines (s : State) : s.elapse.lines = s.lines := rfl
@[simp] theorem elapse_rsMode (s : State) : s.elapse.rsMode = s.rsMode := rfl
@[simp] theorem elapse_dir (s : State) : s.elapse.dir = s.dir := rfl
@[simp] theorem elapse_seq (s : State) : s.elapse.seq = s.seq := rfl
@[simp] theorem elapse_result (s : State) : s.elapse.result = s.result := rfl
@[simp] theorem elapse_now (s : State) : s.elapse.now = s.now + s.env.delay := rfl
@[simp] theorem elapse_trace (s : State) : s.elapse.trace = s.trace := rfl
@[simp] theorem elapse_port (s : State) : s.elapse.port = s.port := rfl
@[simp] theorem elapse_env (s : State) : s.elapse.env = s.env.afterDelay := rfl

/-! ### `tap` -/

@[simp] theorem tap_cfg (s : State) (v : Byte) (w : Nat) : (s.tap v w).cfg = s.cfg := rfl
@[simp] theorem tap_lines (s : State) (v : Byte) (w : Nat) : (s.tap v w).lines = s.lines := rfl
@[simp] theorem tap_rsMode (s : State) (v : Byte) (w : Nat) : (s.tap v w).rsMode = s.rsMode := rfl
@[simp] theorem tap_dir (s : State) (v : Byte) (w : Nat) : (s.tap v w).dir = s.dir := rfl
@[simp] theorem tap_seq (s : State) (v : Byte) (w : Nat) : (s.tap v w).seq = s.seq := rfl
@[simp] theorem tap_result (s : State) (v : Byte) (w : Nat) : (s.tap v w).result = s.result := rfl
@[simp] theorem tap_now (s : State) (v : Byte) (w : Nat) : (s.tap v w).now = s.now := rfl
@[simp] theorem tap_trace (s : State) (v : Byte) (w : Nat) : (s.tap v w).trace = s.trace ++ [⟨s.now, .tap v w⟩] := rfl
@[simp] theorem tap_port (s : State) (v : Byte) (w : Nat) : (s.tap v w).port = s.port := rfl
@[simp] theorem tap_env (s : State) (v : Byte) (w : Nat) : (s.tap v w).env = s.env := rfl

/-! ### `cfgOut` -/

@[simp] theorem cfgOut_cfg (s : State) (l : Line) : (s.cfgOut l).cfg = s.cfg := rfl
@[simp] theorem cfgOut_lines (s : State) (l : Line) : (s.cfgOut l).lines = s.lines.setDir l .output := rfl
@[simp] theorem cfgOut_rsMode (s : State) (l : Line) : (s.cfgOut l).rsMode = s.rsMode := rfl
@[simp] theorem cfgOut_dir (s : State) (l : Line) : (s.cfgOut l).dir = s.dir := rfl
@[simp] theorem cfgOut_seq (s : State) (l : Line) : (s.cfgOut l).seq = s.seq := rfl
@[simp] theorem cfgOut_result (s : State) (l : Line) : (s.cfgOut l).result = s.result := rfl
@[simp] theorem cfgOut_now (s : State) (l : Line) : (s.cfgOut l).now = s.now + s.env.delay := rfl
@[simp] theorem cfgOut_trace (s : State) (l : Line) : (s.cfgOut l).trace = s.trace ++ [⟨s.now, .cfgOut l⟩] := rfl
@[simp] theorem cfgOut_port (s : State) (l : Line) : (s.cfgOut l).port = s.port := rfl
@[simp] theorem cfgOut_env (s : State) (l : Line) : (s.cfgOut l).env = s.env.afterDelay := rfl

/-! ### `cfgIn` -/

@[simp] theorem cfgIn_cfg (s : State) (l : Line) : (s.cfgIn l).cfg = s.cfg := rfl
@[simp] theorem cfgIn_lines (s : State) (l : Line) : (s.cfgIn l).lines = s.lines.setDir l .input := rfl
@[simp] theorem cfgIn_rsMode (s : State) (l : Line) : (s.cfgIn l).rsMode = s.rsMode := rfl
@[simp] theorem cfgIn_dir (s : State) (l : Line) : (s.cfgIn l).dir = s.dir := rfl
@[simp] theorem cfgIn_seq (s : State) (l : Line) : (s.cfgIn l).seq = s.seq := rfl
@[simp] theorem cfgIn_result (s : State) (l : Line) : (s.cfgIn l).result = s.result := rfl
@[simp] theorem cfgIn_now (s : State) (l : Line) : (s.cfgIn l).now = s.now + s.env.delay := rfl
@[simp] theorem cfgIn_trace (s : State) (l : Line) : (s.cfgIn l).trace = s.trace ++ [⟨s.now, .cfgIn l⟩] := rfl
@[simp] theorem cfgIn_port (s : State) (l : Line) : (s.cfgIn l).port = s.port := rfl
@[simp] theorem cfgIn_env (s : State) (l : Line) : (s.cfgIn l).env = s.env.afterDelay := rfl

/-! ### `drive` -/

@[simp] theorem drive_cfg (s : State) (l : Line) (lvl : Level) : (s.drive l lvl).cfg = s.cfg := rfl
@[simp] theorem drive_lines (s : State) (l : Line) (lvl : Level) : (s.drive l lvl).lines = s.lines.setLat l lvl := rfl
@[simp] theorem drive_rsMode (s : State) (l : Line) (lvl : Level) : (s.drive l lvl).rsMode = s.rsMode := rfl
@[simp] theorem drive_dir (s : State) (l : Line) (lvl : Level) : (s.drive l lvl).dir = s.dir := rfl
@[simp] theorem drive_seq (s : State) (l : Line) (lvl : Level) : (s.drive l lvl).seq = s.seq := rfl
@[simp] theorem drive_result (s : State) (l : Line) (lvl : Level) : (s.drive l lvl).result = s.result := rfl
@[simp] theorem drive_now (s : State) (l : Line) (lvl : Level) : (s.drive l lvl).now = s.now + s.env.delay := rfl
@[simp] theorem drive_trace (s : State) (l : Line) (lvl : Level) : (s.drive l lvl).trace = s.trace ++ [⟨s.now, .drive l lvl⟩] := rfl
@[simp] theorem drive_port (s : State) (l : Line) (lvl : Level) : (s.drive l lvl).port = s.port := rfl
@[simp] theorem drive_env (s : State) (l : Line) (lvl : Level) : (s.drive l lvl).env = s.env.afterDelay := rfl

/-! ### `sleep` -/

@[simp] theorem sleep_cfg (s : State) (t : Nat) : (s.sleep t).cfg = s.cfg := rfl
@[simp] theorem sleep_lines (s : State) (t : Nat) : (s.sleep t).lines = s.lines := rfl
@[simp] theorem sleep_rsMode (s : State) (t : Nat) : (s.sleep t).rsMode = s.rsMode := rfl
@[simp] theorem sleep_dir (s : State) (t : Nat) : (s.sleep t).dir = s.dir := rfl
@[simp] theorem sleep_seq (s : State) (t : Nat) : (s.sleep t).seq = s.seq := rfl
@[simp] theorem sleep_result (s : State) (t : Nat) : (s.sleep t).result = s.result := rfl
@[simp] theorem sleep_now (s : State) (t : Nat) : (s.sleep t).now = s.now + (t + s.env.delay) := rfl
@[simp] theorem sleep_trace (s : State) (t : Nat) : (s.sleep t).trace = s.trace ++ [⟨s.now, .sleep t (t + s.env.delay)⟩] := rfl
@[simp] theorem sleep_port (s : State) (t : Nat) : (s.sleep t).port = s.port := rfl
@[simp] theorem sleep_env (s : State) (t : Nat) : (s.sleep t).env = s.env.afterDelay := rfl

/-! ### `sample` -/

@[simp] theorem sample_cfg (s : State) (l : Line) : (s.sample l).cfg = s.cfg := rfl
@[simp] theorem sample_lines (s : State) (l : Line) : (s.sample l).lines = s.lines := rfl
@[simp] theorem sample_rsMode (s : State) (l : Line) : (s.sample l).rsMode = s.rsMode := rfl
@[simp] theorem sample_dir (s : State) (l : Line) : (s.sample l).dir = s.dir := rfl
@[simp] theorem sample_seq (s : State) (l : Line) : (s.sample l).seq = s.seq := rfl
@[simp] theorem sample_result (s : State) (l : Line) : (s.sample l).result = s.result := rfl
@[simp] theorem sample_now (s : State) (l : Line) : (s.sample l).now = s.now + (s.envAfterSample l).delay := rfl
@[simp] theorem sample_trace (s : State) (l : Line) : (s.sample l).trace = s.trace ++ [⟨s.now, .sample l (s.sampleLevel l)⟩] := rfl
@[simp] theorem sample_port (s : State) (l : Line) : (s.sample l).port = s.port := rfl
@[simp] theorem sample_env (s : State) (l : Line) : (s.sample l).env = (s.envAfterSample l).afterDelay := rfl

/-! ### `mapActive` -/

@[simp] theorem mapActive_cfg (s : State) (f : Active → Active) : (s.mapActive f).cfg = s.cfg := rfl
@[simp] theorem mapActive_lines (s : State) (f : Active → Active) : (s.mapActive f).lines = s.lines := rfl
@[simp] theorem mapActive_rsMode (s : State) (f : Active → Active) : (s.mapActive f).rsMode = s.rsMode := rfl
@[simp] theorem mapActive_dir (s : State) (f : Active → Active) : (s.mapActive f).dir = s.dir := rfl
@[simp] theorem mapActive_seq (s : State) (f : Active → Active) : (s.mapActive f).seq = s.seq.map f := rfl
@[simp] theorem mapActive_result (s : State) (f : Active → Active) : (s.mapActive f).result = s.result := rfl
@[simp] theorem mapActive_now (s : State) (f : Active → Active) : (s.mapActive f).now = s.now := rfl
@[simp] theorem mapActive_trace (s : State) (f : Active → Active) : (s.mapActive f).trace = s.trace := rfl
@[simp] theorem mapActive_port (s : State) (f : Active → Active) : (s.mapActive f).port = s.port := rfl
@[simp] theorem mapActive_env (s : State) (f : Active → Active) : (s.mapActive f).env = s.env := rfl

/-! ### `accept` -/

@[simp] theorem accept_cfg (s : State) (i : Instr) : (s.accept i).cfg = s.cfg := rfl
@[simp] theorem accept_lines (s : State) (i : Instr) : (s.accept i).lines = s.lines := rfl
@[simp] theorem accept_rsMode (s : State) (i : Instr) : (s.accept i).rsMode = s.rsMode := rfl
@[simp] theorem accept_dir (s : State) (i : Instr) : (s.accept i).dir = s.dir := rfl
@[simp] theorem accept_seq (s : State) (i : Instr) : (s.accept i).seq = .busy ⟨i, 0, 0#8, 0#8, []⟩ := rfl
@[simp] theorem accept_result (s : State) (i : Instr) : (s.accept i).result = s.result := rfl
@[simp] theorem accept_now (s : State) (i : Instr) : (s.accept i).now = s.now := rfl
@[simp] theorem accept_trace (s : State) (i : Instr) : (s.accept i).trace = s.trace ++ [⟨s.now, .beginReq (encodeDesc s.cfg i)⟩] := rfl
@[simp] theorem accept_port (s : State) (i : Instr) : (s.accept i).port = s.port := rfl
@[simp] theorem accept_env (s : State) (i : Instr) : (s.accept i).env = s.env := rfl

/-! ### `respond` -/

@[simp] theorem respond_cfg (s : State) (r : Result) : (s.respond r).cfg = s.cfg := rfl
@[simp] theorem respond_lines (s : State) (r : Result) : (s.respond r).lines = s.lines := rfl
@[simp] theorem respond_rsMode (s : State) (r : Result) : (s.respond r).rsMode = s.rsMode := rfl
@[simp] theorem respond_dir (s : State) (r : Result) : (s.respond r).dir = s.dir := rfl
@[simp] theorem respond_seq (s : State) (r : Result) : (s.respond r).seq = .idle := rfl
@[simp] theorem respond_result (s : State) (r : Result) : (s.respond r).result = r := rfl
@[simp] theorem respond_now (s : State) (r : Result) : (s.respond r).now = s.now := rfl
@[simp] theorem respond_trace (s : State) (r : Result) : (s.respond r).trace = s.trace ++ [⟨s.now, .endReq r.count r.status⟩] := rfl
@[simp] theorem respond_port (s : State) (r : Result) : (s.respond r).port = s.port := rfl
@[simp] theorem respond_env (s : State) (r : Result) : (s.respond r).env = s.env := rfl

/-! ### `raise` -/

@[simp] theorem raise_cfg (s : State) (code : Status) : (s.raise code).cfg = s.cfg := rfl
@[simp] theorem raise_lines (s : State) (code : Status) : (s.raise code).lines = s.lines := rfl
@[simp] theorem raise_rsMode (s : State) (code : Status) : (s.raise code).rsMode = s.rsMode := rfl
@[simp] theorem raise_dir (s : State) (code : Status) : (s.raise code).dir = s.dir := rfl
@[simp] theorem raise_seq (s : State) (code : Status) : (s.raise code).seq = .idle := rfl
@[simp] theorem raise_result (s : State) (code : Status) : (s.raise code).result = ⟨0, code, []⟩ := rfl
@[simp] theorem raise_now (s : State) (code : Status) : (s.raise code).now = s.now := rfl
@[simp] theorem raise_trace (s : State) (code : Status) : (s.raise code).trace = s.trace ++ [⟨s.now, .endReq 0 code⟩] := rfl
@[simp] theorem raise_port (s : State) (code : Status) : (s.raise code).port = s.port := rfl
@[simp] theorem raise_env (s : State) (code : Status) : (s.raise code).env = s.env := rfl

/-! ### `refuse` -/

@[simp] theorem refuse_cfg (s : State) (q : Desc) (r : RefuseReason) : (s.refuse q r).cfg = s.cfg := rfl
@[simp] theorem refuse_lines (s : State) (q : Desc) (r : RefuseReason) : (s.refuse q r).lines = s.lines := rfl
@[simp] theorem refuse_rsMode (s : State) (q : Desc) (r : RefuseReason) : (s.refuse q r).rsMode = s.rsMode := rfl
@[simp] theorem refuse_dir (s : State) (q : Desc) (r : RefuseReason) : (s.refuse q r).dir = s.dir := rfl
@[simp] theorem refuse_seq (s : State) (q : Desc) (r : RefuseReason) : (s.refuse q r).seq = .idle := rfl
@[simp] theorem refuse_result (s : State) (q : Desc) (r : RefuseReason) : (s.refuse q r).result = ⟨0, .refused r, []⟩ := rfl
@[simp] theorem refuse_now (s : State) (q : Desc) (r : RefuseReason) : (s.refuse q r).now = s.now := rfl
@[simp] theorem refuse_trace (s : State) (q : Desc) (r : RefuseReason) : (s.refuse q r).trace = s.trace ++ [⟨s.now, .beginReq q⟩] ++ [⟨s.now, .endReq 0 (.refused r)⟩] := rfl
@[simp] theorem refuse_port (s : State) (q : Desc) (r : RefuseReason) : (s.refuse q r).port = s.port := rfl
@[simp] theorem refuse_env (s : State) (q : Desc) (r : RefuseReason) : (s.refuse q r).env = s.env := rfl

/-! ### `withPort` -/

@[simp] theorem withPort_cfg (s : State) (p : List Delivery) : (s.withPort p).cfg = s.cfg := rfl
@[simp] theorem withPort_lines (s : State) (p : List Delivery) : (s.withPort p).lines = s.lines := rfl
@[simp] theorem withPort_rsMode (s : State) (p : List Delivery) : (s.withPort p).rsMode = s.rsMode := rfl
@[simp] theorem withPort_dir (s : State) (p : List Delivery) : (s.withPort p).dir = s.dir := rfl
@[simp] theorem withPort_seq (s : State) (p : List Delivery) : (s.withPort p).seq = s.seq := rfl
@[simp] theorem withPort_result (s : State) (p : List Delivery) : (s.withPort p).result = s.result := rfl
@[simp] theorem withPort_now (s : State) (p : List Delivery) : (s.withPort p).now = s.now := rfl
@[simp] theorem withPort_trace (s : State) (p : List Delivery) : (s.withPort p).trace = s.trace := rfl
@[simp] theorem withPort_port (s : State) (p : List Delivery) : (s.withPort p).port = p := rfl
@[simp] theorem withPort_env (s : State) (p : List Delivery) : (s.withPort p).env = s.env := rfl

@[simp] theorem Seq.map_idle (f : Active → Active) : Seq.idle.map f = .idle := rfl

@[simp] theorem Seq.map_busy (f : Active → Active) (a : Active) : (Seq.busy a).map f = .busy (f a) := rfl

@[simp] theorem afterDelay_oracle (e : Env) : e.afterDelay.oracle = e.oracle := by
  unfold Env.afterDelay; split <;> rfl

@[simp] theorem afterAnswer_oracle (e : Env) : e.afterAnswer.oracle = e.oracle := by
  unfold Env.afterAnswer; split <;> rfl

@[simp] theorem envAfterSample_oracle (s : State) (l : Line) : (s.envAfterSample l).oracle = s.env.oracle := by
  unfold State.envAfterSample; split <;> simp

end Sys2Proof.Machine
end

