-- ==== Sys2Proof/Laws/Lines.lean ====
section
/-! SUPPORT. The accessors of the line set: a read after a write, what a write leaves alone, and that every
operation keeps the set's form; and the bus view over concatenated traces. -/

namespace Sys2Proof.Machine

/-! ### Reading and writing one line -/

@[simp] theorem Lines.set_data_length (ls : Lines) (l : Line) (x : LineState) :
    (ls.set l x).data.length = ls.data.length := by
  cases l <;> simp [Lines.set]

@[simp] theorem Lines.setLat_data_length (ls : Lines) (l : Line) (v : Level) :
    (ls.setLat l v).data.length = ls.data.length := by simp [Lines.setLat]

@[simp] theorem Lines.setDir_data_length (ls : Lines) (l : Line) (v : LineDir) :
    (ls.setDir l v).data.length = ls.data.length := by simp [Lines.setDir]

theorem Lines.get_set_same (ls : Lines) (l : Line) (x : LineState) (h : l.inSet ls.data.length = true) :
    (ls.set l x).get l = x := by
  cases l with
  | d i => simp [Line.inSet] at h; simp [Lines.set, Lines.get, h]
  | e => rfl
  | rs => rfl
  | rw => rfl

theorem Lines.get_set_other (ls : Lines) (l m : Line) (x : LineState) (h : l ≠ m) :
    (ls.set l x).get m = ls.get m := by
  cases l <;> cases m <;> simp_all [Lines.set, Lines.get]

theorem Lines.set_absent (ls : Lines) (l : Line) (x : LineState) (h : l.inSet ls.data.length = false) :
    ls.set l x = ls := by
  cases l <;> simp_all [Line.inSet, Lines.set, List.set_eq_of_length_le]

theorem Lines.get_setLat_same (ls : Lines) (l : Line) (v : Level) (h : l.inSet ls.data.length = true) :
    (ls.setLat l v).get l = { ls.get l with lat := some v } := Lines.get_set_same _ _ _ h

theorem Lines.get_setLat_other (ls : Lines) (l m : Line) (v : Level) (h : l ≠ m) :
    (ls.setLat l v).get m = ls.get m := Lines.get_set_other _ _ _ _ h

theorem Lines.get_setDir_same (ls : Lines) (l : Line) (v : LineDir) (h : l.inSet ls.data.length = true) :
    (ls.setDir l v).get l = { ls.get l with dir := v } := Lines.get_set_same _ _ _ h

theorem Lines.get_setDir_other (ls : Lines) (l m : Line) (v : LineDir) (h : l ≠ m) :
    (ls.setDir l v).get m = ls.get m := Lines.get_set_other _ _ _ _ h

/-- A drive changes no direction (R38). -/
@[simp] theorem Lines.get_setLat_dir (ls : Lines) (l m : Line) (v : Level) :
    ((ls.setLat l v).get m).dir = (ls.get m).dir := by
  by_cases h : l = m
  · subst h
    cases hin : l.inSet ls.data.length
    · rw [Lines.setLat, Lines.set_absent _ _ _ hin]
    · rw [Lines.get_setLat_same _ _ _ hin]
  · rw [Lines.get_setLat_other _ _ _ _ h]

/-- A configuration changes no latch (R36, R37). -/
@[simp] theorem Lines.get_setDir_lat (ls : Lines) (l m : Line) (v : LineDir) :
    ((ls.setDir l v).get m).lat = (ls.get m).lat := by
  by_cases h : l = m
  · subst h
    cases hin : l.inSet ls.data.length
    · rw [Lines.setDir, Lines.set_absent _ _ _ hin]
    · rw [Lines.get_setDir_same _ _ _ hin]
  · rw [Lines.get_setDir_other _ _ _ _ h]

/-- Driving the same line twice leaves the second level. -/
@[simp] theorem Lines.setLat_setLat (ls : Lines) (l : Line) (v w : Level) :
    (ls.setLat l v).setLat l w = ls.setLat l w := by
  cases l with
  | d i =>
    by_cases h : i < ls.data.length <;>
      simp [Lines.setLat, Lines.set, Lines.get, h, List.set_eq_of_length_le, Nat.le_of_not_lt]
  | e => rfl
  | rs => rfl
  | rw => rfl

/-! ### The control lines beside the data lines -/

@[simp] theorem Lines.setLat_e_data (ls : Lines) (v : Level) : (ls.setLat .e v).data = ls.data := rfl
@[simp] theorem Lines.setLat_e_e (ls : Lines) (v : Level) :
    (ls.setLat .e v).e = { ls.e with lat := some v } := rfl
@[simp] theorem Lines.setLat_e_rs (ls : Lines) (v : Level) : (ls.setLat .e v).rs = ls.rs := rfl
@[simp] theorem Lines.setLat_e_rw (ls : Lines) (v : Level) : (ls.setLat .e v).rw = ls.rw := rfl
@[simp] theorem Lines.setLat_rs_data (ls : Lines) (v : Level) : (ls.setLat .rs v).data = ls.data := rfl
@[simp] theorem Lines.setLat_rs_e (ls : Lines) (v : Level) : (ls.setLat .rs v).e = ls.e := rfl
@[simp] theorem Lines.setLat_rs_rs (ls : Lines) (v : Level) :
    (ls.setLat .rs v).rs = { ls.rs with lat := some v } := rfl
@[simp] theorem Lines.setLat_rs_rw (ls : Lines) (v : Level) : (ls.setLat .rs v).rw = ls.rw := rfl
@[simp] theorem Lines.setLat_rw_data (ls : Lines) (v : Level) : (ls.setLat .rw v).data = ls.data := rfl
@[simp] theorem Lines.setLat_rw_e (ls : Lines) (v : Level) : (ls.setLat .rw v).e = ls.e := rfl
@[simp] theorem Lines.setLat_rw_rs (ls : Lines) (v : Level) : (ls.setLat .rw v).rs = ls.rs := rfl
@[simp] theorem Lines.setLat_rw_rw (ls : Lines) (v : Level) :
    (ls.setLat .rw v).rw = { ls.rw with lat := some v } := rfl
@[simp] theorem Lines.setLat_d_e (ls : Lines) (i : Nat) (v : Level) : (ls.setLat (.d i) v).e = ls.e := rfl
@[simp] theorem Lines.setLat_d_rs (ls : Lines) (i : Nat) (v : Level) : (ls.setLat (.d i) v).rs = ls.rs := rfl
@[simp] theorem Lines.setLat_d_rw (ls : Lines) (i : Nat) (v : Level) : (ls.setLat (.d i) v).rw = ls.rw := rfl
@[simp] theorem Lines.setDir_d_e (ls : Lines) (i : Nat) (v : LineDir) : (ls.setDir (.d i) v).e = ls.e := rfl
@[simp] theorem Lines.setDir_d_rs (ls : Lines) (i : Nat) (v : LineDir) : (ls.setDir (.d i) v).rs = ls.rs := rfl
@[simp] theorem Lines.setDir_d_rw (ls : Lines) (i : Nat) (v : LineDir) : (ls.setDir (.d i) v).rw = ls.rw := rfl
@[simp] theorem Lines.get_e (ls : Lines) : ls.get .e = ls.e := rfl
@[simp] theorem Lines.get_rs (ls : Lines) : ls.get .rs = ls.rs := rfl
@[simp] theorem Lines.get_rw (ls : Lines) : ls.get .rw = ls.rw := rfl

/-! ### The form of the line set -/

/-- An event changes no line count, so the line set keeps its form (20_memory R34). -/
@[simp] theorem Lines.after_data_length (ls : Lines) (k : EventKind) :
    (ls.after k).data.length = ls.data.length := by
  cases k <;> simp [Lines.after]

theorem Lines.set_wf (n : Nat) (ls : Lines) (l : Line) (x : LineState) (h : ls.wf n = true) :
    (ls.set l x).wf n = true := by simp_all [Lines.wf]

theorem Lines.after_wf (n : Nat) (ls : Lines) (k : EventKind) (h : ls.wf n = true) :
    (ls.after k).wf n = true := by simp_all [Lines.wf]

theorem Lines.constructed_wf (n : Nat) : (Lines.constructed n).wf n = true := by
  simp [Lines.wf, Lines.constructed]

theorem State.reset_lines_wf : State.reset.lines.wf State.reset.cfg.n = true :=
  Lines.constructed_wf _

/-! ### The bus view over concatenated traces -/

@[simp] theorem replayLines_nil (ls : Lines) : replayLines ls [] = ls := rfl

@[simp] theorem replayLines_cons (ls : Lines) (ev : Event) (evs : List Event) :
    replayLines ls (ev :: evs) = replayLines (ls.after ev.kind) evs := rfl

@[simp] theorem replayLines_append (ls : Lines) (a b : List Event) :
    replayLines ls (a ++ b) = replayLines (replayLines ls a) b := List.foldl_append

/-- The request in progress after a list of events. -/
def requestAfterAll (req : Option Desc) (evs : List Event) : Option Desc :=
  evs.foldl (fun r ev => requestAfter r ev.kind) req

theorem seenFrom_append (ls : Lines) (req : Option Desc) (a b : List Event) :
    seenFrom ls req (a ++ b) =
      seenFrom ls req a ++ seenFrom (replayLines ls a) (requestAfterAll req a) b := by
  induction a generalizing ls req with
  | nil => rfl
  | cons ev evs ih => simp [seenFrom, requestAfterAll, ih]

/-- Whether an event latches a unit does not depend on the request it belongs to. -/
theorem latched_seenFrom_req (c : Cfg) (ls : Lines) (r r' : Option Desc) (evs : List Event) :
    (seenFrom ls r evs).filterMap (Seen.latched c) = (seenFrom ls r' evs).filterMap (Seen.latched c) := by
  induction evs generalizing ls r r' with
  | nil => rfl
  | cons ev evs ih =>
    have h : Seen.latched c ⟨ls, r, ev⟩ = Seen.latched c ⟨ls, r', ev⟩ := rfl
    simp only [seenFrom, List.filterMap_cons, h]
    rw [ih _ (requestAfter r ev.kind) (requestAfter r' ev.kind)]

@[simp] theorem latchedFrom_nil (c : Cfg) (ls : Lines) : latchedFrom c ls [] = [] := rfl

/-- The units latched over two lists of events, one after the other. -/
theorem latchedFrom_append (c : Cfg) (ls : Lines) (a b : List Event) :
    latchedFrom c ls (a ++ b) = latchedFrom c ls a ++ latchedFrom c (replayLines ls a) b := by
  simp only [latchedFrom, seenFrom_append, List.filterMap_append]
  rw [latched_seenFrom_req c (replayLines ls a) _ none]

/-- One event's unit, then the rest. -/
theorem latchedFrom_cons (c : Cfg) (ls : Lines) (ev : Event) (evs : List Event) :
    latchedFrom c ls (ev :: evs) =
      (Seen.latched c ⟨ls, none, ev⟩).toList ++ latchedFrom c (ls.after ev.kind) evs := by
  have := latchedFrom_append c ls [ev] evs
  simp only [List.singleton_append, replayLines_cons, replayLines_nil] at this
  rw [this]
  simp only [latchedFrom, seenFrom, List.filterMap_cons, List.filterMap_nil]
  cases Seen.latched c ⟨ls, none, ev⟩ <;> rfl

/-- Only a drive of `E` to low can latch a unit (R43). -/
theorem latched_of_not_enableLow (c : Cfg) (x : Seen) (h : x.ev.kind ≠ .drive .e .low) :
    x.latched c = none := by simp [Seen.latched, Seen.isFall, h]

/-- The units of the whole trace, split where a request began. -/
theorem latchedUnits_append (s t : State) (evs : List Event) (hc : t.cfg = s.cfg)
    (ht : t.trace = s.trace ++ evs) (h : s.TraceExplainsLines) :
    t.latchedUnits = s.latchedUnits ++ latchedFrom s.cfg s.lines evs := by
  simp only [State.latchedUnits, hc, ht, latchedFrom_append]
  rw [← h]

end Sys2Proof.Machine
end

