-- ==== Sys2Proof/Laws/Sequencer.lean ====
section
/-! SUPPORT. What a list of statements can do, said once: the events it emits, the lines, mode and direction
it leaves, the passing of time, and the sequencer's position. -/

namespace Sys2Proof.Machine

/-! ### One statement -/

/-- What a statement does to the lines. -/
def Stmt.linesAfter (ls : Lines) : Stmt → Lines
  | .cfgIn l => ls.setDir l .input
  | .drive l lvl => ls.setLat l lvl
  | _ => ls

/-- What a statement does to `RSMODE`. -/
def Stmt.modeAfter (m : RsMode) : Stmt → RsMode
  | .setRsMode m' => m'
  | _ => m

/-- What a statement does to `DIR`. -/
def Stmt.dirAfter (d : LineDir) : Stmt → LineDir
  | .setDir d' => d'
  | _ => d

/-- The events a statement emits. -/
def stmtEvents (s : State) : Stmt → List Event
  | .cfgIn l => [⟨s.now, .cfgIn l⟩]
  | .drive l lvl => [⟨s.now, .drive l lvl⟩]
  | .sleep t => [⟨s.now, .sleep t (t + s.env.delay)⟩]
  | .tap v w => [⟨s.now, .tap v w⟩]
  | .sampleBit i => [⟨s.now, .sample (.d i) (s.sampleLevel (.d i))⟩]
  | .clearAcc => []
  | .saveHi => []
  | .storeByte => []
  | .storeNibbles => []
  | .setRsMode _ => []
  | .setDir _ => []

/-- The kind of event a statement emits, less the sampled level and the elapsed time (10_state R24). -/
def Stmt.shape : Stmt → Option EventKind
  | .cfgIn l => some (.cfgIn l)
  | .drive l lvl => some (.drive l lvl)
  | .sleep t => some (.sleep t t)
  | .tap v w => some (.tap v w)
  | .sampleBit i => some (.sample (.d i) .low)
  | .clearAcc => none
  | .saveHi => none
  | .storeByte => none
  | .storeNibbles => none
  | .setRsMode _ => none
  | .setDir _ => none

/-- The time a statement takes at least: what a `Sleep` requests, else nothing (20_memory R40, R41). -/
def Stmt.minTime : Stmt → Nat
  | .sleep t => t
  | _ => 0

@[simp] theorem runStmt_cfg (s : State) (st : Stmt) : (runStmt s st).cfg = s.cfg := by cases st <;> rfl
@[simp] theorem runStmt_port (s : State) (st : Stmt) : (runStmt s st).port = s.port := by cases st <;> rfl
@[simp] theorem runStmt_result (s : State) (st : Stmt) : (runStmt s st).result = s.result := by
  cases st <;> rfl
@[simp] theorem runStmt_lines (s : State) (st : Stmt) : (runStmt s st).lines = st.linesAfter s.lines := by
  cases st <;> rfl
@[simp] theorem runStmt_rsMode (s : State) (st : Stmt) : (runStmt s st).rsMode = st.modeAfter s.rsMode := by
  cases st <;> rfl
@[simp] theorem runStmt_dir (s : State) (st : Stmt) : (runStmt s st).dir = st.dirAfter s.dir := by
  cases st <;> rfl
@[simp] theorem runStmt_oracle (s : State) (st : Stmt) : (runStmt s st).env.oracle = s.env.oracle := by
  cases st <;> simp [runStmt, stmtEffect]

theorem runStmt_trace (s : State) (st : Stmt) : (runStmt s st).trace = s.trace ++ stmtEvents s st := by
  cases st <;> simp [runStmt, stmtEffect, stmtEvents]

theorem runStmt_now (s : State) (st : Stmt) : s.now + st.minTime ≤ (runStmt s st).now := by
  cases st <;> simp [runStmt, stmtEffect, Stmt.minTime, ← Nat.add_assoc]

theorem stmtEvents_time (s : State) (st : Stmt) : ∀ ev ∈ stmtEvents s st, ev.t = s.now := by
  cases st <;> simp [stmtEvents]

theorem stmtEvents_shape (s : State) (st : Stmt) :
    (stmtEvents s st).map (fun ev => ev.kind.shape) = st.shape.toList := by
  cases st <;> rfl

theorem replayLines_stmtEvents (s : State) (ls : Lines) (st : Stmt) :
    replayLines ls (stmtEvents s st) = st.linesAfter ls := by
  cases st <;> rfl

/-- A busy sequencer stays busy with the same request, one statement on (10_state R23). -/
theorem runStmt_busy (s : State) (st : Stmt) (a : Active) (h : s.seq = .busy a) :
    ∃ b, (runStmt s st).seq = .busy b ∧ b.req = a.req ∧ b.pos = a.pos + 1 := by
  cases st <;> simp [runStmt, stmtEffect, h, nextPos]

theorem runStmt_idle (s : State) (st : Stmt) (h : s.seq = .idle) : (runStmt s st).seq = .idle := by
  cases st <;> simp [runStmt, stmtEffect, h]

/-! ### Lists of statements -/

@[simp] theorem runStmts_nil (s : State) : runStmts s [] = s := rfl

@[simp] theorem runStmts_cons (s : State) (st : Stmt) (l : List Stmt) :
    runStmts s (st :: l) = runStmts (runStmt s st) l := rfl

theorem runStmts_append (s : State) (l m : List Stmt) :
    runStmts s (l ++ m) = runStmts (runStmts s l) m := List.foldl_append

/-- What statements do to the lines, a function of the lines and the statements alone. -/
def linesAfterAll (ls : Lines) (l : List Stmt) : Lines := l.foldl Stmt.linesAfter ls

@[simp] theorem linesAfterAll_nil (ls : Lines) : linesAfterAll ls [] = ls := rfl
@[simp] theorem linesAfterAll_cons (ls : Lines) (st : Stmt) (l : List Stmt) :
    linesAfterAll ls (st :: l) = linesAfterAll (st.linesAfter ls) l := rfl
theorem linesAfterAll_append (ls : Lines) (l m : List Stmt) :
    linesAfterAll ls (l ++ m) = linesAfterAll (linesAfterAll ls l) m := List.foldl_append

@[simp] theorem linesAfter_length (ls : Lines) (st : Stmt) :
    (st.linesAfter ls).data.length = ls.data.length := by
  cases st <;> simp [Stmt.linesAfter]

@[simp] theorem linesAfterAll_length (ls : Lines) (l : List Stmt) :
    (linesAfterAll ls l).data.length = ls.data.length := by
  induction l generalizing ls with
  | nil => rfl
  | cons st l ih => simp [ih]

@[simp] theorem runStmts_cfg (s : State) (l : List Stmt) : (runStmts s l).cfg = s.cfg := by
  induction l generalizing s with
  | nil => rfl
  | cons st l ih => simp [ih]

@[simp] theorem runStmts_port (s : State) (l : List Stmt) : (runStmts s l).port = s.port := by
  induction l generalizing s with
  | nil => rfl
  | cons st l ih => simp [ih]

@[simp] theorem runStmts_result (s : State) (l : List Stmt) : (runStmts s l).result = s.result := by
  induction l generalizing s with
  | nil => rfl
  | cons st l ih => simp [ih]

@[simp] theorem runStmts_oracle (s : State) (l : List Stmt) :
    (runStmts s l).env.oracle = s.env.oracle := by
  induction l generalizing s with
  | nil => rfl
  | cons st l ih => simp [ih]

@[simp] theorem runStmts_lines (s : State) (l : List Stmt) :
    (runStmts s l).lines = linesAfterAll s.lines l := by
  induction l generalizing s with
  | nil => rfl
  | cons st l ih => simp [ih]

theorem runStmts_rsMode (s : State) (l : List Stmt) :
    (runStmts s l).rsMode = l.foldl Stmt.modeAfter s.rsMode := by
  induction l generalizing s with
  | nil => rfl
  | cons st l ih => simp [ih]

theorem runStmts_dir (s : State) (l : List Stmt) :
    (runStmts s l).dir = l.foldl Stmt.dirAfter s.dir := by
  induction l generalizing s with
  | nil => rfl
  | cons st l ih => simp [ih]

/-- Statements that set no mode leave it as it was. -/
theorem foldl_modeAfter_of_none (m : RsMode) (l : List Stmt) (h : ∀ st ∈ l, ∀ m, st.modeAfter m = m) :
    l.foldl Stmt.modeAfter m = m := by
  induction l generalizing m with
  | nil => rfl
  | cons st l ih =>
    rw [List.foldl_cons, h st (by simp) m]
    exact ih m fun st' hst' => h st' (by simp [hst'])

/-- Statements that set no direction leave it as it was. -/
theorem foldl_dirAfter_of_none (d : LineDir) (l : List Stmt) (h : ∀ st ∈ l, ∀ d, st.dirAfter d = d) :
    l.foldl Stmt.dirAfter d = d := by
  induction l generalizing d with
  | nil => rfl
  | cons st l ih =>
    rw [List.foldl_cons, h st (by simp) d]
    exact ih d fun st' hst' => h st' (by simp [hst'])

/-- A busy sequencer after `l` is busy with the same request, `l.length` statements on (10_state R23). -/
theorem runStmts_busy (s : State) (l : List Stmt) (a : Active) (h : s.seq = .busy a) :
    ∃ b, (runStmts s l).seq = .busy b ∧ b.req = a.req ∧ b.pos = a.pos + l.length := by
  induction l generalizing s a with
  | nil => exact ⟨a, h, rfl, rfl⟩
  | cons st l ih =>
    obtain ⟨b, hb, hreq, hpos⟩ := runStmt_busy s st a h
    obtain ⟨b', hb', hreq', hpos'⟩ := ih _ _ hb
    exact ⟨b', hb', hreq'.trans hreq, by simp [hpos', hpos]; omega⟩

/-! ### The events of a list of statements -/

/-- The events that statements emit from state `s`. -/
def eventsOf (s : State) : List Stmt → List Event
  | [] => []
  | st :: l => stmtEvents s st ++ eventsOf (runStmt s st) l

@[simp] theorem eventsOf_nil (s : State) : eventsOf s [] = [] := rfl

@[simp] theorem eventsOf_cons (s : State) (st : Stmt) (l : List Stmt) :
    eventsOf s (st :: l) = stmtEvents s st ++ eventsOf (runStmt s st) l := rfl

theorem eventsOf_append (s : State) (l m : List Stmt) :
    eventsOf s (l ++ m) = eventsOf s l ++ eventsOf (runStmts s l) m := by
  induction l generalizing s with
  | nil => rfl
  | cons st l ih => simp [ih]

/-- Statements append their events to the trace and change nothing before them (10_state R27). -/
theorem runStmts_trace (s : State) (l : List Stmt) : (runStmts s l).trace = s.trace ++ eventsOf s l := by
  induction l generalizing s with
  | nil => simp
  | cons st l ih => simp [ih, runStmt_trace]

/-- The kinds of the events are fixed by the statements (10_state R24). -/
theorem eventsOf_shape (s : State) (l : List Stmt) :
    (eventsOf s l).map (fun ev => ev.kind.shape) = l.filterMap Stmt.shape := by
  induction l generalizing s with
  | nil => rfl
  | cons st l ih =>
    rw [eventsOf_cons, List.map_append, ih, stmtEvents_shape, List.filterMap_cons]
    cases st.shape <;> rfl

/-- The events explain what the statements did to the lines. -/
theorem replayLines_eventsOf (s : State) (ls : Lines) (l : List Stmt) :
    replayLines ls (eventsOf s l) = linesAfterAll ls l := by
  induction l generalizing s ls with
  | nil => rfl
  | cons st l ih => simp [ih, replayLines_stmtEvents]

/-- The time that statements take at least. -/
def minTimeAll (l : List Stmt) : Nat := (l.map Stmt.minTime).sum

@[simp] theorem minTimeAll_nil : minTimeAll [] = 0 := rfl
@[simp] theorem minTimeAll_cons (st : Stmt) (l : List Stmt) :
    minTimeAll (st :: l) = st.minTime + minTimeAll l := by simp [minTimeAll]
@[simp] theorem minTimeAll_append (l m : List Stmt) :
    minTimeAll (l ++ m) = minTimeAll l + minTimeAll m := by simp [minTimeAll]

/-- Statements take at least what their `Sleep`s request (20_memory R40, R41). -/
theorem runStmts_now (s : State) (l : List Stmt) : s.now + minTimeAll l ≤ (runStmts s l).now := by
  induction l generalizing s with
  | nil => simp
  | cons st l ih =>
    have h1 := runStmt_now s st
    have h2 := ih (runStmt s st)
    simp only [runStmts_cons, minTimeAll_cons]; omega

theorem runStmts_now_le (s : State) (l : List Stmt) : s.now ≤ (runStmts s l).now := by
  have := runStmts_now s l; omega

/-- Every event starts within the time the statements take (10_state R26, R27). -/
theorem eventsOf_within (s : State) (l : List Stmt) :
    ∀ ev ∈ eventsOf s l, s.now ≤ ev.t ∧ ev.t ≤ (runStmts s l).now := by
  induction l generalizing s with
  | nil => simp
  | cons st l ih =>
    have h1 := runStmt_now s st
    have h2 := runStmts_now_le (runStmt s st) l
    intro ev hev
    rcases List.mem_append.mp hev with h | h
    · have := stmtEvents_time s st ev h
      simp only [runStmts_cons]; omega
    · have := ih _ ev h
      simp only [runStmts_cons]; omega

/-- The events are in time order, and none starts before the statements do. -/
theorem eventsOf_timed (s : State) (l : List Stmt) : timed s.now (eventsOf s l) := by
  refine ⟨fun ev h => (eventsOf_within s l ev h).1, ?_⟩
  induction l generalizing s with
  | nil => simp
  | cons st l ih =>
    rw [eventsOf_cons, List.pairwise_append]
    refine ⟨?_, ih _, fun a ha b hb => ?_⟩
    · cases st <;> simp [stmtEvents]
    · have h1 := stmtEvents_time s st a ha
      have h2 := (eventsOf_within (runStmt s st) l b hb).1
      have h3 := runStmt_now s st
      omega

/-! ### Requests -/

@[simp] theorem finish_idle (s : State) (h : s.seq = .idle) : finish s = s := by simp [finish, h]

/-- An idle transport's request: `Begin`, its statements, its end (40_bus_transport R71). -/
theorem perform_of_idle (i : Instr) (s : State) (h : s.seq = .idle) :
    perform i s = closeRequest (runStmts (s.accept i) (stmtsOf s.cfg i)) := by
  rw [perform, finish_idle s h]
  simp [finish]

/-- The sequencer when the statements of an accepted request have run. -/
theorem accepted_busy (i : Instr) (s : State) (l : List Stmt) :
    ∃ a, (runStmts (s.accept i) l).seq = .busy a ∧ a.req = i ∧ a.pos = l.length := by
  obtain ⟨b, hb, hreq, hpos⟩ := runStmts_busy (s.accept i) l _ rfl
  exact ⟨b, hb, hreq, by simpa using hpos⟩

/-- What a request answers, given the bytes it has read (40_bus_transport R78, 60_exceptions R98). -/
def resultOf (rbuf : List Byte) : Instr → Result
  | .setmode _ => ⟨0, .ok, []⟩
  | .write p => ⟨p.length, .ok, []⟩
  | .wrnib p => ⟨p.length, .ok, []⟩
  | .read 0 => ⟨0, .invalidArgument, []⟩
  | .read (n + 1) => ⟨n + 1, .ok, rbuf⟩

/-- Every end of a request is one `respond` (R71, R97). -/
theorem endRequest_eq (s : State) (a : Active) : endRequest s a = s.respond (resultOf a.rbuf a.req) := by
  rcases a with ⟨req, pos, acc, hi, rbuf⟩
  rcases req with c | p | p | (_ | n) <;> rfl

/-- An idle transport's request, with everything it does spelled out once: it ends in `respond` after its
statements, from a sequencer that is busy with it. -/
theorem perform_spec (i : Instr) (s : State) (h : s.seq = .idle) :
    ∃ a, (runStmts (s.accept i) (stmtsOf s.cfg i)).seq = .busy a ∧ a.req = i ∧
      perform i s = (runStmts (s.accept i) (stmtsOf s.cfg i)).respond (resultOf a.rbuf i) := by
  obtain ⟨a, ha, hreq, -⟩ := accepted_busy i s (stmtsOf s.cfg i)
  refine ⟨a, ha, hreq, ?_⟩
  rw [perform_of_idle i s h, closeRequest, ha]
  simp only [endRequest_eq, hreq]

end Sys2Proof.Machine
end

