-- ==== Sys2Proof/Laws/Transport.lean ====
section
/-! SUPPORT. What each piece of an operation does: PULSE, PUT, GET, the direction loops, one unit of a
WRITE, one element of a WRNIB, one read cycle, and the four operations assembled from them. -/

namespace Sys2Proof.Machine

/-! ### Configurations -/

theorem Cfg.wf_iff (c : Cfg) : c.wf = true ↔
    c.n = c.width.lines ∧ 450 < c.tEh ∧ 37000 < c.tSettle ∧ c.rwReadLevel ≠ c.rwWriteLevel ∧
      (c.data ++ [c.e, c.rs, c.rw]).Nodup := by
  simp only [Cfg.wf, Cfg.n, Bool.and_eq_true, beq_iff_eq, decide_eq_true_eq]
  tauto

theorem Cfg.wf_n {c : Cfg} (h : c.wf = true) : c.n = c.width.lines := ((Cfg.wf_iff c).mp h).1

/-- The number of lines a unit is driven on is the number of data lines (42_transcoding R89). -/
theorem Cfg.wf_four {c : Cfg} (h : c.wf = true) (hw : c.width = .four) : c.n = 4 := by
  rw [Cfg.wf_n h, hw]; rfl

theorem Cfg.wf_eight {c : Cfg} (h : c.wf = true) (hw : c.width = .eight) : c.n = 8 := by
  rw [Cfg.wf_n h, hw]; rfl

/-! ### Lines after the internal operations -/

/-- PULSE leaves `E` low and touches no other line (41_enable_sequencer R84). -/
@[simp] theorem linesAfterAll_pulse (ls : Lines) (c : Cfg) :
    linesAfterAll ls (pulse c) = ls.setLat .e .low := rfl

@[simp] theorem linesAfterAll_hold (ls : Lines) (t : Nat) : linesAfterAll ls (hold t) = ls := by
  unfold hold; split <;> rfl

theorem linesAfterAll_of_none (ls : Lines) (l : List Stmt) (h : ∀ st ∈ l, ∀ ls, st.linesAfter ls = ls) :
    linesAfterAll ls l = ls := by
  induction l generalizing ls with
  | nil => rfl
  | cons st l ih =>
    rw [linesAfterAll_cons, h st (by simp)]
    exact ih ls fun st' hst' => h st' (by simp [hst'])

@[simp] theorem linesAfterAll_get (ls : Lines) (n : Nat) : linesAfterAll ls (get n) = ls := by
  refine linesAfterAll_of_none ls _ fun st hst ls => ?_
  simp only [get, List.mem_cons, List.mem_map, List.mem_range] at hst
  rcases hst with rfl | ⟨i, -, rfl⟩ <;> rfl

@[simp] theorem linesAfterAll_tapIfAll (ls : Lines) (c : Cfg) (v : Byte) (w : Nat) :
    linesAfterAll ls (tapIfAll c v w) = ls := by
  unfold tapIfAll; split <;> rfl

/-- The lines after PUT (42_transcoding R89). -/
def putLines (ls : Lines) (v : Byte) (n : Nat) : Lines := linesAfterAll ls (put v n)

@[simp] theorem linesAfterAll_put (ls : Lines) (v : Byte) (n : Nat) :
    linesAfterAll ls (put v n) = putLines ls v n := rfl

@[simp] theorem putLines_zero (ls : Lines) (v : Byte) : putLines ls v 0 = ls := rfl

theorem putLines_succ (ls : Lines) (v : Byte) (n : Nat) :
    putLines ls v (n + 1) = (putLines ls v n).setLat (.d n) (Level.ofBit (v.getLsbD n)) := by
  simp [putLines, put, List.range_succ, linesAfterAll_append, Stmt.linesAfter]

@[simp] theorem putLines_e (ls : Lines) (v : Byte) (n : Nat) : (putLines ls v n).e = ls.e := by
  induction n with
  | zero => rfl
  | succ n ih => rw [putLines_succ, Lines.setLat_d_e, ih]

@[simp] theorem putLines_rs (ls : Lines) (v : Byte) (n : Nat) : (putLines ls v n).rs = ls.rs := by
  induction n with
  | zero => rfl
  | succ n ih => rw [putLines_succ, Lines.setLat_d_rs, ih]

@[simp] theorem putLines_rw (ls : Lines) (v : Byte) (n : Nat) : (putLines ls v n).rw = ls.rw := by
  induction n with
  | zero => rfl
  | succ n ih => rw [putLines_succ, Lines.setLat_d_rw, ih]

@[simp] theorem putLines_length (ls : Lines) (v : Byte) (n : Nat) :
    (putLines ls v n).data.length = ls.data.length := by
  induction n with
  | zero => rfl
  | succ n ih => rw [putLines_succ, Lines.setLat_data_length, ih]

@[simp] theorem putLines_dir (ls : Lines) (v : Byte) (n : Nat) (l : Line) :
    ((putLines ls v n).get l).dir = (ls.get l).dir := by
  induction n with
  | zero => rfl
  | succ n ih => rw [putLines_succ, Lines.get_setLat_dir, ih]

/-- A line PUT drives (R89). -/
theorem putLines_get (ls : Lines) (v : Byte) (n i : Nat) (hi : i < n) (hn : n ≤ ls.data.length) :
    (putLines ls v n).get (.d i) = ⟨(ls.get (.d i)).dir, some (Level.ofBit (v.getLsbD i))⟩ := by
  induction n with
  | zero => omega
  | succ n ih =>
    rw [putLines_succ]
    by_cases h : i = n
    · subst h
      rw [Lines.get_setLat_same _ _ _ (by simp [Line.inSet]; omega)]
      simp
    · rw [Lines.get_setLat_other _ _ _ _ (by simp; omega)]
      exact ih (by omega) (by omega)

/-- A line PUT does not drive. -/
theorem putLines_get_other (ls : Lines) (v : Byte) (n : Nat) (l : Line) (h : ∀ i < n, l ≠ .d i) :
    (putLines ls v n).get l = ls.get l := by
  induction n with
  | zero => rfl
  | succ n ih =>
    rw [putLines_succ, Lines.get_setLat_other _ _ _ _ (fun e => h n (by omega) e.symm)]
    exact ih fun i hi => h i (by omega)

/-- Two line sets with the same control lines and, index by index, the same data lines are equal. -/
theorem Lines.ext_get (a b : Lines) (he : a.e = b.e) (hrs : a.rs = b.rs) (hrw : a.rw = b.rw)
    (hlen : a.data.length = b.data.length) (h : ∀ i < a.data.length, a.get (.d i) = b.get (.d i)) :
    a = b := by
  have hd : a.data = b.data := by
    refine List.ext_getElem hlen fun i h1 h2 => ?_
    have := h i h1
    simpa [Lines.get, h1, h2] using this
  cases a; cases b; simp_all

/-- The first `n` data lines configured one after another. -/
theorem foldl_setDir (ls : Lines) (dir : LineDir) (n : Nat) (hn : n ≤ ls.data.length) :
    let a := (List.range n).foldl (fun a i => a.setDir (.d i) dir) ls
    a.e = ls.e ∧ a.rs = ls.rs ∧ a.rw = ls.rw ∧ a.data.length = ls.data.length ∧
      ∀ i < ls.data.length,
        a.get (.d i) = if i < n then ⟨dir, (ls.get (.d i)).lat⟩ else ls.get (.d i) := by
  induction n with
  | zero => simp
  | succ n ih =>
    obtain ⟨h1, h2, h3, h4, h5⟩ := ih (by omega)
    simp only [List.range_succ, List.foldl_append, List.foldl_cons, List.foldl_nil]
    refine ⟨by simp [h1], by simp [h2], by simp [h3], by simp [h4], fun i hi => ?_⟩
    by_cases h : i = n
    · subst h
      rw [Lines.get_setDir_same _ _ _ (by simp [Line.inSet, h4, hi])]
      simp [h5 i hi]
    · rw [Lines.get_setDir_other _ _ _ _ (by simpa using fun e => h e.symm), h5 i hi]
      by_cases h' : i < n
      · simp [h', Nat.lt_succ_of_lt h']
      · simp [h', show ¬ i < n + 1 by omega]

/-- All data lines configured, in the form of a map over them (40_bus_transport R75, 70_reset R141). -/
theorem foldl_setDir_all (ls : Lines) (dir : LineDir) (n : Nat) (hn : n = ls.data.length) :
    (List.range n).foldl (fun a i => a.setDir (.d i) dir) ls =
      { ls with data := ls.data.map fun l => ⟨dir, l.lat⟩ } := by
  obtain ⟨h1, h2, h3, h4, h5⟩ := foldl_setDir ls dir n (by omega)
  refine Lines.ext_get _ _ h1 h2 h3 (by simpa using h4) fun i hi => ?_
  rw [h4] at hi
  rw [h5 i hi, if_pos (by omega)]
  simp [Lines.get, hi]

/-- READ's reconfiguration loops make every data line an input and keep its latch (R75, 20_memory R37). -/
theorem linesAfterAll_dataLinesIn (ls : Lines) (c : Cfg) (h : c.n = ls.data.length) :
    linesAfterAll ls (dataLinesIn c) = { ls with data := ls.data.map fun l => ⟨.input, l.lat⟩ } := by
  rw [← foldl_setDir_all ls .input c.n h]
  simp [linesAfterAll, dataLinesIn, List.foldl_map, Stmt.linesAfter]

/-- A line set whose data lines all have a direction already keeps it. -/
theorem Lines.map_dir_of_all (ls : Lines) (dir : LineDir) (h : ∀ l ∈ ls.data, l.dir = dir) :
    { ls with data := ls.data.map fun l => ⟨dir, l.lat⟩ } = ls := by
  have : (ls.data.map fun l => (⟨dir, l.lat⟩ : LineState)) = ls.data := by
    conv_rhs => rw [← List.map_id ls.data]
    refine List.map_congr_left fun l hl => ?_
    have := h l hl
    cases l; simp_all
  rw [this]

/-- One read cycle leaves `E` low and touches no other line (R76, R77). -/
@[simp] theorem linesAfterAll_readCycle (ls : Lines) (c : Cfg) (n : Nat) :
    linesAfterAll ls (readCycle c n) = ls.setLat .e .low := by
  simp [readCycle, linesAfterAll_append, Stmt.linesAfter]

@[simp] theorem linesAfterAll_readUnit (ls : Lines) (c : Cfg) :
    linesAfterAll ls (readUnitStmts c) = ls.setLat .e .low := by
  unfold readUnitStmts
  split <;> simp [linesAfterAll_append, Stmt.linesAfter]

theorem linesAfterAll_readUnits (ls : Lines) (c : Cfg) (k : Nat) :
    linesAfterAll ls (List.replicate k (readUnitStmts c)).flatten =
      if k = 0 then ls else ls.setLat .e .low := by
  induction k generalizing ls with
  | zero => rfl
  | succ k ih =>
    simp only [List.replicate_succ, List.flatten_cons, linesAfterAll_append, linesAfterAll_readUnit, ih]
    by_cases h : k = 0 <;> simp [h]

/-! ### Mode and direction -/

/-- Whether a statement sets the mode or the direction. -/
def Stmt.setsMode : Stmt → Bool
  | .setRsMode _ => true
  | .setDir _ => true
  | _ => false

theorem setsMode_hold (t : Nat) : ∀ st ∈ hold t, st.setsMode = false := by
  unfold hold; split <;> simp [Stmt.setsMode]

theorem setsMode_get (n : Nat) : ∀ st ∈ get n, st.setsMode = false := by
  intro st hst
  simp only [get, List.mem_cons, List.mem_map] at hst
  rcases hst with rfl | ⟨i, -, rfl⟩ <;> rfl

theorem setsMode_readCycle (c : Cfg) (n : Nat) : ∀ st ∈ readCycle c n, st.setsMode = false := by
  intro st hst
  simp only [readCycle, List.cons_append, List.mem_cons, List.mem_append] at hst
  rcases hst with rfl | (h | h) | rfl | h
  · rfl
  · exact setsMode_hold _ _ h
  · exact setsMode_get _ _ h
  · rfl
  · exact setsMode_hold _ _ h

theorem setsMode_readUnit (c : Cfg) : ∀ st ∈ readUnitStmts c, st.setsMode = false := by
  intro st hst
  unfold readUnitStmts at hst
  split at hst <;> simp only [List.mem_append, List.mem_cons,
    List.not_mem_nil, or_false] at hst
  · rcases hst with h | rfl
    · exact setsMode_readCycle _ _ _ h
    · rfl
  · rcases hst with (h | rfl | h) | rfl
    · exact setsMode_readCycle _ _ _ h
    · rfl
    · exact setsMode_readCycle _ _ _ h
    · rfl

/-- No statement of WRITE, WRNIB or READ sets the mode (10_state R19). -/
theorem modeAfter_stmtsOf (c : Cfg) (i : Instr) (hi : ∀ b, i ≠ .setmode b) :
    ∀ st ∈ stmtsOf c i, ∀ m, st.modeAfter m = m := by
  intro st hst m
  cases st with
  | setRsMode m' =>
    exfalso
    rcases i with b | p | p | (_ | n)
    · exact hi b rfl
    · simp only [stmtsOf, writeStmts, List.mem_cons, List.mem_flatMap] at hst
      rcases hst with h | ⟨v, -, h⟩
      · cases h
      · unfold writeByteStmts tapIfAll at h
        split at h <;> (try split at h) <;> simp [put, pulse] at h
    · simp only [stmtsOf, wrnibStmts, List.mem_append, List.mem_flatMap] at hst
      rcases hst with (h | ⟨v, -, h⟩) | h
      · split at h <;> simp at h
      · unfold wrnibElemStmts tapIfAll at h
        split at h <;> simp [put, pulse] at h
      · simp [pulse] at h
    · simp [stmtsOf, readStmts] at hst
    · simp only [stmtsOf, readStmts, dataLinesIn, List.mem_cons, List.mem_append, List.mem_map,
        List.mem_flatten, List.mem_replicate] at hst
      rcases hst with ((h | ⟨_, _, h⟩) | h | ⟨l, ⟨_, rfl⟩, h⟩) | ⟨_, _, h⟩
      all_goals first | cases h | skip
      exact absurd (setsMode_readUnit c _ h) (by simp [Stmt.setsMode])
  | _ => rfl

/-- No statement of SETMODE, WRITE or WRNIB sets the direction (10_state R21). -/
theorem dirAfter_stmtsOf (c : Cfg) (i : Instr) (hi : ∀ n, i ≠ .read n) :
    ∀ st ∈ stmtsOf c i, ∀ d, st.dirAfter d = d := by
  intro st hst d
  cases st with
  | setDir d' =>
    exfalso
    rcases i with b | p | p | n
    · simp [stmtsOf, setmodeStmts] at hst
    · simp only [stmtsOf, writeStmts, List.mem_cons, List.mem_flatMap] at hst
      rcases hst with h | ⟨v, -, h⟩
      · cases h
      · unfold writeByteStmts tapIfAll at h
        split at h <;> (try split at h) <;> simp [put, pulse] at h
    · simp only [stmtsOf, wrnibStmts, List.mem_append, List.mem_flatMap] at hst
      rcases hst with (h | ⟨v, -, h⟩) | h
      · split at h <;> simp at h
      · unfold wrnibElemStmts tapIfAll at h
        split at h <;> simp [put, pulse] at h
      · simp [pulse] at h
    · exact hi n rfl
  | _ => rfl

/-- READ of a positive length leaves `DIR` at `Input` (R75). -/
theorem foldl_dirAfter_read (c : Cfg) (n : Nat) (d : LineDir) :
    (readStmts c (n + 1)).foldl Stmt.dirAfter d = .input := by
  have key : ∀ l : List Stmt, (∀ st ∈ l, ∀ d, st = .setDir d → d = .input) → ∀ d, d = .input →
      l.foldl Stmt.dirAfter d = .input := by
    intro l
    induction l with
    | nil => intro _ d hd; exact hd
    | cons st l ih =>
      intro h d hd
      refine ih (fun st' hst' => h st' (by simp [hst'])) _ ?_
      cases st with
      | setDir d' => exact h _ (by simp) d' rfl
      | _ => exact hd
  have hdata : ∀ st ∈ dataLinesIn c, ∀ d, st = .setDir d → d = .input := by
    intro st hst d h; subst h; simp [dataLinesIn] at hst
  have hunits : ∀ st ∈ (List.replicate (n + 1) (readUnitStmts c)).flatten, ∀ d, st = .setDir d →
      d = .input := by
    intro st hst d h
    subst h
    simp only [List.mem_flatten, List.mem_replicate] at hst
    obtain ⟨l, ⟨-, rfl⟩, h⟩ := hst
    exact absurd (setsMode_readUnit c _ h) (by simp [Stmt.setsMode])
  simp only [readStmts, List.cons_append, List.foldl_cons, List.foldl_append, List.append_assoc]
  exact key _ hdata _ (key _ hunits _ rfl)

end Sys2Proof.Machine
end

