-- ==== Sys2Proof/Laws/Step.lean ====
section
/-! SUPPORT. What one step can do, said once: the end of a request, the caller's move, and the cases of a
step. -/

namespace Sys2Proof.Machine

/-! ### The end of a request -/

/-- Ending a request only appends an `End`, sets `RESULT` and idles the sequencer (R71). -/
theorem closeRequest_spec (s : State) (a : Active) (h : s.seq = .busy a) :
    closeRequest s = s.respond (resultOf a.rbuf a.req) := by
  simp only [closeRequest, h, endRequest_eq]

@[simp] theorem closeRequest_seq (s : State) : (closeRequest s).seq = .idle := by
  cases h : s.seq with
  | idle => simp [closeRequest, h]
  | busy a => rw [closeRequest_spec s a h]; rfl

/-- A transport that has finished its request is idle (R71). -/
@[simp] theorem finish_seq (s : State) : (finish s).seq = .idle := by
  cases h : s.seq with
  | idle => simp [finish, h]
  | busy a => simp [finish, h]

/-- What is left of a request in progress, run to its end: its remaining statements, then `respond`. -/
theorem finish_of_busy (s : State) (a : Active) (h : s.seq = .busy a) :
    ∃ b : Active, b.req = a.req ∧
      finish s = (runStmts s ((stmtsOf s.cfg a.req).drop a.pos)).respond (resultOf b.rbuf a.req) := by
  obtain ⟨b, hb, hreq, -⟩ := runStmts_busy s ((stmtsOf s.cfg a.req).drop a.pos) a h
  refine ⟨b, hreq, ?_⟩
  simp only [finish, h]
  rw [closeRequest_spec _ b hb, hreq]

/-- Every instruction answers a next state, idle (70_reset_and_hazards R136). -/
theorem exec_next (i : Instr) (s : State) : ∃ t, exec i s = .next t ∧ t.seq = .idle := by
  cases i with
  | setmode b => exact ⟨_, rfl, finish_seq _⟩
  | write b => exact ⟨_, rfl, finish_seq _⟩
  | read b => exact ⟨_, rfl, finish_seq _⟩
  | wrnib p =>
    simp only [exec, execWrnib]
    cases s.cfg.width
    · exact ⟨_, rfl, finish_seq _⟩
    · exact ⟨_, rfl, rfl⟩

/-- What an instruction does to an idle transport: its request, or for WRNIB in Eight mode the refusal. -/
theorem exec_cases (i : Instr) (s : State) :
    exec i s = .next (perform i s) ∨
      ∃ p, i = .wrnib p ∧ s.cfg.width = .eight ∧
        exec i s = .next ((finish s).refuse (encodeDesc s.cfg i) .wrnibEightMode) := by
  cases i with
  | setmode b => exact .inl rfl
  | write b => exact .inl rfl
  | read b => exact .inl rfl
  | wrnib p =>
    cases h : s.cfg.width
    · exact .inl (by simp [exec, execWrnib, h])
    · exact .inr ⟨p, rfl, rfl, by simp [exec, execWrnib, h]⟩

/-! ### The caller's move -/

/-- `CfgOut` on the first `n` data lines, ascending (70_reset_and_hazards R141). -/
theorem cfgOutAll_spec (s : State) (n : Nat) :
    let t := (List.range n).foldl (fun s i => s.cfgOut (.d i)) s
    t.seq = s.seq ∧ t.rsMode = s.rsMode ∧ t.dir = s.dir ∧ t.result = s.result ∧ t.cfg = s.cfg ∧
      t.port = s.port ∧ t.env.oracle = s.env.oracle ∧
      t.lines = (List.range n).foldl (fun a i => a.setDir (.d i) .output) s.lines ∧ s.now ≤ t.now ∧
      ∃ evs, t.trace = s.trace ++ evs ∧
        evs.map (fun ev => ev.kind) = (List.range n).map (fun i => .cfgOut (.d i)) ∧
        replayLines s.lines evs = t.lines ∧ timed s.now evs ∧ ∀ ev ∈ evs, ev.t ≤ t.now := by
  induction n with
  | zero => simp [timed]
  | succ n ih =>
    obtain ⟨h1, h2, h3, h4, h5, h6, h7, h8, h9, evs, h10, h11, h12, h13, h14⟩ := ih
    simp only [List.range_succ, List.foldl_append, List.foldl_cons, List.foldl_nil]
    refine ⟨by simpa, by simpa, by simpa, by simpa, by simpa, by simpa, by simpa, by simp [h8],
      by simp; omega, evs ++ [⟨_, .cfgOut (.d n)⟩], by simp [h10]; rfl, by simp [h11], ?_, ?_, ?_⟩
    · simp [h12, Lines.after]
    · obtain ⟨ha, hb⟩ := h13
      refine ⟨?_, ?_⟩
      · intro ev hev
        rcases List.mem_append.mp hev with h | h
        · exact ha ev h
        · simp at h; simpa [h] using h9
      · rw [List.pairwise_append]
        refine ⟨hb, by simp, ?_⟩
        intro a hA b hB
        simp at hB
        simpa [hB] using h14 a hA
    · intro ev hev
      rcases List.mem_append.mp hev with h | h
      · have := h14 ev h
        simp; omega
      · simp at h; simp [h]

/-! ### The cases of a step -/

/-- Everything a step can do: go on with a request, wait for one, take the caller's move, run a decoded
request, or refuse one. -/
theorem step_cases (s t : State) (h : step s = .next t) :
    (∃ a, s.seq = .busy a ∧ t = finish s) ∨
    (s.seq = .idle ∧ (s.port = [] ∨ ∃ r rest, s.port = .request r :: rest ∧ r.framed s.cfg = false) ∧
      t = s) ∨
    (∃ rest, s.seq = .idle ∧ s.port = .restoreOut :: rest ∧ t = restoreOut (s.withPort rest)) ∨
    (∃ r rest i, s.seq = .idle ∧ s.port = .request r :: rest ∧ r.framed s.cfg = true ∧
      decodeRequest s.cfg r = .ok i ∧ exec i (s.withPort rest) = .next t) ∨
    (∃ r rest reason, s.seq = .idle ∧ s.port = .request r :: rest ∧ r.framed s.cfg = true ∧
      decodeRequest s.cfg r = .error reason ∧ t = (s.withPort rest).refuse r.desc reason) := by
  cases hs : s.seq with
  | busy a =>
    simp only [step, fetch, hs, Host.Outcome.next.injEq] at h
    exact .inl ⟨a, rfl, h.symm⟩
  | idle =>
    match hp : s.port with
    | [] =>
      simp only [step, fetch, hs, hp, Host.Outcome.next.injEq] at h
      exact .inr (.inl ⟨rfl, .inl rfl, h.symm⟩)
    | .restoreOut :: rest =>
      simp only [step, fetch, hs, hp, Host.Outcome.next.injEq] at h
      exact .inr (.inr (.inl ⟨rest, rfl, rfl, h.symm⟩))
    | .request r :: rest =>
      cases hf : r.framed s.cfg with
      | false =>
        simp only [step, fetch, hs, hp, hf, Bool.false_eq_true, if_false, Host.Outcome.next.injEq] at h
        exact .inr (.inl ⟨rfl, .inr ⟨r, rest, rfl, hf⟩, h.symm⟩)
      | true =>
        cases hd : decodeRequest s.cfg r with
        | ok i =>
          simp only [step, fetch, hs, hp, hf, hd, if_true] at h
          exact .inr (.inr (.inr (.inl ⟨r, rest, i, rfl, rfl, hf, hd, h⟩)))
        | error reason =>
          simp only [step, fetch, hs, hp, hf, hd, if_true, Host.Outcome.next.injEq] at h
          exact .inr (.inr (.inr (.inr ⟨r, rest, reason, rfl, rfl, hf, hd, h.symm⟩)))

end Sys2Proof.Machine
end

