-- ==== Sys2Proof/Laws/Extends.lean ====
section
/-! SUPPORT. Every transition extends the state before it: the configuration stays, time does not go back,
and the trace gains events, in time order, that explain what became of the lines. -/

namespace Sys2Proof.Machine

/-- `t` comes after `s`: see the file's header (10_state R13, R26, R27). -/
structure Extends (s t : State) : Prop where
  cfg : t.cfg = s.cfg
  oracle : t.env.oracle = s.env.oracle
  length : t.lines.data.length = s.lines.data.length
  now : s.now ≤ t.now
  events : ∃ evs, t.trace = s.trace ++ evs ∧ replayLines s.lines evs = t.lines ∧ timed s.now evs ∧
    ∀ ev ∈ evs, ev.t ≤ t.now

theorem timed_nil (t : Nat) : timed t [] := by simp [timed]

theorem timed_singleton (t : Nat) (k : EventKind) : timed t [⟨t, k⟩] := by simp [timed]

/-- Events up to `u`, then events from `u` on. -/
theorem timed_append {t u : Nat} {a b : List Event} (ha : timed t a) (hu : ∀ ev ∈ a, ev.t ≤ u)
    (hb : timed u b) (htu : t ≤ u) : timed t (a ++ b) := by
  refine ⟨fun ev hev => ?_, ?_⟩
  · rcases List.mem_append.mp hev with h | h
    · exact ha.1 ev h
    · exact htu.trans (hb.1 ev h)
  · rw [List.pairwise_append]
    exact ⟨ha.2, hb.2, fun x hx y hy => (hu x hx).trans (hb.1 y hy)⟩

@[simp] theorem replayLines_length (ls : Lines) (evs : List Event) :
    (replayLines ls evs).data.length = ls.data.length := by
  induction evs generalizing ls with
  | nil => rfl
  | cons ev evs ih => simp [ih]

theorem extends_of_events {s t : State} (hc : t.cfg = s.cfg) (ho : t.env.oracle = s.env.oracle)
    (hn : s.now ≤ t.now) (evs : List Event) (ht : t.trace = s.trace ++ evs)
    (hr : replayLines s.lines evs = t.lines) (hti : timed s.now evs) (hl : ∀ ev ∈ evs, ev.t ≤ t.now) :
    Extends s t :=
  ⟨hc, ho, by rw [← hr, replayLines_length], hn, evs, ht, hr, hti, hl⟩

/-- A state that differs in nothing an extension speaks of. -/
theorem extends_of_same {s t : State} (hc : t.cfg = s.cfg) (he : t.env.oracle = s.env.oracle)
    (hn : t.now = s.now) (ht : t.trace = s.trace) (hl : t.lines = s.lines) : Extends s t :=
  extends_of_events hc he (by omega) [] (by simpa) (by simp [hl]) (timed_nil _) (by simp)

theorem extends_refl (s : State) : Extends s s := extends_of_same rfl rfl rfl rfl rfl

theorem extends_trans {s t u : State} (h : Extends s t) (k : Extends t u) : Extends s u := by
  obtain ⟨e, a5, a6, a7, a8⟩ := h.events
  obtain ⟨f, b5, b6, b7, b8⟩ := k.events
  refine ⟨k.cfg.trans h.cfg, k.oracle.trans h.oracle, k.length.trans h.length, h.now.trans k.now,
    e ++ f, by simp [b5, a5], by simp [a6, b6], timed_append a7 a8 b7 h.now, fun ev hev => ?_⟩
  rcases List.mem_append.mp hev with h' | h'
  · exact (a8 ev h').trans k.now
  · exact b8 ev h'

theorem extends_runStmts (s : State) (l : List Stmt) : Extends s (runStmts s l) :=
  extends_of_events (by simp) (by simp) (runStmts_now_le _ _) _ (runStmts_trace s l)
    (by simp [replayLines_eventsOf]) (eventsOf_timed s l) fun ev h => (eventsOf_within s l ev h).2

theorem extends_respond (s : State) (r : Result) : Extends s (s.respond r) :=
  extends_of_events rfl rfl (le_refl _) [⟨s.now, .endReq r.count r.status⟩] rfl rfl
    (timed_singleton _ _) (by simp)

theorem extends_accept (s : State) (i : Instr) : Extends s (s.accept i) :=
  extends_of_events rfl rfl (le_refl _) [⟨s.now, .beginReq (encodeDesc s.cfg i)⟩] rfl rfl
    (timed_singleton _ _) (by simp)

theorem extends_refuse (s : State) (q : Desc) (reason : RefuseReason) :
    Extends s (s.refuse q reason) :=
  extends_trans
    (extends_of_events (s := s) (t := s.emit (.beginReq q)) rfl rfl (le_refl _) [⟨s.now, .beginReq q⟩]
      rfl rfl (timed_singleton _ _) (by simp))
    (extends_respond _ _)

theorem extends_finish (s : State) : Extends s (finish s) := by
  cases h : s.seq with
  | idle => rw [finish_idle s h]; exact extends_refl s
  | busy a =>
    obtain ⟨b, -, hb⟩ := finish_of_busy s a h
    rw [hb]
    exact extends_trans (extends_runStmts _ _) (extends_respond _ _)

theorem extends_exec (i : Instr) (s t : State) (h : exec i s = .next t) : Extends s t := by
  rcases exec_cases i s with h' | ⟨p, -, -, h'⟩ <;> rw [h'] at h <;> cases h
  · exact extends_trans (extends_finish s) (extends_trans (extends_accept _ i) (extends_finish _))
  · exact extends_trans (extends_finish s) (extends_refuse _ _ _)

theorem extends_restoreOut (s : State) : Extends s (restoreOut s) := by
  obtain ⟨-, -, -, -, h5, -, h7, -, h9, evs, h10, -, h12, h13, h14⟩ := cfgOutAll_spec s s.cfg.n
  exact extends_of_events h5 h7 h9 evs h10 h12 h13 h14

/-- Every step extends the state. -/
theorem extends_step (s t : State) (h : step s = .next t) : Extends s t := by
  have hp : ∀ rest, Extends s (s.withPort rest) := fun rest => extends_of_same rfl rfl rfl rfl rfl
  rcases step_cases s t h with ⟨a, -, rfl⟩ | ⟨-, -, rfl⟩ | ⟨rest, -, -, rfl⟩ |
    ⟨r, rest, i, -, -, -, -, he⟩ | ⟨r, rest, reason, -, -, -, -, rfl⟩
  · exact extends_finish s
  · exact extends_refl _
  · exact extends_trans (hp rest) (extends_restoreOut _)
  · exact extends_trans (hp rest) (extends_exec _ _ _ he)
  · exact extends_trans (hp rest) (extends_refuse _ _ _)

/-- What an idle transport's request does to everything but the mode, the direction and the answer. -/
theorem perform_effect (i : Instr) (s : State) (h : s.seq = .idle) :
    (perform i s).cfg = s.cfg ∧ (perform i s).port = s.port ∧ (perform i s).seq = .idle ∧
      (perform i s).lines = linesAfterAll s.lines (stmtsOf s.cfg i) ∧
      (perform i s).rsMode = (stmtsOf s.cfg i).foldl Stmt.modeAfter s.rsMode ∧
      (perform i s).dir = (stmtsOf s.cfg i).foldl Stmt.dirAfter s.dir ∧
      s.now + minTimeAll (stmtsOf s.cfg i) ≤ (perform i s).now ∧
      (perform i s).trace = s.trace ++
        (⟨s.now, .beginReq (encodeDesc s.cfg i)⟩ :: eventsOf (s.accept i) (stmtsOf s.cfg i) ++
          [⟨(perform i s).now, .endReq (perform i s).result.count (perform i s).result.status⟩]) := by
  obtain ⟨a, -, -, hp⟩ := perform_spec i s h
  rw [hp]
  refine ⟨by simp, by simp, by simp, by simp, by simp [runStmts_rsMode], by simp [runStmts_dir], ?_, ?_⟩
  · simpa using runStmts_now (s.accept i) (stmtsOf s.cfg i)
  · simp [runStmts_trace]

/-- The units an idle transport's request latches are those of its statements' events. -/
theorem latchedFrom_request (c : Cfg) (ls : Lines) (t u n : Nat) (q : Desc) (st : Status)
    (evs : List Event) :
    latchedFrom c ls (⟨t, .beginReq q⟩ :: evs ++ [⟨u, .endReq n st⟩]) = latchedFrom c ls evs := by
  rw [List.cons_append, latchedFrom_cons, latchedFrom_append, latchedFrom_cons]
  rw [latched_of_not_enableLow _ _ (by simp), latched_of_not_enableLow _ _ (by simp)]
  simp [Lines.after]

end Sys2Proof.Machine
end

