-- ==== Sys2Proof/Laws/Latch.lean ====
section
/-! SUPPORT. The lines that units leave behind, and what the display latches at a pulse, after a PUT and
over a list of units. -/

namespace Sys2Proof.Machine

/-! ### The lines after units -/

/-- The lines after one unit: its PUT and its PULSE (42_transcoding R93). -/
def unitLines (n : Nat) (ls : Lines) (u : Byte) : Lines := (putLines ls u n).setLat .e .low

/-- The lines after units sent in order. -/
def unitsLines (n : Nat) (ls : Lines) (us : List Byte) : Lines := us.foldl (unitLines n) ls

@[simp] theorem unitsLines_nil (n : Nat) (ls : Lines) : unitsLines n ls [] = ls := rfl
@[simp] theorem unitsLines_cons (n : Nat) (ls : Lines) (u : Byte) (us : List Byte) :
    unitsLines n ls (u :: us) = unitsLines n (unitLines n ls u) us := rfl
theorem unitsLines_append (n : Nat) (ls : Lines) (us vs : List Byte) :
    unitsLines n ls (us ++ vs) = unitsLines n (unitsLines n ls us) vs := List.foldl_append

@[simp] theorem unitsLines_rs (n : Nat) (ls : Lines) (us : List Byte) : (unitsLines n ls us).rs = ls.rs := by
  induction us generalizing ls with
  | nil => rfl
  | cons u us ih => simp [ih, unitLines]

@[simp] theorem unitsLines_rw (n : Nat) (ls : Lines) (us : List Byte) : (unitsLines n ls us).rw = ls.rw := by
  induction us generalizing ls with
  | nil => rfl
  | cons u us ih => simp [ih, unitLines]

@[simp] theorem unitsLines_length (n : Nat) (ls : Lines) (us : List Byte) :
    (unitsLines n ls us).data.length = ls.data.length := by
  induction us generalizing ls with
  | nil => rfl
  | cons u us ih => simp [ih, unitLines]

@[simp] theorem unitsLines_dir (n : Nat) (ls : Lines) (us : List Byte) (l : Line) :
    ((unitsLines n ls us).get l).dir = (ls.get l).dir := by
  induction us generalizing ls with
  | nil => rfl
  | cons u us ih => simp [ih, unitLines]

theorem unitsLines_e (n : Nat) (ls : Lines) (us : List Byte) :
    (unitsLines n ls us).e = if us = [] then ls.e else ⟨ls.e.dir, some .low⟩ := by
  induction us generalizing ls with
  | nil => rfl
  | cons u us ih =>
    by_cases h : us = [] <;> simp [ih, unitLines, h]

/-- After units the data latches hold the last of them (10_state R31). -/
theorem unitsLines_get (n : Nat) (ls : Lines) (us : List Byte) (i : Nat) (hi : i < n)
    (hn : n ≤ ls.data.length) :
    (unitsLines n ls us).get (.d i) = match us.getLast? with
      | none => ls.get (.d i)
      | some u => ⟨(ls.get (.d i)).dir, some (Level.ofBit (u.getLsbD i))⟩ := by
  rcases List.eq_nil_or_concat us with rfl | ⟨vs, u, rfl⟩
  · rfl
  · simp only [List.concat_eq_append, unitsLines_append, unitsLines_cons, unitsLines_nil, List.getLast?_append,
      List.getLast?_singleton, Option.some_or]
    rw [unitLines, Lines.get_setLat_other _ _ _ _ (by simp),
      putLines_get _ _ _ _ hi (by simpa using hn), unitsLines_dir]

/-- One byte of WRITE leaves the lines its units leave (40_bus_transport R73). -/
theorem linesAfterAll_writeByte (ls : Lines) (c : Cfg) (v : Byte) :
    linesAfterAll ls (writeByteStmts c v) = unitsLines c.width.lines ls (units c.width v) := by
  unfold writeByteStmts
  cases c.width <;>
    simp [linesAfterAll_append, Stmt.linesAfter, units, unitLines, LineWidth.lines]

/-- WRITE: the `RW` drive, then the units of its bytes in order (R73). -/
theorem linesAfterAll_write (ls : Lines) (c : Cfg) (p : List Byte) :
    linesAfterAll ls (writeStmts c p) =
      unitsLines c.width.lines (ls.setLat .rw c.rwWriteLevel) (p.flatMap (units c.width)) := by
  simp only [writeStmts, linesAfterAll_cons, Stmt.linesAfter]
  generalize ls.setLat .rw c.rwWriteLevel = a
  induction p generalizing a with
  | nil => rfl
  | cons v p ih => simp [linesAfterAll_append, linesAfterAll_writeByte, ih, unitsLines_append]

/-- The `RW` drive of WRNIB, where it has one (R74, D8). -/
def wrnibStart (c : Cfg) (ls : Lines) : Lines :=
  if c.wnDrivesRw then ls.setLat .rw c.rwWriteLevel else ls

/-- WRNIB: its optional `RW` drive, one unit per element, and the trailing pulse (R74). -/
theorem linesAfterAll_wrnib (ls : Lines) (c : Cfg) (p : List Byte) :
    linesAfterAll ls (wrnibStmts c p) =
      (unitsLines 4 (wrnibStart c ls) (p.map loNibble)).setLat .e .low := by
  have key : ∀ a : Lines, linesAfterAll a (p.flatMap (wrnibElemStmts c)) = unitsLines 4 a (p.map loNibble) := by
    intro a
    induction p generalizing a with
    | nil => rfl
    | cons v p ih =>
      simp [linesAfterAll_append, wrnibElemStmts, ih, unitLines]
  simp only [wrnibStmts, linesAfterAll_append, key, linesAfterAll_pulse]
  unfold wrnibStart
  split <;> rfl

/-- READ of a positive length: `RW` at the read level, every data line an input with its latch kept, `E`
low (R75). -/
theorem linesAfterAll_read (ls : Lines) (c : Cfg) (n : Nat) (h : c.n = ls.data.length) :
    linesAfterAll ls (readStmts c (n + 1)) =
      { data := ls.data.map fun l => ⟨.input, l.lat⟩, e := ⟨ls.e.dir, some .low⟩, rs := ls.rs,
        rw := ⟨ls.rw.dir, some c.rwReadLevel⟩ } := by
  simp only [readStmts, List.cons_append, linesAfterAll_cons, linesAfterAll_append, Stmt.linesAfter,
    linesAfterAll_readUnits]
  rw [linesAfterAll_dataLinesIn _ c (by simpa using h), if_neg (by simp),
    linesAfterAll_dataLinesIn _ c (by simpa using h)]
  simp [Lines.setLat, Lines.set, Lines.get]

/-! ### The bus beside `E` -/

@[simp] theorem bus_setLat_e (c : Cfg) (ls : Lines) (v : Level) (i : Nat) :
    bus c (ls.setLat .e v) (.d i) = bus c ls (.d i) := rfl
@[simp] theorem bus_setLat_e_rs (c : Cfg) (ls : Lines) (v : Level) :
    bus c (ls.setLat .e v) .rs = bus c ls .rs := rfl
@[simp] theorem busData_setLat_e (c : Cfg) (ls : Lines) (v : Level) :
    busData c (ls.setLat .e v) = busData c ls := rfl
@[simp] theorem cycleKind_setLat_e (c : Cfg) (ls : Lines) (v : Level) :
    cycleKind c (ls.setLat .e v) = cycleKind c ls := rfl

/-- The cycle type depends on `RW` alone (20_memory R43). -/
theorem cycleKind_of_rw (c : Cfg) (a b : Lines) (h : a.rw = b.rw) : cycleKind c a = cycleKind c b := by
  simp [cycleKind, bus, h]

/-- The `rs` of a unit depends on `RS` alone. -/
theorem bus_rs_of_rs (c : Cfg) (a b : Lines) (h : a.rs = b.rs) : bus c a .rs = bus c b .rs := by
  simp [bus, h]

theorem cycleKind_write (c : Cfg) (ls : Lines) (h : ls.rw.lat = some c.rwWriteLevel) :
    cycleKind c ls = .write := by
  cases hl : c.rwWriteLevel <;> simp [cycleKind, bus, h, hl, BusLevel.ofLat, BusLevel.ofLevel, BusLevel.known]

theorem cycleKind_read (c : Cfg) (ls : Lines) (hc : c.rwReadLevel ≠ c.rwWriteLevel)
    (h : ls.rw.lat = some c.rwReadLevel) : cycleKind c ls = .read := by
  cases hl : c.rwReadLevel <;> cases hw : c.rwWriteLevel <;>
    simp_all [cycleKind, bus, BusLevel.ofLat, BusLevel.ofLevel, BusLevel.known]

theorem cycleKind_either (c : Cfg) (ls : Lines) (h : ls.rw.lat = none) : cycleKind c ls = .either := by
  simp [cycleKind, bus, h, BusLevel.ofLat, BusLevel.known]

/-- The content of the unit that an enable fall would latch under the lines as they stand (R43). -/
def unitNow (c : Cfg) (ls : Lines) : List (Bool × BusLevel × List BusLevel) := match cycleKind c ls with
  | .write => [(true, bus c ls .rs, busData c ls)]
  | .either => [(false, bus c ls .rs, busData c ls)]
  | .read => []

@[simp] theorem unitNow_setLat_e (c : Cfg) (ls : Lines) (v : Level) :
    unitNow c (ls.setLat .e v) = unitNow c ls := rfl

/-- The contents of the units latched over events. -/
def contents (c : Cfg) (ls : Lines) (evs : List Event) : List (Bool × BusLevel × List BusLevel) :=
  (latchedFrom c ls evs).map LatchedUnit.content

@[simp] theorem contents_nil (c : Cfg) (ls : Lines) : contents c ls [] = [] := rfl

theorem contents_append (c : Cfg) (ls : Lines) (a b : List Event) :
    contents c ls (a ++ b) = contents c ls a ++ contents c (replayLines ls a) b := by
  simp [contents, latchedFrom_append]

theorem contents_cons (c : Cfg) (ls : Lines) (ev : Event) (evs : List Event) :
    contents c ls (ev :: evs) =
      (if ev.kind = .drive .e .low ∧ ls.e.lat = some .high then unitNow c ls else []) ++
        contents c (ls.after ev.kind) evs := by
  simp only [contents, latchedFrom_cons, List.map_append]
  congr 1
  by_cases h1 : ev.kind = .drive .e .low
  · by_cases h2 : ls.e.lat = some .high
    · simp only [h1, h2, and_self, if_true, Seen.latched, Seen.isFall, Lines.get_e, decide_true, Bool.and_self,
        unitNow]
      cases cycleKind c ls <;> rfl
    · simp [Seen.latched, Seen.isFall, h1, h2]
  · simp [h1, latched_of_not_enableLow]

/-- Statements that drive `E` nowhere latch nothing. -/
theorem contents_quiet (c : Cfg) (ls : Lines) (s : State) (l : List Stmt)
    (h : ∀ st ∈ l, st ≠ .drive .e .low) : contents c ls (eventsOf s l) = [] := by
  induction l generalizing s ls with
  | nil => rfl
  | cons st l ih =>
    rw [eventsOf_cons, contents_append, ih _ _ fun st' hst' => h st' (by simp [hst'])]
    have hst := h st (by simp)
    cases st <;> (simp [stmtEvents, contents_cons]; try simp_all)

/-- PULSE latches one unit, and one more first if `E` was already high (41_enable_sequencer R83,
70_reset_and_hazards R124). -/
theorem contents_pulse (c : Cfg) (ls : Lines) (s : State) :
    contents c ls (eventsOf s (pulse c)) =
      (if ls.e.lat = some .high then unitNow c ls else []) ++ unitNow c ls := by
  simp [pulse, stmtEvents, contents_cons, Lines.after]

theorem put_quiet (v : Byte) (n : Nat) : ∀ st ∈ put v n, st ≠ .drive .e .low := by
  simp [put]

theorem tapIfAll_quiet (c : Cfg) (v : Byte) (w : Nat) : ∀ st ∈ tapIfAll c v w, st ≠ .drive .e .low := by
  unfold tapIfAll; split <;> simp

/-- The contents that units latch when sent one after another from lines with `E` not high. -/
def unitsContents (c : Cfg) (n : Nat) (ls : Lines) : List Byte → List (Bool × BusLevel × List BusLevel)
  | [] => []
  | u :: us => unitNow c (putLines ls u n) ++ unitsContents c n (unitLines n ls u) us

theorem unitsContents_append (c : Cfg) (n : Nat) (ls : Lines) (us vs : List Byte) :
    unitsContents c n ls (us ++ vs) = unitsContents c n ls us ++ unitsContents c n (unitsLines n ls us) vs := by
  induction us generalizing ls with
  | nil => rfl
  | cons u us ih => simp [unitsContents, ih]

/-- What one unit latches: PUT is quiet, and its PULSE latches the lines PUT left. -/
theorem contents_unit (c : Cfg) (ls : Lines) (s : State) (u : Byte) (n : Nat)
    (he : ls.e.lat ≠ some .high) :
    contents c ls (eventsOf s (put u n ++ pulse c)) = unitNow c (putLines ls u n) := by
  rw [eventsOf_append, contents_append, contents_quiet _ _ _ _ (put_quiet u n), replayLines_eventsOf,
    linesAfterAll_put, contents_pulse]
  simp [he]

theorem contents_writeByte (c : Cfg) (ls : Lines) (s : State) (v : Byte) (he : ls.e.lat ≠ some .high) :
    contents c ls (eventsOf s (writeByteStmts c v)) =
      unitsContents c c.width.lines ls (units c.width v) := by
  unfold writeByteStmts
  cases c.width
  · have hl : (.tap (hiNibble v) 4 :: put (hiNibble v) 4 ++ pulse c ++
        (.tap (loNibble v) 4 :: put (loNibble v) 4 ++ pulse c) : List Stmt) =
        [.tap (hiNibble v) 4] ++ ((put (hiNibble v) 4 ++ pulse c) ++
        ([.tap (loNibble v) 4] ++ (put (loNibble v) 4 ++ pulse c))) := by simp
    simp only [hl]
    rw [eventsOf_append, contents_append, contents_quiet _ _ _ _ (by simp), replayLines_eventsOf,
      eventsOf_append, contents_append, contents_unit _ _ _ _ _ (by simpa [Stmt.linesAfter] using he),
      replayLines_eventsOf, eventsOf_append, contents_append, contents_quiet _ _ _ _ (by simp),
      replayLines_eventsOf, contents_unit _ _ _ _ _ (by simp [Stmt.linesAfter, linesAfterAll_append])]
    simp [Stmt.linesAfter, linesAfterAll_append, units, unitsContents, LineWidth.lines, unitLines]
  · simp only [List.append_assoc]
    rw [eventsOf_append, contents_append, contents_quiet _ _ _ _ (tapIfAll_quiet c v 8), replayLines_eventsOf,
      linesAfterAll_tapIfAll, contents_unit _ _ _ _ _ he]
    simp [units, unitsContents, LineWidth.lines]

theorem contents_writeBytes (c : Cfg) (ls : Lines) (s : State) (p : List Byte) (he : ls.e.lat ≠ some .high) :
    contents c ls (eventsOf s (p.flatMap (writeByteStmts c))) =
      unitsContents c c.width.lines ls (p.flatMap (units c.width)) := by
  induction p generalizing ls s with
  | nil => rfl
  | cons v p ih =>
    rw [List.flatMap_cons, eventsOf_append, contents_append, contents_writeByte _ _ _ _ he,
      replayLines_eventsOf, linesAfterAll_writeByte, List.flatMap_cons, unitsContents_append, ih]
    rw [unitsLines_e]
    split <;> simp [he]

theorem contents_wrnibElems (c : Cfg) (ls : Lines) (s : State) (p : List Byte) (he : ls.e.lat ≠ some .high) :
    contents c ls (eventsOf s (p.flatMap (wrnibElemStmts c))) = unitsContents c 4 ls (p.map loNibble) := by
  induction p generalizing ls s with
  | nil => rfl
  | cons v p ih =>
    rw [List.flatMap_cons, eventsOf_append, contents_append, List.map_cons, unitsContents]
    congr 1
    · rw [wrnibElemStmts, List.append_assoc, eventsOf_append, contents_append,
        contents_quiet _ _ _ _ (tapIfAll_quiet c _ 4), replayLines_eventsOf, linesAfterAll_tapIfAll,
        contents_unit _ _ _ _ _ he]
      rfl
    · have hl : linesAfterAll ls (wrnibElemStmts c v) = unitLines 4 ls (loNibble v) := by
        simp [wrnibElemStmts, linesAfterAll_append, unitLines]
      rw [replayLines_eventsOf, hl, ih _ _ (by simp [unitLines])]

/-- The units an idle transport's WRITE latches, from lines with `E` not high. -/
theorem contents_write (c : Cfg) (ls : Lines) (s : State) (p : List Byte) (he : ls.e.lat ≠ some .high) :
    contents c ls (eventsOf s (writeStmts c p)) =
      unitsContents c c.width.lines (ls.setLat .rw c.rwWriteLevel) (p.flatMap (units c.width)) := by
  rw [writeStmts, ← List.singleton_append, eventsOf_append, contents_append,
    contents_quiet _ _ _ _ (by simp), replayLines_eventsOf, contents_writeBytes]
  · rfl
  · simpa [Stmt.linesAfter] using he

/-- The units an idle transport's WRNIB latches, from lines with `E` not high. -/
theorem contents_wrnib (c : Cfg) (ls : Lines) (s : State) (p : List Byte) (he : ls.e.lat ≠ some .high) :
    contents c ls (eventsOf s (wrnibStmts c p)) =
      unitsContents c 4 (wrnibStart c ls) (p.map loNibble) ++
        unitNow c (unitsLines 4 (wrnibStart c ls) (p.map loNibble)) := by
  have hq : ∀ st ∈ (if c.wnDrivesRw then [Stmt.drive .rw c.rwWriteLevel] else []),
      st ≠ .drive .e .low := by split <;> simp
  have hs : linesAfterAll ls (if c.wnDrivesRw then [Stmt.drive .rw c.rwWriteLevel] else []) =
      wrnibStart c ls := by unfold wrnibStart; split <;> rfl
  have he' : (wrnibStart c ls).e.lat ≠ some .high := by unfold wrnibStart; split <;> simpa using he
  have hl : linesAfterAll (wrnibStart c ls) (p.flatMap (wrnibElemStmts c)) =
      unitsLines 4 (wrnibStart c ls) (p.map loNibble) := by
    generalize wrnibStart c ls = a
    induction p generalizing a with
    | nil => rfl
    | cons v p ih => simp [linesAfterAll_append, wrnibElemStmts, ih, unitLines]
  have hf : (unitsLines 4 (wrnibStart c ls) (p.map loNibble)).e.lat ≠ some .high := by
    rw [unitsLines_e]; split <;> simp [he']
  rw [wrnibStmts, List.append_assoc, eventsOf_append, contents_append, contents_quiet _ _ _ _ hq,
    replayLines_eventsOf, hs, eventsOf_append, contents_append, contents_wrnibElems _ _ _ _ he',
    replayLines_eventsOf, hl, contents_pulse, if_neg hf]
  rfl

/-! ### The data lines of a unit -/

/-- On output data lines the bus shows the unit PUT drove (30_encoding R54, R55). -/
theorem busData_put_out (c : Cfg) (ls : Lines) (u : Byte) (h : c.n = ls.data.length)
    (hd : ∀ i < c.n, (ls.get (.d i)).dir = .output) :
    busData c (putLines ls u c.n) = unitOnBus u c.n := by
  simp only [busData, unitOnBus, bitLevels, List.map_map]
  refine List.map_congr_left fun i hi => ?_
  have hi := List.mem_range.mp hi
  simp [bus, putLines_get ls u c.n i hi (by omega), hd i hi, BusLevel.ofLat]

/-- On input data lines it shows nothing driven, or under `Drives` the unit (20_memory R42). -/
theorem busData_put_in (c : Cfg) (ls : Lines) (u : Byte) (h : c.n = ls.data.length)
    (hd : ∀ i < c.n, (ls.get (.d i)).dir = .input) :
    busData c (putLines ls u c.n) = match c.inputDriveEffect with
      | .undriven => List.replicate c.n .notDriven
      | .drives => unitOnBus u c.n := by
  cases hx : c.inputDriveEffect
  · simp only [busData]
    rw [List.eq_replicate_iff]
    refine ⟨by simp, fun b hb => ?_⟩
    simp only [List.mem_map, List.mem_range] at hb
    obtain ⟨i, hi, rfl⟩ := hb
    simp [bus, putLines_get ls u c.n i hi (by omega), hd i hi, hx]
  · simp only [busData, unitOnBus, bitLevels, List.map_map]
    refine List.map_congr_left fun i hi => ?_
    have hi := List.mem_range.mp hi
    simp [bus, putLines_get ls u c.n i hi (by omega), hd i hi, hx, BusLevel.ofLat]

/-- A property of every data line, index by index. -/
theorem forall_get_of_forall_data (ls : Lines) (P : LineState → Prop) (h : ∀ l ∈ ls.data, P l) (i : Nat)
    (hi : i < ls.data.length) : P (ls.get (.d i)) := by
  have : ls.get (.d i) = ls.data[i] := by simp [Lines.get, hi]
  rw [this]
  exact h _ (List.getElem_mem hi)

theorem forall_data_of_forall_get (ls : Lines) (P : LineState → Prop)
    (h : ∀ i < ls.data.length, P (ls.get (.d i))) : ∀ l ∈ ls.data, P l := by
  intro l hl
  obtain ⟨i, hi, rfl⟩ := List.mem_iff_getElem.mp hl
  have := h i hi
  simpa [Lines.get, hi] using this

end Sys2Proof.Machine
end

