-- ==== Sys2Proof/Laws/Operands.lean ====
section
/-! SUPPORT. Bit by bit what the operand operations compute (42_transcoding R90 to R94). -/

namespace Sys2Proof.Machine

/-- One accumulation step sets its own bit when the line reads high and keeps the others (R90). -/
theorem orBit_bit (acc : Byte) (i k : Nat) (l : Level) : (orBit acc i l).getLsbD k =
    (acc.getLsbD k || (decide (k < 8) && decide (k = i) && decide (l = .high))) := by
  cases l with
  | low => simp [orBit]
  | high =>
    simp only [orBit, BitVec.getLsbD_or, BitVec.getLsbD_shiftLeft, BitVec.getLsbD_one]
    congr 1
    by_cases hk : k < 8 <;> by_cases hi : k < i <;> simp [hk, hi] <;> omega

/-- GET's value has bit `k` where the accumulator had it or where the level of its line is high (R90). -/
theorem gather_bit (ls : List Level) : ∀ (acc : Byte) (i k : Nat), (gather acc i ls).getLsbD k =
    (acc.getLsbD k || (decide (k < 8) && decide (i ≤ k) && decide (ls[k - i]? = some .high))) := by
  induction ls with
  | nil => intro acc i k; simp [gather]
  | cons l ls ih =>
    intro acc i k
    rw [gather, ih, orBit_bit, Bool.or_assoc]
    congr 1
    rcases Nat.lt_trichotomy k i with h | h | h
    · simp [show ¬ i ≤ k by omega, show ¬ i + 1 ≤ k by omega, show k ≠ i by omega]
    · subst h; simp
    · have hki : k - i = (k - (i + 1)) + 1 := by omega
      rw [hki, List.getElem?_cons_succ]
      simp [show i ≤ k by omega, show i + 1 ≤ k by omega, show k ≠ i by omega]

/-- `assemble` takes bits 7–4 from the first nibble and bits 3–0 from the second (R92). -/
theorem assemble_bit (hi lo : Byte) (k : Nat) (hk : k < 8) (h : ∀ j, 4 ≤ j → lo.getLsbD j = false) :
    (assemble hi lo).getLsbD k = if 4 ≤ k then hi.getLsbD (k - 4) else lo.getLsbD k := by
  simp only [assemble, BitVec.getLsbD_or, BitVec.getLsbD_shiftLeft]
  by_cases h4 : 4 ≤ k
  · rw [h k h4]; simp [h4, hk]
  · simp [h4, hk, show k < 4 by omega]

/-- A byte's units decode to the byte (R94). -/
theorem decodeUnits_units (w : LineWidth) (v : Byte) : decodeUnits w (units w v) = some v := by
  cases w with
  | eight => rfl
  | four =>
    simp only [units, decodeUnits, assemble, hiNibble, loNibble, Option.some.injEq]
    revert v; decide +kernel

/-- A byte becomes one unit in Eight mode and two in Four mode (R93). -/
theorem units_length (w : LineWidth) (v : Byte) :
    (units w v).length = (match w with | .eight => 1 | .four => 2) := by cases w <;> rfl

end Sys2Proof.Machine
end

