-- ==== Sys2Proof/Laws/PerInstr.lean ====
section
/-! SUPPORT. Statements about every instruction as syntax, one lemma per constructor. -/

namespace Sys2Proof.Laws

/-- No request's descriptor has a reserved bit set, and only SETMODE's may have `C` set
(30_encoding R61, R62). -/
def EncodeReserved.Statement (i : Instr) : Prop :=
  ∀ c : Cfg, rsvField c (encodeDesc c i) = 0 ∧
    (cField (encodeDesc c i) = true → ∃ isCommand, i = .setmode isCommand)

theorem EncodeReserved.setmode (isCommand : Bool) : EncodeReserved.Statement (.setmode isCommand) :=
  fun _ => ⟨rsvField_mkDesc _ _ _ _, fun _ => ⟨isCommand, rfl⟩⟩

theorem EncodeReserved.write (p : List Byte) : EncodeReserved.Statement (.write p) :=
  fun _ => ⟨rsvField_mkDesc _ _ _ _, fun h => by simp [encodeDesc] at h⟩

theorem EncodeReserved.wrnib (p : List Byte) : EncodeReserved.Statement (.wrnib p) :=
  fun _ => ⟨rsvField_mkDesc _ _ _ _, fun h => by simp [encodeDesc] at h⟩

theorem EncodeReserved.read (n : Nat) : EncodeReserved.Statement (.read n) :=
  fun _ => ⟨rsvField_mkDesc _ _ _ _, fun h => by simp [encodeDesc] at h⟩

end Sys2Proof.Laws
end

