-- ==== Sys2Proof/Laws/Trace.lean ====
section
/-! SUPPORT. What the readings of a trace (samples, taps, calls, counts) give on pieces of it, and on the events
of a list of statements. -/

namespace Sys2Proof.Machine

@[simp] theorem samplesOf_append (a b : List Event) : samplesOf (a ++ b) = samplesOf a ++ samplesOf b := by
  simp [samplesOf]

@[simp] theorem tapsOf_append (a b : List Event) : tapsOf (a ++ b) = tapsOf a ++ tapsOf b := by
  simp [tapsOf]

@[simp] theorem callShapes_append (a b : List Event) : callShapes (a ++ b) = callShapes a ++ callShapes b := by
  simp [callShapes]

@[simp] theorem countKind_append (p : EventKind → Bool) (a b : List Event) :
    countKind p (a ++ b) = countKind p a + countKind p b := by
  simp [countKind]

/-- A kind's shape is a tap exactly when the kind is. -/
@[simp] theorem EventKind.shape_isTap (k : EventKind) : k.shape.isTap = k.isTap := by cases k <;> rfl

/-- The calls of a list of statements are their shapes without the taps (10_state R24). -/
theorem callShapes_eventsOf (s : State) (l : List Stmt) :
    callShapes (eventsOf s l) = (l.filterMap Stmt.shape).filter fun k => !k.isTap := by
  rw [← eventsOf_shape s l, List.filter_map]
  simp [callShapes, Function.comp_def]

/-- Events among which `E` is not driven leave the samples up to the next fall in one piece. -/
theorem samplesToFall_append (a b : List Event) (h : ∀ ev ∈ a, ev.kind.drivesEnable = false) :
    samplesToFall (a ++ b) = samplesOf a ++ samplesToFall b := by
  induction a with
  | nil => rfl
  | cons ev a ih =>
    have ih := ih fun x hx => h x (List.mem_cons_of_mem _ hx)
    have he := h ev List.mem_cons_self
    rcases ev with ⟨t, k⟩
    cases k <;> simp_all [samplesToFall, samplesOf, EventKind.drivesEnable]
    rename_i l lvl
    cases l <;> simp_all

/-- Events among which `E` is not driven start no read cycle. -/
theorem cycleSamples_append (a b : List Event) (h : ∀ ev ∈ a, ev.kind.drivesEnable = false) :
    cycleSamples (a ++ b) = cycleSamples b := by
  induction a with
  | nil => rfl
  | cons ev a ih =>
    have ih := ih fun x hx => h x (List.mem_cons_of_mem _ hx)
    have he := h ev List.mem_cons_self
    rcases ev with ⟨t, k⟩
    cases k <;> simp_all [cycleSamples, EventKind.drivesEnable]
    rename_i l lvl
    cases l <;> simp_all

end Sys2Proof.Machine
end

