-- ==== Sys2Proof/Machine/Assembler.lean ====
section
/-! DEFINITION. The request syntax of 30_encoding R68 and the pseudo-requests of R69: one request per line,
`;` starting a comment, bytes and counts in decimal or `0x` hex. -/

namespace Sys2Proof.Machine

/-- Why a line is no request. -/
inductive AsmError where
  | unknownMnemonic
  | badNumber
  | outOfRange
  | badOperands
deriving DecidableEq, Repr

/-- White space inside a line. -/
def isBlank (ch : Char) : Bool := ch == ' ' || ch == '\t'

/-- The line up to its comment (R68). -/
def stripComment (line : List Char) : List Char := line.takeWhile (· != ';')

/-- White space off both ends. -/
def trim (cs : List Char) : List Char := ((cs.dropWhile isBlank).reverse.dropWhile isBlank).reverse

/-- The pieces between commas. -/
def splitCommas : List Char → List (List Char)
  | [] => [[]]
  | ',' :: cs => [] :: splitCommas cs
  | ch :: cs => match splitCommas cs with
    | [] => [[ch]]
    | p :: ps => (ch :: p) :: ps

/-- The value of a digit in a base, if it is one. -/
def digit (base : Nat) (ch : Char) : Option Nat :=
  let n := ch.toNat
  let v := if 48 ≤ n ∧ n ≤ 57 then n - 48
    else if 97 ≤ n ∧ n ≤ 102 then n - 87
    else if 65 ≤ n ∧ n ≤ 70 then n - 55
    else 16
  if v < base then some v else none

/-- Digits read into `acc`, most significant first. -/
def digits (base : Nat) (acc : Nat) : List Char → Option Nat
  | [] => some acc
  | ch :: cs => match digit base ch with
    | some d => digits base (acc * base + d) cs
    | none => none

/-- A number in decimal or in `0x` hex (R68). -/
def number (cs : List Char) : Option Nat := match cs with
  | '0' :: 'x' :: d :: ds => digits 16 0 (d :: ds)
  | d :: ds => digits 10 0 (d :: ds)
  | [] => none

/-- A byte operand, `0..255` (R68). -/
def byteOperand (cs : List Char) : Except AsmError Byte := match number (trim cs) with
  | none => .error .badNumber
  | some n => if n < 256 then .ok (BitVec.ofNat 8 n) else .error .outOfRange

/-- The bytes of a list of operands, or the first error. -/
def byteOperands : List (List Char) → Except AsmError (List Byte)
  | [] => .ok []
  | p :: ps => match byteOperand p, byteOperands ps with
    | .ok b, .ok bs => .ok (b :: bs)
    | .error e, _ => .error e
    | .ok _, .error e => .error e

/-- `b0, b1, ..., bk`; an empty text is the empty list (R68). -/
def byteList (cs : List Char) : Except AsmError (List Byte) :=
  if (trim cs).isEmpty then .ok [] else byteOperands (splitCommas cs)

/-- A byte list that a descriptor can count (R63). -/
def countedBytes (c : Cfg) (cs : List Char) : Except AsmError (List Byte) := match byteList cs with
  | .error e => .error e
  | .ok bs => if bs.length < 2 ^ c.lenWidth then .ok bs else .error .outOfRange

/-- A byte list with at least one element, as the pseudo-requests take (R69). -/
def someBytes (c : Cfg) (cs : List Char) : Except AsmError (List Byte) := match countedBytes c cs with
  | .error e => .error e
  | .ok [] => .error .badOperands
  | .ok (b :: bs) => .ok (b :: bs)

/-- One line's request, from its mnemonic and the rest of the line (R68, R69). -/
def assembleParts (c : Cfg) (mnemonic operands : List Char) : Except AsmError (List Instr) :=
  if mnemonic = "setmode".toList then
    if trim operands = "cmd".toList then .ok [.setmode true]
    else if trim operands = "data".toList then .ok [.setmode false]
    else .error .badOperands
  else if mnemonic = "write".toList then (countedBytes c operands).map fun bs => [.write bs]
  else if mnemonic = "wrnib".toList then (countedBytes c operands).map fun bs => [.wrnib bs]
  else if mnemonic = "read".toList then match number (trim operands) with
    | none => .error .badNumber
    | some n => if n < 2 ^ c.lenWidth then .ok [.read n] else .error .outOfRange
  else if mnemonic = "cmd".toList then (someBytes c operands).map fun bs => expandPseudo (.cmd bs)
  else if mnemonic = "data".toList then (someBytes c operands).map fun bs => expandPseudo (.data bs)
  else .error .unknownMnemonic

/-- One source line: the requests it stands for, none for a blank or comment line (R68, R69). -/
def assembleLine (c : Cfg) (line : List Char) : Except AsmError (List Instr) :=
  let text := trim (stripComment line)
  if text.isEmpty then .ok []
  else assembleParts c (text.takeWhile fun ch => !isBlank ch) (text.dropWhile fun ch => !isBlank ch)

/-- A program: its lines' requests in order, or the first error. -/
def assembleProgram (c : Cfg) : List String → Except AsmError (List Instr)
  | [] => .ok []
  | line :: lines => match assembleLine c line.toList, assembleProgram c lines with
    | .ok is, .ok js => .ok (is ++ js)
    | .error e, _ => .error e
    | .ok _, .error e => .error e

end Sys2Proof.Machine
end

