-- ==== Sys2Proof/Tests/Slice0.lean ====
section
/-! SUPPORT. Tests whose expected results come from 95_test_vectors (the vector's name stands in each
docstring), the well-formedness smoke tests, and a witness for the hypotheses of every obligation. -/

namespace Sys2Proof.Tests

open Sys2Proof Sys2Proof.Machine

set_option Elab.async false

/-! ### Helpers -/

/-- An idle transport after `setmode data` and an empty `write`, at time 0 under the reference timing of
95_test_vectors section 0: every draw of elapsed time is 0. -/
def ready (c : Cfg) (oracle : Oracle := .unconstrained) (answers : List Level := []) : State :=
  let s := State.constructed c
  { s with
    rsMode := .data
    lines := { s.lines with rs := ⟨.output, some .high⟩, rw := ⟨.output, some c.rwWriteLevel⟩ }
    env := ⟨oracle, answers, List.replicate 200 0, 0⟩ }

/-- The state after a READ: the data lines are inputs and `RW` is at the read level. -/
def afterRead (c : Cfg) : State :=
  let s := ready c
  { s with
    dir := .input
    lines := { s.lines with
      data := s.lines.data.map fun l => { l with dir := .input }
      rw := ⟨.output, some c.rwReadLevel⟩ } }

/-- The next state of an outcome. -/
def after : Host.Outcome State Fault Refusal → State
  | .next t => t
  | .fault _ => State.reset
  | .refused _ => State.reset

def four : Cfg := Cfg.default .four
def eight : Cfg := Cfg.default .eight

/-- A descriptor without payload, as a delivery. -/
def word (q : Desc) (h : payloadLen 24 q = 0) : Delivery := .request ⟨24, q, [], h.symm⟩

/-- The latched units of a state, each as its certainty, `bus(RS)` and value. -/
def unitsOf (s : State) : List (Bool × BusLevel × Option Nat) :=
  (latchedFrom s.cfg (ready s.cfg).lines s.trace).map fun u => (u.certain, u.rs, busValue u.data)

/-! ### Well-formedness: an ill-formed term for each check -/

/-- 00_scope R7: the two defaults have a transport. -/
theorem test_wf_defaults : four.wf = true ∧ eight.wf = true := by decide

/-- P6: `W = Four` with 8 data handles. -/
theorem test_wf_width : Cfg.wf { four with data := [0, 1, 2, 3, 10, 11, 12, 13] } = false := by decide

/-- P4: `T_EH = 450`, refused at construction; 451 is not. -/
theorem test_wf_tEh : State.construct { four with tEh := 450 } = none ∧
    Cfg.wf { four with tEh := 451 } = true := by decide

/-- P5: `T_SETTLE = 37000`, refused at construction; 37001 is not. -/
theorem test_wf_tSettle : State.construct { four with tSettle := 37000 } = none ∧
    Cfg.wf { four with tSettle := 37001 } = true := by decide

/-- R7: `RW_READ_LEVEL` and `RW_WRITE_LEVEL` must differ. -/
theorem test_wf_levels : Cfg.wf { four with rwReadLevel := .low } = false := by decide

/-- R7: the handles are pairwise distinct. -/
theorem test_wf_handles : Cfg.wf { four with e := 3 } = false ∧ Cfg.wf { four with rs := 6 } = false := by
  decide

/-- R63: `LEN` is at most `2^24 - 1`. -/
theorem test_wf_length : (Instr.read 16777216).wf four = false ∧ (Instr.read 16777215).wf four = true ∧
    ∀ p : List Byte, p.length = 16777216 →
      (Instr.write p).wf four = false ∧ (Instr.wrnib p).wf four = false :=
  ⟨by decide, by decide, fun p h => by simp [Instr.wf, four, Cfg.default, Cfg.lenWidth, h]⟩

/-- R6, R63: the count is bounded by the configuration's `LEN_BITS`. -/
theorem test_wf_lenBits : (Instr.read 256).wf { four with lenBits := 8 } = false ∧ four.lenBits = 24 := by
  decide

/-- R58, R67: the payload that a descriptor counts, refused (W8) or not. -/
theorem test_payload_length : payloadLen 24 0x40000002#32 = 2 ∧ payloadLen 24 0xC0000010#32 = 0 ∧
    payloadLen 24 0x60000001#32 = 1 ∧ payloadLen 24 0x20000001#32 = 0 := by decide

/-- R65: WRNIB has no Eight-mode encoding. -/
theorem test_wf_wrnib : (Instr.wrnib [0x03#8]).wf eight = false ∧ (Instr.wrnib [0x03#8]).wf four = true := by
  decide

/-! ### Decoding (95_test_vectors 2.1): the words of the table -/

theorem test_decode_setmode : decodeWords four 0x20000000#32 [] = .ok (.setmode true) ∧
    decodeWords eight 0x00000000#32 [] = .ok (.setmode false) := by decide

theorem test_decode_write : decodeWords eight 0x40000000#32 [] = .ok (.write []) ∧
    lenField four 0x40FFFFFF#32 = 16777215 ∧
    decodeWords four 0x40000002#32 [0xA5#8, 0x3C#8] = .ok (.write [0xA5#8, 0x3C#8]) := by decide

theorem test_decode_wrnib :
    decodeWords four 0x80000003#32 [1#8, 2#8, 3#8] = .ok (.wrnib [1#8, 2#8, 3#8]) ∧
    decodeWords eight 0x80000003#32 [1#8, 2#8, 3#8] = .error .wrnibEightMode := by decide

theorem test_decode_read : decodeWords eight 0xC0000000#32 [] = .ok (.read 0) ∧
    decodeWords four 0xC0000010#32 [] = .ok (.read 16) := by decide

theorem test_decode_refused : decodeWords four 0x20000001#32 [] = .error .setModeLength ∧
    decodeWords four 0x00800000#32 [] = .error .setModeLength ∧
    decodeWords four 0x01000000#32 [] = .error .reservedBits ∧
    decodeWords four 0x3F000005#32 [] = .error .reservedBits ∧
    decodeWords four 0x41000001#32 [0#8] = .error .reservedBits ∧
    decodeWords four 0x60000001#32 [0x41#8] = .error .reservedC ∧
    decodeWords eight 0xA0000001#32 [0x03#8] = .error .reservedC ∧
    decodeWords four 0xE0000000#32 [] = .error .reservedC ∧
    decodeWords four 0xFF000000#32 [] = .error .reservedBits ∧
    decodeWords four 0xFFFFFFFF#32 [] = .error .reservedBits := by decide

/-- R68: the descriptors of the syntax table. -/
theorem test_encode : encodeDesc four (.setmode true) = 0x20000000#32 ∧ encodeDesc four (.setmode false) = 0x00000000#32 ∧
    encodeDesc four (.write [1#8, 2#8]) = 0x40000002#32 ∧ encodeDesc four (.wrnib []) = 0x80000000#32 ∧
    encodeDesc four (.read 16) = 0xC0000010#32 := by decide

/-- The table's numbering: the descriptor is bits 31:0 and payload byte `k` is bits `39 + 8k : 32 + 8k`. -/
theorem test_table_word : decodeTableWord 48 0x07_03_80000002 = some (.wrnib [0x03#8, 0x07#8]) ∧
    decodeTableWord 32 0x40000002 = some (.write [0#8, 0#8]) := by decide

/-- A step runs the request that `withFetchWord` delivers (S1). -/
theorem test_fetch_word : (after (step (State.reset.withFetchWord 32 0x20000000))).rsMode = .command ∧
    sv (after (step (State.reset.withFetchWord 32 0x20000000))) = 0x04#8 := by decide

/-! ### Construction -/

/-- 10_state R32; `SV` is 0x00 in Four and 0x01 in Eight. -/
theorem test_construct : State.construct four = some State.reset ∧ sv (State.constructed eight) = 0x01#8 := by
  decide

/-! ### SETMODE (2.2) -/

/-- S2. -/
theorem test_setmode_data :
    (after (exec (.setmode false) (State.constructed eight))).trace.map (fun ev => ev.kind) =
      [.beginReq 0x00000000#32, .drive .rs .high, .endReq 0 .ok] ∧
    sv (after (exec (.setmode false) (State.constructed eight))) = 0x09#8 := by decide

/-- S6: `DIR` stays `Input`. -/
theorem test_setmode_after_read : sv (after (exec (.setmode true) (afterRead eight))) = 0x07#8 ∧
    (after (exec (.setmode true) (afterRead eight))).lines.rs.lat = some .low := by decide

/-! ### WRITE (2.3) -/

/-- W2 (E4): the whole trace of `write 0xA5` in Four mode. -/
theorem test_write_four : (after (exec (.write [0xA5#8]) (ready four))).trace =
    [⟨0, .beginReq 0x40000001#32⟩, ⟨0, .drive .rw .low⟩, ⟨0, .tap 0x0A#8 4⟩,
     ⟨0, .drive (.d 0) .low⟩, ⟨0, .drive (.d 1) .high⟩, ⟨0, .drive (.d 2) .low⟩, ⟨0, .drive (.d 3) .high⟩,
     ⟨0, .drive .e .low⟩, ⟨0, .sleep 1000 1000⟩, ⟨1000, .drive .e .high⟩, ⟨1000, .sleep 1000 1000⟩,
     ⟨2000, .drive .e .low⟩, ⟨2000, .sleep 100000 100000⟩, ⟨102000, .tap 0x05#8 4⟩,
     ⟨102000, .drive (.d 0) .high⟩, ⟨102000, .drive (.d 1) .low⟩, ⟨102000, .drive (.d 2) .high⟩,
     ⟨102000, .drive (.d 3) .low⟩,
     ⟨102000, .drive .e .low⟩, ⟨102000, .sleep 1000 1000⟩, ⟨103000, .drive .e .high⟩,
     ⟨103000, .sleep 1000 1000⟩, ⟨104000, .drive .e .low⟩, ⟨104000, .sleep 100000 100000⟩,
     ⟨204000, .endReq 1 .ok⟩] := by decide +kernel

/-- W9 and W11: counts, result and units; the `T_SETTLE` sleep may take longer. -/
theorem test_write_eight : unitsOf (after (exec (.write [1#8, 2#8, 3#8]) (ready eight))) =
      [(true, .high, some 1), (true, .high, some 2), (true, .high, some 3)] ∧
    countKind EventKind.isCall (after (exec (.write [1#8, 2#8, 3#8]) (ready eight))).trace = 43 ∧
    (after (exec (.write [1#8]) { ready eight with
      env := ⟨.unconstrained, [], List.replicate 14 0 ++ [50000], 0⟩ })).now = 152000 := by decide +kernel

/-! ### WRNIB (2.4) -/

/-- N1 (E6): the units, the last one twice, the calls and the time. -/
theorem test_wrnib : unitsOf (after (exec (.wrnib [0x03#8, 0x07#8]) (ready four))) =
      [(true, .high, some 3), (true, .high, some 7), (true, .high, some 7)] ∧
    countKind EventKind.isCall (after (exec (.wrnib [0x03#8, 0x07#8]) (ready four))).trace = 26 ∧
    (after (exec (.wrnib [0x03#8, 0x07#8]) (ready four))).now = 306000 := by decide +kernel

/-- N3 and N4: the cycle type is a draw before any drive of `RW`; in Eight mode WRNIB is refused. -/
theorem test_wrnib_corners :
    (after (exec (.wrnib []) (State.constructed four))).latchedUnits.map LatchedUnit.content =
      [(false, .unknown, [.unknown, .unknown, .unknown, .unknown])] ∧
    (after (exec (.wrnib [0x03#8]) (ready eight))).result = ⟨0, .refused .wrnibEightMode, []⟩ := by
  decide +kernel

/-! ### READ (2.5) -/

/-- D4 and D6. -/
theorem test_read : (after (exec (.read 1) (ready eight .unconstrained
      [.high, .low, .high, .low, .low, .high, .low, .high]))).result = ⟨1, .ok, [0xA5#8]⟩ ∧
    (after (exec (.read 2) (ready four .unconstrained
      ((bitLevels 1#8 4) ++ (bitLevels 2#8 4) ++ (bitLevels 3#8 4) ++ (bitLevels 4#8 4))))).result =
        ⟨2, .ok, [0x12#8, 0x34#8]⟩ ∧
    countKind EventKind.isCall (after (exec (.read 1) (ready eight .levelMirror))).trace = 27 := by
  decide +kernel

/-- D1 and D8: READ of length 0, and the read-path holds. -/
theorem test_read_corners : (after (exec (.read 0) (ready four))).trace =
      [⟨0, .beginReq 0xC0000000#32⟩, ⟨0, .endReq 0 .invalidArgument⟩] ∧
    (after (exec (.read 1) (ready { eight with tRdEh := 500, tRdEl := 200 }))).now = 700 := by
  decide +kernel

/-- R44: the samples of D5's two read cycles, each with its line. -/
theorem test_read_cycles : cycleSamples (after (exec (.read 1) (ready four .unconstrained
      ((bitLevels 9#8 4) ++ (bitLevels 6#8 4))))).trace =
      [[(.d 0, .high), (.d 1, .low), (.d 2, .low), (.d 3, .high)],
       [(.d 0, .low), (.d 1, .high), (.d 2, .high), (.d 3, .low)]] := by decide +kernel

/-! ### Taps (40_bus_transport R80) -/

/-- W6 and W7, N6 and N7. -/
theorem test_taps : tapsOf (after (exec (.write [0x41#8]) (ready { eight with tapScope := .all }))).trace =
      [(0x41#8, 8)] ∧
    tapsOf (after (exec (.write [0x41#8]) (ready eight))).trace = [] ∧
    tapsOf (after (exec (.wrnib [0xF3#8]) (ready { four with tapScope := .all }))).trace = [(0x03#8, 4)] ∧
    tapsOf (after (exec (.wrnib [0xF3#8]) (ready four))).trace = [] := by decide +kernel

/-! ### Round trips (2.6) -/

/-- RT1 to RT3, run as two requests. -/
theorem test_round_trip :
    (after (exec (.read 1) (after (exec (.write [0xA5#8]) (ready four .latchReplay))))).result.rbuf = [0xA5#8] ∧
    (after (exec (.read 1) (after (exec (.write [0xA5#8]) (ready four .levelMirror))))).result.rbuf = [0x55#8] ∧
    (after (exec (.read 1) (after (exec (.write [0xA5#8]) (ready eight .levelMirror))))).result.rbuf =
      [0xA5#8] := by decide +kernel

/-- RT5: past the latched units the answer is a draw. -/
theorem test_replay_draws : (after (exec (.read 2) (after (exec (.write [0x12#8])
    (ready four .latchReplay (List.replicate 8 .high)))))).result.rbuf = [0x12#8, 0xFF#8] := by decide +kernel

/-! ### PULSE (2.7) and transcoding (2.8) -/

/-- P2 and P3. -/
theorem test_pulse :
    ((runStmts (ready { four with tEl := 0, tEh := 451, tSettle := 37001 })
      (pulse { four with tEl := 0, tEh := 451, tSettle := 37001 })).trace.map fun ev => ev.t) =
        [0, 0, 0, 0, 451, 451] ∧
    (runStmts { ready four with env := ⟨.unconstrained, [], [0, 0, 0, 4000, 0, 0], 0⟩ } (pulse four)).now =
      106000 := by decide +kernel

/-- T3. -/
theorem test_put : (put 0x42#8 8) =
    [.drive (.d 0) .low, .drive (.d 1) .high, .drive (.d 2) .low, .drive (.d 3) .low,
     .drive (.d 4) .low, .drive (.d 5) .low, .drive (.d 6) .high, .drive (.d 7) .low] := by decide

/-- T4 and T5. -/
theorem test_gather : gather 0#8 0 [.high, .low, .high, .low] = 0x5#8 ∧
    gather 0#8 0 (List.replicate 8 .high) = 0xFF#8 ∧ gather 0#8 0 (List.replicate 8 .low) = 0x00#8 := by decide

/-- T6 and T7. -/
theorem test_units : units .four 0xA5#8 = [0x0A#8, 0x05#8] ∧ units .eight 0xA5#8 = [0xA5#8] ∧
    hiNibble 0x0F#8 = 0#8 ∧ loNibble 0x0F#8 = 0x0F#8 ∧ hiNibble 0xF0#8 = 0x0F#8 ∧ loNibble 0xF0#8 = 0#8 := by
  decide

/-- T8 and T9. -/
theorem test_assemble : assemble 0x0F#8 0x0F#8 = 0xFF#8 ∧
    ∀ v : Byte, decodeUnits .four (units .four v) = some v ∧ decodeUnits .eight (units .eight v) = some v := by
  decide +kernel

/-! ### The caller and the hazards (2.9) -/

/-- H1 and H2: a write after a read. -/
theorem test_write_after_read :
    ((latchedFrom eight (afterRead eight).lines (after (exec (.write [0x42#8]) (afterRead eight))).trace).map
      fun u => u.data) = [List.replicate 8 .notDriven] ∧
    ((latchedFrom { eight with inputDriveEffect := .drives } (afterRead eight).lines
      (after (exec (.write [0x42#8]) (afterRead { eight with inputDriveEffect := .drives }))).trace).map
      fun u => busValue u.data) = [some 0x42] := by decide +kernel

/-- H4: `RW` stays at the read level, so WRNIB's pulses are read cycles. -/
theorem test_wrnib_after_read :
    latchedFrom four (afterRead four).lines (after (exec (.wrnib [0x03#8]) (afterRead four))).trace = [] ∧
    (seenFrom (afterRead four).lines none (after (exec (.wrnib [0x03#8]) (afterRead four))).trace).countP
      (fun x => x.startsReadCycle four) = 2 := by decide +kernel

/-- H3, R141: `RESTORE_OUT` turns the lines back. -/
theorem test_restore_out :
    ((after (step ((afterRead four).withPort [.restoreOut]))).trace.map fun ev => ev.kind) =
      [.cfgOut (.d 0), .cfgOut (.d 1), .cfgOut (.d 2), .cfgOut (.d 3)] ∧
    (after (step ((afterRead four).withPort [.restoreOut]))).dir = .output := by decide +kernel

/-- H5: RESTORE_OUT with `RW` still at the read level: WRNIB's rise finds outputs against the display. -/
theorem test_contention : (seenFrom { (afterRead four).lines with data := (ready four).lines.data } none
    (after (exec (.wrnib [0x03#8]) { afterRead four with
      lines := { (afterRead four).lines with data := (ready four).lines.data } })).trace).any
        (contention four) = true := by decide +kernel

/-! ### Assembler (30_encoding R68, R69) -/

theorem test_assembler : assembleLine four "  write 0x41, 66, 0xff ; three bytes".toList =
      .ok [.write [0x41#8, 66#8, 0xFF#8]] ∧
    assembleLine four "cmd 1".toList = .ok [.setmode true, .write [1#8]] ∧
    assembleLine four "read 16".toList = .ok [.read 16] ∧ assembleLine four "; only a comment".toList = .ok [] := by
  decide +kernel

theorem test_assembler_errors : assembleLine four "write 256".toList = .error .outOfRange ∧
    assembleLine four "read 16777216".toList = .error .outOfRange ∧
    assembleLine four "setmode both".toList = .error .badOperands ∧
    assembleLine four "strobe".toList = .error .unknownMnemonic := by decide +kernel

/-! ### Witnesses: for each obligation with hypotheses, a state and operands that meet all of them -/

/-- A request that decodes, one that is refused, and the caller's move, each delivered to an idle state. -/
def withRead : State := (ready four).withPort [word 0xC0000002#32 (by decide)]
def withBad (q : Desc) (h : payloadLen 24 q = 0) : State := (ready four).withPort [word q h]
def withRestore : State := (afterRead four).withPort [.restoreOut]

/-- `ready` with `E` high, which premise `EnableLow` rules out (70_reset_and_hazards R124). -/
def enableHigh (c : Cfg) : State :=
  { ready c with lines := { (ready c).lines with e := ⟨.output, some .high⟩ } }

theorem ready_ready : (ready four).Ready ∧ (ready eight).Ready := by
  refine ⟨⟨?_, ?_, ?_⟩, ⟨?_, ?_, ?_⟩⟩ <;> decide

theorem reset_ready : State.reset.Ready := by refine ⟨?_, ?_, ?_⟩ <;> decide

theorem reset_boundary : State.reset.AtBoundary := by
  refine ⟨?_, ?_, ?_, ?_, ?_, ?_, ?_, ?_, ?_⟩ <;> first | decide | (simp only [State.dirAgrees]; decide)

theorem afterRead_boundary : (afterRead eight).AtBoundary := by
  refine ⟨?_, ?_, ?_, ?_, ?_, ?_, ?_, ?_, ?_⟩ <;> first | decide | (simp only [State.dirAgrees]; decide)

/-- Both widths and the ends of the count's range; a `LEN` of another width too. -/
theorem witness_EncodeThenDecode : (Instr.write [0xA5#8]).wf eight = true ∧
    (Instr.wrnib [0x03#8]).wf four = true ∧ (Instr.read 16777215).wf four = true ∧
    (Instr.read 255).wf { four with lenBits := 8 } = true := by decide

theorem witness_DecodeThenEncode : Request.framed four ⟨24, 0x80000001#32, [0x03#8], by decide⟩ = true ∧
    decodeRequest four ⟨24, 0x80000001#32, [0x03#8], by decide⟩ = .ok (.wrnib [0x03#8]) := by decide

theorem witness_AcceptedWordsMatchOneTableRow : four.width = .four ∧ four.lenBits = 24 ∧
    decodeRequest four ⟨24, 0x20000000#32, [], by decide⟩ = .ok (.setmode true) ∧
    decodeRequest four ⟨24, 0xFF000000#32, [], by decide⟩ = .error .reservedBits := by decide

theorem witness_SplitWritesCarryTheSequence : 0 < four.lenBits := by decide

/-- One word for each clause, at the ends of the bit ranges. -/
theorem witness_RefusalNamesTheFirstFailingCheck :
    decodeRequest four ⟨24, 0x01000000#32, [], by decide⟩ = .error .reservedBits ∧
    decodeRequest four ⟨24, 0x10000000#32, [], by decide⟩ = .error .reservedBits ∧
    decodeRequest four ⟨24, 0x00000001#32, [], by decide⟩ = .error .setModeLength ∧
    decodeRequest four ⟨24, 0x00800000#32, [], by decide⟩ = .error .setModeLength ∧
    decodeRequest eight ⟨24, 0x60000000#32, [], by decide⟩ = .error .reservedC ∧
    decodeRequest eight ⟨24, 0xA0000000#32, [], by decide⟩ = .error .reservedC ∧
    decodeRequest eight ⟨24, 0x80000000#32, [], by decide⟩ = .error .wrnibEightMode := by decide

theorem witness_ConstructionNeedsTheConstraints : (∃ s, State.construct four = some s) ∧
    State.construct { four with tSettle := 37000 } = none := ⟨⟨_, rfl⟩, by decide⟩

theorem witness_ConstructionGivesTheResetValues :
    State.construct four = some (State.constructed four) ∧
    State.construct eight = some (State.constructed eight) := by decide

theorem witness_StepRunsTheDecodedRequest : withRead.seq = .idle ∧
    withRead.port = .request ⟨24, 0xC0000002#32, [], by decide⟩ :: [] ∧
    Request.framed withRead.cfg ⟨24, 0xC0000002#32, [], by decide⟩ = true ∧
    decodeRequest withRead.cfg ⟨24, 0xC0000002#32, [], by decide⟩ = .ok (.read 2) := by decide

/-- One word for each clause of the rule's table, framed. -/
theorem witness_StepRefusesByName : (withBad 0x01000000#32 (by decide)).seq = .idle ∧
    (Request.framed four ⟨24, 0x01000000#32, [], by decide⟩ = true ∧ rsvField four 0x01000000#32 ≠ 0) ∧
    (Request.framed four ⟨24, 0x20000001#32, [], by decide⟩ = true ∧
      opField 0x20000001#32 = 0b00#2 ∧ lenField four 0x20000001#32 ≠ 0) ∧
    (Request.framed four ⟨24, 0xE0000000#32, [], by decide⟩ = true ∧
      opField 0xE0000000#32 ≠ 0b00#2 ∧ cField 0xE0000000#32 = true) ∧
    (Request.framed eight ⟨24, 0x80000000#32, [], by decide⟩ = true ∧
      opField 0x80000000#32 = 0b10#2 ∧ (ready eight).cfg.width = .eight) := by decide

/-- Nothing delivered, and a request framed by another width of `LEN`. -/
theorem witness_StepWaitsForADelivery : State.reset.seq = .idle ∧ State.reset.port = [] ∧
    (State.reset.withPort [.request ⟨8, 0xC0000001#32, [], by decide⟩]).seq = .idle ∧
    Request.framed State.reset.cfg ⟨8, 0xC0000001#32, [], by decide⟩ = false := by decide

theorem witness_RequestIsItsStatementsOneByOne : (ready four).seq = .idle ∧
    (Instr.wrnib [0x03#8]).wf (ready four).cfg = true ∧
    13 ≤ (stmtsOf (ready four).cfg (.wrnib [0x03#8])).length := by decide

theorem witness_BusyTransportFinishesItsRequest :
    ((ready four).accept (.read 1)).seq = .busy ⟨.read 1, 0, 0#8, 0#8, []⟩ := by decide

theorem witness_RestoreOutMakesTheDataLinesOutputs : withRestore.Ready ∧
    withRestore.port = .restoreOut :: [] := by
  refine ⟨⟨?_, ?_, ?_⟩, ?_⟩ <;> decide

theorem witness_PutDrivesTheBitsInOrder : 0 ≤ (ready four).lines.data.length ∧
    4 ≤ (ready four).lines.data.length ∧ 8 ≤ (ready eight).lines.data.length := by decide

theorem witness_GetGathersTheSampledLevels : 8 ≤ 8 ∧
    ((ready eight).accept (.read 1)).seq = .busy ⟨.read 1, 0, 0#8, 0#8, []⟩ := by decide

theorem witness_PulseIsOneTimedStrobe : (ready four).cfg.wf = true ∧
    Cfg.wf { four with tEl := 0, tEh := 451, tSettle := 37001 } = true := by decide

theorem witness_PulseTakesAtLeastItsHolds : (ready eight).cfg = Cfg.default .eight := rfl

theorem witness_SetmodeDrivesRegisterSelect : State.reset.seq = .idle ∧ (afterRead eight).seq = .idle := by
  decide

/-- Both widths, with bytes sent and without. -/
theorem witness_WriteEndState : (ready four).Ready ∧ (ready eight).Ready ∧
    ([0xA5#8].flatMap (units four.width)).getLast? = some 0x05#8 ∧
    (([] : List Byte).flatMap (units four.width)).getLast? = none := ⟨ready_ready.1, ready_ready.2, by decide⟩

theorem witness_WriteLatchesEveryUnit : (ready eight).Ready ∧ (ready eight).DataOut ∧
    (ready eight).lines.e.lat = some .low := by
  refine ⟨ready_ready.2, ?_, ?_⟩ <;> first | decide | (simp only [State.DataOut]; decide)

/-- Both values of the open parameter, with `RW` as a READ leaves it and at the write level. -/
theorem witness_WriteAfterReadLatchesUndrivenData : (afterRead four).Ready ∧ (afterRead four).DataIn ∧
    (afterRead four).lines.e.lat = some .low ∧ (afterRead four).cfg.width = .four ∧
    (afterRead four).cfg.inputDriveEffect = .undriven ∧
    (afterRead { four with wnDrivesRw := true, inputDriveEffect := .drives }).DataIn ∧
    (afterRead { four with wnDrivesRw := true, inputDriveEffect := .drives }).cfg.wf = true ∧
    (afterRead { four with wnDrivesRw := true, inputDriveEffect := .drives }).cfg.wnDrivesRw = true := by
  refine ⟨⟨?_, ?_, ?_⟩, ?_, ?_, ?_, ?_, ?_, ?_, ?_⟩ <;> first | decide | (simp only [State.DataIn]; decide)

theorem witness_EnableHighAddsALatchEvent : (enableHigh four).Ready ∧
    (enableHigh four).lines.e.lat = some .high ∧ (enableHigh four).cfg.width = .four ∧
    (enableHigh four).lines.rw.lat = some (enableHigh four).cfg.rwWriteLevel ∧ [0xA5#8] ≠ [] ∧ 0 < 1 := by
  refine ⟨⟨?_, ?_, ?_⟩, ?_⟩ <;> decide

theorem witness_WrnibEndState : (ready four).Ready ∧ (ready four).cfg.width = .four ∧
    Cfg.wf { four with wnDrivesRw := true } = true := ⟨ready_ready.1, by decide⟩

/-- Each alternative of the last hypothesis. -/
theorem witness_WrnibLatchesTheLastNibbleTwice : (ready four).Ready ∧ (ready four).cfg.width = .four ∧
    (ready four).DataOut ∧ (ready four).lines.e.lat = some .low ∧
    (ready four).lines.rw.lat = some (ready four).cfg.rwWriteLevel ∧
    (State.constructed { four with wnDrivesRw := true }).DataOut ∧
    (State.constructed { four with wnDrivesRw := true }).cfg.wnDrivesRw = true := by
  refine ⟨ready_ready.1, ?_, ?_, ?_, ?_, ?_, ?_⟩ <;> first | decide | (simp only [State.DataOut]; decide)

/-- Both clauses: `RW` at the read level, and `RW` never driven. -/
theorem witness_WrnibWithoutWriteLevel : (afterRead four).Ready ∧ (afterRead four).cfg.width = .four ∧
    (afterRead four).cfg.wnDrivesRw = false ∧ (afterRead four).lines.e.lat = some .low ∧
    (afterRead four).lines.rw.lat = some (afterRead four).cfg.rwReadLevel ∧
    State.reset.Ready ∧ State.reset.cfg.wnDrivesRw = false ∧ State.reset.lines.e.lat = some .low ∧
    State.reset.lines.rw.lat = none := by
  refine ⟨⟨?_, ?_, ?_⟩, ?_, ?_, ?_, ?_, reset_ready, ?_⟩ <;> decide

theorem witness_WrnibInEightModeIsRefused : (ready eight).seq = .idle ∧
    (ready eight).cfg.width = .eight := by decide

theorem witness_SplitWrnibAddsAPulse : (ready four).Ready ∧ (ready four).cfg.width = .four :=
  ⟨ready_ready.1, by decide⟩

theorem witness_ReadEndState : (ready four).Ready ∧ (ready eight).Ready ∧ 0 < 1 :=
  ⟨ready_ready.1, ready_ready.2, by decide⟩

theorem witness_ReadAssemblesTheSampledLevels : (ready four).Ready ∧ (ready eight).Ready ∧ 0 < 1 ∧ 0 < 8 ∧
    7 < 8 := ⟨ready_ready.1, ready_ready.2, by decide⟩

theorem witness_ReadZeroRaisesInvalidArgument : (ready four).seq = .idle ∧
    (∃ t, exec (.read 0) (ready four) = .next t ∧ t.result.status = .invalidArgument) ∧
    (∃ t, step (withBad 0xC0000000#32 (by decide)) = .next t ∧ t.result.status = .invalidArgument) :=
  ⟨by decide, ⟨_, rfl, by decide⟩, ⟨_, rfl, by decide⟩⟩

theorem witness_SecondReconfigurationChangesNothing :
    (ready eight).lines.wf (ready eight).cfg.n = true := by decide

theorem witness_ReadEntryHasNoContention : State.reset.AtBoundary ∧ (afterRead eight).AtBoundary ∧ 0 < 1 :=
  ⟨reset_boundary, afterRead_boundary, by decide⟩

/-- The state at construction, with each of the two test oracles. -/
theorem witness_WriteThenReadRoundTrip (o : Oracle) :
    ({ State.reset with env := ⟨o, [], [], 0⟩ } : State).Ready ∧
    ({ State.reset with env := ⟨o, [], [], 0⟩ } : State).DataOut ∧
    ({ State.reset with env := ⟨o, [], [], 0⟩ } : State).lines.e.lat = some .low ∧
    ({ State.reset with env := ⟨o, [], [], 0⟩ } : State).TraceExplainsLines ∧
    ({ State.reset with env := ⟨o, [], [], 0⟩ } : State).env.oracle = o := by
  refine ⟨⟨?_, ?_, ?_⟩, ?_, rfl, rfl, rfl⟩ <;> first | decide | (simp only [State.DataOut]; decide)

theorem witness_WrittenSequenceReadsBack :
    ({ State.reset with env := ⟨.latchReplay, [], [], 0⟩ } : State).Ready ∧
    ({ State.reset with env := ⟨.latchReplay, [], [], 0⟩ } : State).TraceExplainsLines ∧
    [0x12#8, 0x34#8] ≠ [] :=
  ⟨(witness_WriteThenReadRoundTrip .latchReplay).1, rfl, by decide⟩

theorem witness_CountsAndStatusCodes : (ready four).seq = .idle ∧ (ready eight).cfg.width = .eight ∧
    (withBad 0xFF000000#32 (by decide)).port = .request ⟨24, 0xFF000000#32, [], by decide⟩ :: [] ∧
    Request.framed four ⟨24, 0xFF000000#32, [], by decide⟩ = true ∧
    decodeRequest four ⟨24, 0xFF000000#32, [], by decide⟩ = .error .reservedBits := by decide

theorem witness_EmptySequences : (ready four).seq = .idle ∧ (ready four).cfg.width = .four := by decide

/-- Both widths without holds, and both holds at once. -/
theorem witness_EventCountsPerRequest : (ready four).Ready ∧ (ready eight).Ready ∧
    (ready four).cfg.tRdEh = 0 ∧ (ready four).cfg.tRdEl = 0 ∧
    (ready { eight with tRdEh := 500, tRdEl := 200 }).Ready :=
  ⟨ready_ready.1, ready_ready.2, rfl, rfl, ⟨by decide, by decide, rfl⟩⟩

theorem witness_MinimumDurations : (ready four).Ready ∧ (ready eight).Ready := ready_ready

/-- A WRITE and a WRNIB. -/
theorem witness_WritePathSetupAndHold : (ready four).Ready ∧ (ready four).lines.e.lat = some .low ∧
    ((∃ p, Instr.write [0xA5#8] = .write p) ∨ ∃ p, Instr.write [0xA5#8] = .wrnib p) ∧
    ((∃ p, Instr.wrnib [0x03#8] = .write p) ∨ ∃ p, Instr.wrnib [0x03#8] = .wrnib p) :=
  ⟨ready_ready.1, by decide, .inl ⟨_, rfl⟩, .inr ⟨_, rfl⟩⟩

/-- A step that answers a next state, from a state that meets each invariant, with a request to run. -/
theorem witness_TraceGrowsAndTimeAdvances : ∃ t, step withRead = .next t := ⟨_, rfl⟩
theorem witness_ConfigurationIsFixed : ∃ t, step withRestore = .next t := ⟨_, rfl⟩

theorem witness_ConstructionMeetsTheInvariants : ∃ s, State.construct eight = some s := ⟨_, rfl⟩

theorem witness_StepKeepsTheBoundary :
    (State.reset.withPort [word 0xC0000002#32 (by decide)]).AtBoundary ∧
    ∃ t, step (State.reset.withPort [word 0xC0000002#32 (by decide)]) = .next t :=
  ⟨⟨reset_boundary.cfgWf, reset_boundary.linesWf, rfl, rfl, rfl, rfl, rfl, reset_boundary.dirAgrees, rfl⟩,
   ⟨_, rfl⟩⟩

theorem witness_StepKeepsTraceExplainingLines :
    (State.reset.withPort [word 0xC0000002#32 (by decide)]).TraceExplainsLines ∧
    ∃ t, step (State.reset.withPort [word 0xC0000002#32 (by decide)]) = .next t := ⟨rfl, ⟨_, rfl⟩⟩

theorem witness_StepKeepsTheTraceTimed :
    (State.reset.withPort [word 0xC0000002#32 (by decide)]).TraceIsTimed ∧
    ∃ t, step (State.reset.withPort [word 0xC0000002#32 (by decide)]) = .next t :=
  ⟨⟨⟨by simp [State.reset, State.constructed, State.withPort], by simp [State.reset, State.constructed, State.withPort]⟩,
    by simp [State.reset, State.constructed, State.withPort]⟩, ⟨_, rfl⟩⟩

theorem witness_OnlySetmodeTouchesTheMode : (ready four).seq = .idle ∧ (∀ c, Instr.read 1 ≠ .setmode c) ∧
    (∃ t, exec (.read 1) (ready four) = .next t) ∧ withRead.seq = .idle ∧ (∃ t, step withRead = .next t) ∧
    ∀ c rest, fetch withRead ≠ .run (.setmode c) rest :=
  ⟨rfl, nofun, ⟨_, rfl⟩, rfl, ⟨_, rfl⟩, fun c rest => by
    rw [show fetch withRead = .run (.read 2) [] by decide]; nofun⟩

theorem witness_DirectionTransitions : (ready four).seq = .idle ∧
    (withBad 0xFF000000#32 (by decide)).port = .request ⟨24, 0xFF000000#32, [], by decide⟩ :: [] ∧
    Request.framed four ⟨24, 0xFF000000#32, [], by decide⟩ = true ∧
    decodeRequest four ⟨24, 0xFF000000#32, [], by decide⟩ = .error .reservedBits ∧
    withRestore.seq = .idle ∧ withRestore.port = .restoreOut :: [] := by decide

/-- A refused request and READ of length 0. -/
theorem witness_ErrorsAndRefusalsArePrecise : (withBad 0xE0000000#32 (by decide)).seq = .idle ∧
    (∃ t, step (withBad 0xE0000000#32 (by decide)) = .next t ∧ t.result.status ≠ .ok) ∧
    (∃ t, step (withBad 0xC0000000#32 (by decide)) = .next t ∧ t.result.status ≠ .ok) :=
  ⟨rfl, ⟨_, rfl, by decide⟩, ⟨_, rfl, by decide⟩⟩

theorem witness_SampledLevelsDoNotSteer : (ready four).seq = .idle ∧ (afterRead four).seq = .idle ∧
    (ready four).cfg = (afterRead four).cfg := by decide

theorem witness_TapsAreObservational : (ready four).seq = .idle := rfl

theorem witness_WriteIssuesItsCallsInOrder : (ready four).Ready ∧ (ready eight).Ready := ready_ready

theorem witness_WrnibIssuesItsCallsInOrder : (ready four).Ready ∧ (ready four).cfg.width = .four :=
  ⟨ready_ready.1, rfl⟩

theorem witness_ReadIssuesItsCallsInOrder : (ready four).Ready ∧
    (ready { eight with tRdEh := 500, tRdEl := 200 }).Ready ∧ 0 < 1 :=
  ⟨ready_ready.1, ⟨by decide, by decide, rfl⟩, by decide⟩

theorem witness_EverySampleIsAReadStrobe : (ready four).Ready ∧ (ready eight).Ready ∧
    ∀ n, Instr.write [0xA5#8] ≠ .read n := ⟨ready_ready.1, ready_ready.2, nofun⟩

/-- A tap that the trace of W2 holds, at its place. -/
theorem witness_TapsShowTheUnitsAboutToBeDriven : (ready four).seq = .idle ∧
    ∃ a b, (after (exec (.write [0xA5#8]) (ready four))).trace = a ++ ⟨0, .tap 0x0A#8 4⟩ :: b :=
  ⟨rfl, [⟨0, .beginReq 0x40000001#32⟩, ⟨0, .drive .rw .low⟩], _, test_write_four⟩

/-- A state whose trace holds the drive of `RS`, and a step that issues something after the WRITE. -/
theorem witness_SetupAndHoldAcrossRequests :
    ({ ready four with trace := [⟨0, .drive .rs .high⟩] } : State).Ready ∧
    ({ ready four with trace := [⟨0, .drive .rs .high⟩] } : State).lines.e.lat = some .low ∧
    ({ ready four with trace := [⟨0, .drive .rs .high⟩] } : State).TraceIsTimed ∧
    ((∃ p, Instr.wrnib [0x03#8] = .write p) ∨ ∃ p, Instr.wrnib [0x03#8] = .wrnib p) ∧
    ∃ u, step (after (exec (.wrnib [0x03#8]) ((ready four).withPort [word 0x20000000#32 (by decide)]))) = .next u :=
  ⟨⟨by decide, by decide, rfl⟩, rfl, ⟨⟨by simp, by simp⟩, by simp⟩, .inr ⟨_, rfl⟩, ⟨_, rfl⟩⟩

end Sys2Proof.Tests
end

section
/-! PROOFS. The scope family (00_scope): which configurations have a transport (R7), and that the trace since
construction explains the lines at every step (R11). -/

namespace Sys2Proof.Machine

/-! ### Construction -/

/-- Construction is `State.constructed`, guarded by the constraints of R7 (70_reset_and_hazards R116). -/
theorem construct_eq_some_iff (c : Cfg) (s : State) :
    State.construct c = some s ↔ c.wf = true ∧ State.constructed c = s := by
  simp [State.construct]

theorem exists_construct_iff (c : Cfg) : (∃ s, State.construct c = some s) ↔ c.wf = true := by
  simp [construct_eq_some_iff]

/-- R7 asks for the line count of each width; a configuration has one of the two widths. -/
theorem Cfg.n_eq_lines_iff (c : Cfg) :
    c.n = c.width.lines ↔ (c.width = .four → c.n = 4) ∧ (c.width = .eight → c.n = 8) := by
  cases c.width <;> simp [LineWidth.lines]

/-- Settles O7: construction succeeds exactly on `Cfg.wf`, whose width invariant is read off width by width. -/
theorem constructionNeedsTheConstraints : Obligations.ConstructionNeedsTheConstraints := by
  intro c
  rw [exists_construct_iff, Cfg.wf_iff, Cfg.n_eq_lines_iff, and_assoc]

/-! ### The trace explains the lines -/

/-- Lines that the trace explains stay so in whatever comes after: the events gained replay, from the lines
before them, to the lines after them (20_memory R50). -/
theorem Extends.traceExplainsLines {s t : State} (h : Extends s t) (hs : s.TraceExplainsLines) :
    t.TraceExplainsLines := by
  obtain ⟨evs, htrace, hreplay, -, -⟩ := h.events
  calc t.lines = replayLines s.lines evs := hreplay.symm
    _ = replayLines (replayLines (Lines.constructed s.cfg.n) s.trace) evs := by rw [← hs]
    _ = replayLines (Lines.constructed t.cfg.n) t.trace := by rw [htrace, h.cfg, replayLines_append]

/-- Settles O46: every step extends the state, and an extension keeps the explanation. -/
theorem stepKeepsTraceExplainingLines : Obligations.StepKeepsTraceExplainingLines :=
  fun s t hs hstep => (extends_step s t hstep).traceExplainsLines hs

end Sys2Proof.Machine
end

section
/-! PROOFS. The state family (10_state), at request boundaries: what construction gives (R32), and that every
step keeps the boundary (R17, R18, R22, R29) and the trace in order (R26, R27). -/

namespace Sys2Proof.Machine

/-! ### Construction -/

/-- Settles O8: a construction is `State.constructed`, whose entries are the rule's table; only the state view
depends on the width. -/
theorem constructionGivesTheResetValues : Obligations.ConstructionGivesTheResetValues := by
  intro c s h
  obtain ⟨-, rfl⟩ := (construct_eq_some_iff c s).mp h
  have hsv : sv (State.constructed c) = (match c.width with | .four => 0x00#8 | .eight => 0x01#8) := by
    cases hw : c.width <;> simp [sv, svBusy, svMode, svDir, svWidth, State.constructed, hw]
  exact ⟨rfl, List.length_replicate, fun l hl => List.eq_of_mem_replicate hl, rfl, rfl, rfl, rfl, rfl, rfl, rfl,
    rfl, rfl, hsv⟩

theorem constructed_atBoundary {c : Cfg} (h : c.wf = true) : (State.constructed c).AtBoundary where
  cfgWf := h
  linesWf := Lines.constructed_wf c.n
  enableOut := rfl
  selectOut := rfl
  readWriteOut := rfl
  enableLow := rfl
  rsAgrees := rfl
  dirAgrees := fun l hl => by rw [List.eq_of_mem_replicate hl]; rfl
  idle := rfl

theorem constructed_traceExplainsLines (c : Cfg) : (State.constructed c).TraceExplainsLines := rfl

theorem constructed_traceIsTimed (c : Cfg) : (State.constructed c).TraceIsTimed :=
  ⟨timed_nil 0, by simp [State.constructed]⟩

/-- Settles O44: each invariant holds of `State.constructed`, and the reset configuration meets R7. -/
theorem constructionMeetsTheInvariants : Obligations.ConstructionMeetsTheInvariants := by
  refine ⟨(construct_eq_some_iff _ _).mpr ⟨by decide, rfl⟩, fun c s h => ?_⟩
  obtain ⟨hwf, rfl⟩ := (construct_eq_some_iff c s).mp h
  exact ⟨constructed_atBoundary hwf, constructed_traceExplainsLines c, constructed_traceIsTimed c⟩

/-! ### The trace in order -/

/-- Settles O42: every step extends the state, and an extension appends to the trace. -/
theorem traceGrowsAndTimeAdvances : Obligations.TraceGrowsAndTimeAdvances := by
  intro s t hstep
  have hext := extends_step s t hstep
  obtain ⟨evs, htrace, -⟩ := hext.events
  exact ⟨⟨evs, htrace.symm⟩, hext.now, hext.oracle⟩

/-- What comes after a state with its trace in time order has it too: the events gained start no earlier than
the state's `now` and no later than the new one. -/
theorem Extends.traceIsTimed {s t : State} (h : Extends s t) (hs : s.TraceIsTimed) : t.TraceIsTimed := by
  obtain ⟨hold, hnow⟩ := hs
  obtain ⟨evs, htrace, -, htimed, hend⟩ := h.events
  rw [State.TraceIsTimed, htrace]
  refine ⟨timed_append hold hnow htimed (Nat.zero_le _), fun ev hev => ?_⟩
  rcases List.mem_append.mp hev with hmem | hmem
  · exact (hnow ev hmem).trans h.now
  · exact hend ev hmem

/-- Settles O47: every step extends the state, and an extension keeps the time order. -/
theorem stepKeepsTheTraceTimed : Obligations.StepKeepsTheTraceTimed :=
  fun s t hs hstep => (extends_step s t hstep).traceIsTimed hs

/-! ### The lines where WRNIB starts and ends -/

@[simp] theorem wrnibStart_e (c : Cfg) (ls : Lines) : (wrnibStart c ls).e = ls.e := by
  unfold wrnibStart; split <;> rfl

@[simp] theorem wrnibStart_rs (c : Cfg) (ls : Lines) : (wrnibStart c ls).rs = ls.rs := by
  unfold wrnibStart; split <;> rfl

@[simp] theorem wrnibStart_data (c : Cfg) (ls : Lines) : (wrnibStart c ls).data = ls.data := by
  unfold wrnibStart; split <;> rfl

@[simp] theorem wrnibStart_dir (c : Cfg) (ls : Lines) (l : Line) :
    ((wrnibStart c ls).get l).dir = (ls.get l).dir := by
  unfold wrnibStart; split <;> simp

theorem wrnibStart_rw (c : Cfg) (ls : Lines) : (wrnibStart c ls).rw =
    if c.wnDrivesRw = true then ⟨ls.rw.dir, some c.rwWriteLevel⟩ else ls.rw := by
  unfold wrnibStart; split <;> rfl

theorem wrnibStart_get_data (c : Cfg) (ls : Lines) (i : Nat) : (wrnibStart c ls).get (.d i) = ls.get (.d i) := by
  rw [Lines.get, wrnibStart_data]; rfl

/-- WRNIB's trailing pulse leaves `E` low (40_bus_transport R74). -/
theorem linesAfterAll_wrnib_e (ls : Lines) (c : Cfg) (p : List Byte) :
    (linesAfterAll ls (wrnibStmts c p)).e = ⟨ls.e.dir, some .low⟩ := by
  rw [linesAfterAll_wrnib, Lines.setLat_e_e, unitsLines_e, wrnibStart_e]
  split <;> rfl

/-! ### A state later than a boundary -/

/-- Line sets with the same directions index by index: where all of one are `d`, all of the other are. -/
theorem forall_dir_of_get_dir {a b : Lines} {d : LineDir} (hlen : b.data.length = a.data.length)
    (hdir : ∀ i, (b.get (.d i)).dir = (a.get (.d i)).dir) (ha : ∀ l ∈ a.data, l.dir = d) :
    ∀ l ∈ b.data, l.dir = d :=
  forall_data_of_forall_get b (fun l => l.dir = d) fun i hi => by
    rw [hdir i]
    exact forall_get_of_forall_data a (fun l => l.dir = d) ha i (hlen ▸ hi)

/-- What is left to show of a later idle state, once the state before it was a boundary: `E` as it was, `RS` as
the new mode says, `RW` still an output, and `DIR` as the data lines are. -/
theorem State.AtBoundary.of_extends {s t : State} (hs : s.AtBoundary) (hext : Extends s t) (hidle : t.seq = .idle)
    (he : t.lines.e = s.lines.e) (hrs : t.lines.rs = ⟨s.lines.rs.dir, t.rsMode.lat⟩)
    (hrw : t.lines.rw.dir = s.lines.rw.dir) (hdir : t.dirAgrees) : t.AtBoundary where
  cfgWf := by rw [hext.cfg]; exact hs.cfgWf
  linesWf := by
    have h := hs.linesWf
    rw [Lines.wf] at h ⊢
    rwa [hext.length, hext.cfg]
  enableOut := by rw [he]; exact hs.enableOut
  selectOut := by rw [hrs]; exact hs.selectOut
  readWriteOut := by rw [hrw]; exact hs.readWriteOut
  enableLow := by rw [he]; exact hs.enableLow
  rsAgrees := by rw [hrs]
  dirAgrees := hdir
  idle := hidle

/-- At a boundary `RS` is an output's latch as the mode says, in one equation. -/
theorem State.AtBoundary.rs_eq {s : State} (hs : s.AtBoundary) : s.lines.rs = ⟨s.lines.rs.dir, s.rsMode.lat⟩ := by
  rw [← hs.rsAgrees]

/-- At a boundary driving `E` low changes nothing. -/
theorem State.AtBoundary.e_eq {s : State} (hs : s.AtBoundary) : s.lines.e = ⟨s.lines.e.dir, some .low⟩ := by
  rw [← hs.enableLow]

theorem State.AtBoundary.n_eq {s : State} (hs : s.AtBoundary) : s.cfg.n = s.lines.data.length :=
  (beq_iff_eq.mp hs.linesWf).symm

/-! ### What a request does to an idle transport -/

/-- Whether the transport runs a request: all but WRNIB in Eight mode (30_encoding R65). -/
def requestRuns (c : Cfg) : Instr → Bool
  | .wrnib _ => c.width == .four
  | _ => true

theorem exec_of_runs {i : Instr} {s : State} (h : requestRuns s.cfg i = true) : exec i s = .next (perform i s) := by
  cases i with
  | wrnib p => simp only [exec, execWrnib, beq_iff_eq.mp h]
  | _ => rfl

theorem exec_of_not_runs {i : Instr} {s : State} (hidle : s.seq = .idle) (h : requestRuns s.cfg i = false) :
    exec i s = .next (s.refuse (encodeDesc s.cfg i) .wrnibEightMode) := by
  cases i with
  | wrnib p =>
    cases hw : s.cfg.width with
    | four => simp [requestRuns, hw] at h
    | eight => simp only [exec, execWrnib, hw, finish_idle s hidle]
  | _ => cases h

/-- Running a request extends the state. -/
theorem extends_perform (i : Instr) (s : State) : Extends s (perform i s) :=
  extends_trans (extends_finish s) (extends_trans (extends_accept _ i) (extends_finish _))

/-- No request but SETMODE changes `RSMODE` (10_state R19). -/
theorem perform_rsMode {i : Instr} {s : State} (h : s.seq = .idle) (hi : ∀ b, i ≠ .setmode b) :
    (perform i s).rsMode = s.rsMode := by
  obtain ⟨-, -, -, -, hmode, -⟩ := perform_effect i s h
  rw [hmode, foldl_modeAfter_of_none _ _ (modeAfter_stmtsOf s.cfg i hi)]

/-- No request but READ changes `DIR` (10_state R21). -/
theorem perform_dir {i : Instr} {s : State} (h : s.seq = .idle) (hi : ∀ n, i ≠ .read n) :
    (perform i s).dir = s.dir := by
  obtain ⟨-, -, -, -, -, hdir, -⟩ := perform_effect i s h
  rw [hdir, foldl_dirAfter_of_none _ _ (dirAfter_stmtsOf s.cfg i hi)]

theorem perform_read_zero_dir {s : State} (h : s.seq = .idle) : (perform (.read 0) s).dir = s.dir := by
  obtain ⟨-, -, -, -, -, hdir, -⟩ := perform_effect (.read 0) s h
  exact hdir

theorem perform_read_succ_dir {s : State} (h : s.seq = .idle) (n : Nat) :
    (perform (.read (n + 1)) s).dir = .input := by
  obtain ⟨-, -, -, -, -, hdir, -⟩ := perform_effect (.read (n + 1)) s h
  rw [hdir, stmtsOf, foldl_dirAfter_read]

/-! ### Every step keeps the boundary -/

/-- The `RS` level that SETMODE drives is the one its mode says (10_state R18). -/
theorem RsMode.lat_select (b : Bool) : (RsMode.select b).lat = some (rsLevel b) := by cases b <;> rfl

theorem setmode_keeps_boundary {s : State} (hs : s.AtBoundary) (b : Bool) :
    (perform (.setmode b) s).AtBoundary := by
  obtain ⟨-, -, hidle, hlines, hmode, -⟩ := perform_effect (.setmode b) s hs.idle
  have hlines : (perform (.setmode b) s).lines = s.lines.setLat .rs (rsLevel b) := hlines
  have hmode : (perform (.setmode b) s).rsMode = RsMode.select b := hmode
  refine hs.of_extends (extends_perform _ s) hidle ?_ ?_ ?_ ?_
  · rw [hlines, Lines.setLat_rs_e]
  · rw [hlines, hmode, Lines.setLat_rs_rs, RsMode.lat_select]
  · rw [hlines, Lines.setLat_rs_rw]
  · rw [State.dirAgrees, hlines, perform_dir hs.idle (by simp)]
    exact hs.dirAgrees

/-- A request that sets no mode and no direction, drives no `RS` and leaves `E` low keeps the boundary. -/
theorem perform_keeps_boundary_of_frame {s : State} (hs : s.AtBoundary) {i : Instr}
    (hset : ∀ b, i ≠ .setmode b) (hread : ∀ n, i ≠ .read n)
    (he : (perform i s).lines.e = s.lines.e) (hrs : (perform i s).lines.rs = s.lines.rs)
    (hdirs : ∀ l, ((perform i s).lines.get l).dir = (s.lines.get l).dir) : (perform i s).AtBoundary := by
  refine hs.of_extends (extends_perform i s) (finish_seq _) he ?_ (hdirs .rw) ?_
  · rw [hrs, perform_rsMode hs.idle hset]; exact hs.rs_eq
  · rw [State.dirAgrees, perform_dir hs.idle hread]
    exact forall_dir_of_get_dir (extends_perform i s).length (fun i => hdirs (.d i)) hs.dirAgrees

theorem write_keeps_boundary {s : State} (hs : s.AtBoundary) (p : List Byte) : (perform (.write p) s).AtBoundary := by
  obtain ⟨-, -, -, hlines, -⟩ := perform_effect (.write p) s hs.idle
  rw [stmtsOf, linesAfterAll_write] at hlines
  refine perform_keeps_boundary_of_frame hs (by simp) (by simp) ?_ ?_ fun l => ?_
  · rw [hlines, unitsLines_e, Lines.setLat_rw_e, ← hs.e_eq, ite_self]
  · rw [hlines, unitsLines_rs, Lines.setLat_rw_rs]
  · rw [hlines, unitsLines_dir, Lines.get_setLat_dir]

theorem wrnib_keeps_boundary {s : State} (hs : s.AtBoundary) (p : List Byte) : (perform (.wrnib p) s).AtBoundary := by
  obtain ⟨-, -, -, hlines, -⟩ := perform_effect (.wrnib p) s hs.idle
  rw [stmtsOf] at hlines
  refine perform_keeps_boundary_of_frame hs (by simp) (by simp) ?_ ?_ fun l => ?_
  · rw [hlines, linesAfterAll_wrnib_e, ← hs.e_eq]
  · rw [hlines, linesAfterAll_wrnib, Lines.setLat_e_rs, unitsLines_rs, wrnibStart_rs]
  · rw [hlines, linesAfterAll_wrnib, Lines.get_setLat_dir, unitsLines_dir, wrnibStart_dir]

theorem read_keeps_boundary {s : State} (hs : s.AtBoundary) (n : Nat) : (perform (.read n) s).AtBoundary := by
  obtain ⟨-, -, hidle, hlines, -⟩ := perform_effect (.read n) s hs.idle
  have hmode : (perform (.read n) s).rsMode = s.rsMode := perform_rsMode hs.idle (by simp)
  cases n with
  | zero =>
    have hlines : (perform (.read 0) s).lines = s.lines := hlines
    refine hs.of_extends (extends_perform _ s) hidle (by rw [hlines]) ?_ (by rw [hlines]) ?_
    · rw [hlines, hmode]; exact hs.rs_eq
    · rw [State.dirAgrees, hlines, perform_read_zero_dir hs.idle]
      exact hs.dirAgrees
  | succ n =>
    rw [stmtsOf, linesAfterAll_read s.lines s.cfg n hs.n_eq] at hlines
    refine hs.of_extends (extends_perform _ s) hidle ?_ ?_ (by rw [hlines]) ?_
    · rw [hlines]; exact hs.e_eq.symm
    · rw [hlines, hmode]; exact hs.rs_eq
    · rw [State.dirAgrees, hlines, perform_read_succ_dir hs.idle]
      exact List.forall_mem_map.mpr fun l _ => rfl

theorem perform_keeps_boundary {s : State} (hs : s.AtBoundary) (i : Instr) : (perform i s).AtBoundary := by
  cases i with
  | setmode b => exact setmode_keeps_boundary hs b
  | write p => exact write_keeps_boundary hs p
  | wrnib p => exact wrnib_keeps_boundary hs p
  | read n => exact read_keeps_boundary hs n

/-- A refusal touches nothing that a boundary speaks of (60_exceptions R103). -/
theorem refuse_keeps_boundary {s : State} (hs : s.AtBoundary) (q : Desc) (reason : RefuseReason) :
    (s.refuse q reason).AtBoundary :=
  hs.of_extends (extends_refuse s q reason) rfl rfl hs.rs_eq rfl hs.dirAgrees

theorem exec_keeps_boundary {s t : State} (hs : s.AtBoundary) {i : Instr} (h : exec i s = .next t) : t.AtBoundary := by
  cases hruns : requestRuns s.cfg i with
  | true =>
    obtain rfl := Host.Outcome.next.inj ((exec_of_runs hruns).symm.trans h)
    exact perform_keeps_boundary hs i
  | false =>
    obtain rfl := Host.Outcome.next.inj ((exec_of_not_runs hs.idle hruns).symm.trans h)
    exact refuse_keeps_boundary hs _ _

/-- The caller's move makes every data line an output and touches no other line (70_reset_and_hazards R141). -/
theorem restoreOut_lines (s : State) (h : s.cfg.n = s.lines.data.length) :
    (restoreOut s).lines = { s.lines with data := s.lines.data.map fun l => ⟨.output, l.lat⟩ } := by
  obtain ⟨-, -, -, -, -, -, -, hlines, -⟩ := cfgOutAll_spec s s.cfg.n
  exact hlines.trans (foldl_setDir_all s.lines .output s.cfg.n h)

theorem restoreOut_keeps_boundary {s : State} (hs : s.AtBoundary) : (restoreOut s).AtBoundary := by
  obtain ⟨hseq, hmode, -⟩ := cfgOutAll_spec s s.cfg.n
  have hmode : (restoreOut s).rsMode = s.rsMode := hmode
  have hlines := restoreOut_lines s hs.n_eq
  refine hs.of_extends (extends_restoreOut s) (hseq.trans hs.idle) ?_ ?_ ?_ ?_
  · rw [hlines]
  · rw [hlines, hmode]; exact hs.rs_eq
  · rw [hlines]
  · rw [State.dirAgrees, hlines]
    exact List.forall_mem_map.mpr fun l _ => rfl

/-- Taking a delivery from the port touches nothing that a boundary speaks of. -/
theorem withPort_keeps_boundary {s : State} (hs : s.AtBoundary) (rest : List Delivery) :
    (s.withPort rest).AtBoundary :=
  ⟨hs.cfgWf, hs.linesWf, hs.enableOut, hs.selectOut, hs.readWriteOut, hs.enableLow, hs.rsAgrees, hs.dirAgrees,
    hs.idle⟩

/-- Settles O45, by the cases of a step: requests, refusals and the caller's move each keep the boundary. -/
theorem stepKeepsTheBoundary : Obligations.StepKeepsTheBoundary := by
  intro s t hs hstep
  rcases step_cases s t hstep with ⟨a, hbusy, -⟩ | ⟨-, -, rfl⟩ | ⟨rest, -, -, rfl⟩ |
    ⟨r, rest, i, -, -, -, -, hexec⟩ | ⟨r, rest, reason, -, -, -, -, rfl⟩
  · exact absurd (hs.idle.symm.trans hbusy) (by simp)
  · exact hs
  · exact restoreOut_keeps_boundary (withPort_keeps_boundary hs rest)
  · exact exec_keeps_boundary (withPort_keeps_boundary hs rest) hexec
  · exact refuse_keeps_boundary (withPort_keeps_boundary hs rest) _ _

end Sys2Proof.Machine
end

section
/-! PROOFS. The state family (10_state R23, 40_bus_transport R71): a request as one transition is its statements
taken one at a time. -/

namespace Sys2Proof.Machine

theorem statementSteps_add (j k : Nat) (s : State) :
    statementSteps (j + k) s = statementSteps k (statementSteps j s) := by
  induction j generalizing s with
  | zero => rw [Nat.zero_add]; rfl
  | succ j ih => rw [Nat.succ_add]; exact ih (statementStep s)

/-- While a statement is left, the sequencer runs it. -/
theorem statementStep_of_lt {s : State} {a : Active} (h : s.seq = .busy a)
    (hlt : a.pos < (stmtsOf s.cfg a.req).length) :
    statementStep s = runStmt s (stmtsOf s.cfg a.req)[a.pos] := by
  simp only [statementStep, h, List.getElem?_eq_getElem hlt]

/-- With none left, it ends the request. -/
theorem statementStep_of_le {s : State} {a : Active} (h : s.seq = .busy a)
    (hle : (stmtsOf s.cfg a.req).length ≤ a.pos) : statementStep s = closeRequest s := by
  simp only [statementStep, h, List.getElem?_eq_none hle]

/-- As many steps as there are statements left run just these, in textual order (10_state R23). -/
theorem statementSteps_eq_runStmts {s : State} {a : Active} (h : s.seq = .busy a) {k : Nat}
    (hk : k ≤ (stmtsOf s.cfg a.req).length - a.pos) :
    statementSteps k s = runStmts s (((stmtsOf s.cfg a.req).drop a.pos).take k) := by
  induction k generalizing s a with
  | zero => rfl
  | succ k ih =>
    have hlt : a.pos < (stmtsOf s.cfg a.req).length := by omega
    obtain ⟨b, hb, hreq, hpos⟩ := runStmt_busy s (stmtsOf s.cfg a.req)[a.pos] a h
    have hrest := ih hb (by rw [runStmt_cfg, hreq, hpos]; omega)
    rw [runStmt_cfg, hreq, hpos] at hrest
    rw [List.drop_eq_getElem_cons hlt, List.take_succ_cons, runStmts_cons, ← hrest, ← statementStep_of_lt h]
    rfl

/-- A request in progress, run to its end, is the statements left of it and one step more that ends it. -/
theorem finish_eq_statementSteps {s : State} {a : Active} (h : s.seq = .busy a) :
    finish s = statementSteps ((stmtsOf s.cfg a.req).length - a.pos + 1) s := by
  obtain ⟨b, hb, hreq, hpos⟩ := runStmts_busy s ((stmtsOf s.cfg a.req).drop a.pos) a h
  rw [List.length_drop] at hpos
  have hend : (stmtsOf (runStmts s ((stmtsOf s.cfg a.req).drop a.pos)).cfg b.req).length ≤ b.pos := by
    rw [runStmts_cfg, hreq]; omega
  calc finish s
      = closeRequest (runStmts s ((stmtsOf s.cfg a.req).drop a.pos)) := by simp only [finish, h]
    _ = statementSteps 1 (runStmts s ((stmtsOf s.cfg a.req).drop a.pos)) := (statementStep_of_le hb hend).symm
    _ = statementSteps 1 (statementSteps ((stmtsOf s.cfg a.req).length - a.pos) s) := by
      rw [statementSteps_eq_runStmts h le_rfl, List.take_of_length_le (by simp)]
    _ = _ := (statementSteps_add _ 1 s).symm

/-- A request that has a descriptor runs: WRNIB in Eight mode has none (30_encoding R65). -/
theorem runs_of_wf {c : Cfg} {i : Instr} (h : i.wf c = true) : requestRuns c i = true := by
  cases i with
  | wrnib p =>
    rw [Instr.wf, Bool.and_eq_true, decide_eq_true_eq, decide_eq_true_eq] at h
    exact beq_iff_eq.mpr h.2
  | _ => rfl

/-- Settles O13: the request runs from acceptance to its end as `finish` does, and `finish` is the statements one
by one; the steps before the end leave the sequencer busy at their number. -/
theorem requestIsItsStatementsOneByOne : Obligations.RequestIsItsStatementsOneByOne := by
  intro s i hidle hwf
  refine ⟨?_, fun k hk => ?_⟩
  · rw [exec_of_runs (runs_of_wf hwf), perform, finish_idle s hidle, finish_eq_statementSteps (accept_seq s i)]
    rfl
  · obtain ⟨a, hbusy, hreq, hpos⟩ := accepted_busy i s ((stmtsOf s.cfg i).take k)
    refine ⟨a, ?_, hreq, hpos.trans (List.length_take_of_le hk)⟩
    rw [statementSteps_eq_runStmts (accept_seq s i) (by simpa using hk)]
    exact hbusy

theorem step_of_busy {s : State} {a : Active} (h : s.seq = .busy a) : step s = .next (finish s) := by
  simp only [step, fetch, h]

/-- Settles O14: the step of a busy transport is `finish`, which takes the statements left one by one, and no
statement touches the port. -/
theorem busyTransportFinishesItsRequest : Obligations.BusyTransportFinishesItsRequest := by
  intro s a h
  obtain ⟨b, -, hfinish⟩ := finish_of_busy s a h
  refine ⟨finish s, step_of_busy h, ?_, finish_seq s, finish_eq_statementSteps h⟩
  rw [hfinish, respond_port, runStmts_port]

end Sys2Proof.Machine
end

section
/-! PROOFS. The state family (10_state R31): what WRITE, WRNIB and READ leave, and their frames. -/

namespace Sys2Proof.Machine

/-- A ready transport has as many data lines as its width calls for. -/
theorem State.Ready.lines_eq {s : State} (hs : s.Ready) : s.cfg.width.lines = s.lines.data.length :=
  (Cfg.wf_n hs.cfgWf).symm.trans (beq_iff_eq.mp hs.linesWf).symm

theorem State.Ready.n_eq {s : State} (hs : s.Ready) : s.cfg.n = s.lines.data.length :=
  (beq_iff_eq.mp hs.linesWf).symm

theorem units_ne_nil (w : LineWidth) (v : Byte) : units w v ≠ [] := by cases w <;> simp [units]

/-- A payload has no unit only when it has no byte (42_transcoding R93). -/
theorem flatMap_units_eq_nil (w : LineWidth) (p : List Byte) : p.flatMap (units w) = [] ↔ p = [] := by
  cases p <;> simp [units_ne_nil]

theorem loNibble_bit (v : Byte) {i : Nat} (hi : i < 4) : (loNibble v).getLsbD i = v.getLsbD i := by
  have h : (0x0F#8).getLsbD i = true := by interval_cases i <;> rfl
  rw [loNibble, BitVec.getLsbD_and, h, Bool.and_true]

/-- What a request answers, with the bytes its statements have read. -/
theorem perform_result (i : Instr) (s : State) (h : s.seq = .idle) :
    ∃ a, (runStmts (s.accept i) (stmtsOf s.cfg i)).seq = .busy a ∧ (perform i s).result = resultOf a.rbuf i := by
  obtain ⟨a, ha, -, hp⟩ := perform_spec i s h
  exact ⟨a, ha, by rw [hp, respond_result]⟩

/-! ### WRITE -/

/-- Settles O21: the lines are those after the units, one by one from the `RW` drive on, and no statement of WRITE
sets the mode or the direction. -/
theorem writeEndState : Obligations.WriteEndState := by
  intro s p hs
  obtain ⟨hcfg, hport, hseq, hlines, -, -, hnow, -⟩ := perform_effect (.write p) s hs.idle
  obtain ⟨a, -, hresult⟩ := perform_result (.write p) s hs.idle
  have hmode := perform_rsMode (i := .write p) hs.idle (by simp)
  have hdir := perform_dir (i := .write p) hs.idle (by simp)
  rw [stmtsOf, linesAfterAll_write] at hlines
  refine ⟨perform (.write p) s, rfl, ?_, ?_, ?_, ?_, fun i hi => ?_, hmode, hdir, hcfg, hseq, hport, hresult,
    (Nat.le_add_right _ _).trans hnow⟩
  · rw [hlines, unitsLines_rw, Lines.setLat_rw_rw]
  · rw [hlines, unitsLines_rs, Lines.setLat_rw_rs]
  · rw [hlines, unitsLines_e, Lines.setLat_rw_e]
    simp only [flatMap_units_eq_nil]
  · rw [hlines, unitsLines_length, Lines.setLat_rw_data]
  · have hlen : s.cfg.width.lines ≤ (s.lines.setLat .rw s.cfg.rwWriteLevel).data.length := hs.lines_eq.le
    rw [hlines]
    refine (unitsLines_get _ _ _ i (Cfg.wf_n hs.cfgWf ▸ hi) hlen).trans ?_
    cases (p.flatMap (units s.cfg.width)).getLast? <;> rfl

/-! ### WRNIB -/

/-- The data lines after low nibbles sent in order hold bits 3–0 of the last element (40_bus_transport R74). -/
theorem unitsLines_loNibbles_get (ls : Lines) (p : List Byte) {i : Nat} (hi : i < 4) (hn : 4 ≤ ls.data.length) :
    (unitsLines 4 ls (p.map loNibble)).get (.d i) = match p.getLast? with
      | none => ls.get (.d i)
      | some v => ⟨(ls.get (.d i)).dir, some (if v.getLsbD i = true then .high else .low)⟩ := by
  rw [unitsLines_get 4 ls _ i hi hn, List.getLast?_map]
  cases p.getLast? with
  | none => rfl
  | some v => simp only [Option.map_some, loNibble_bit v hi]; rfl

/-- Settles O25: the lines are those after the low nibbles sent in order, from the optional `RW` drive to the trailing
pulse. -/
theorem wrnibEndState : Obligations.WrnibEndState := by
  intro s p hs hfour
  obtain ⟨hcfg, hport, hseq, hlines, -, -, hnow, -⟩ := perform_effect (.wrnib p) s hs.idle
  obtain ⟨a, -, hresult⟩ := perform_result (.wrnib p) s hs.idle
  have hmode := perform_rsMode (i := .wrnib p) hs.idle (by simp)
  have hdir := perform_dir (i := .wrnib p) hs.idle (by simp)
  rw [stmtsOf] at hlines
  have hn := Cfg.wf_four hs.cfgWf hfour
  refine ⟨perform (.wrnib p) s, exec_of_runs (beq_iff_eq.mpr hfour), ?_, ?_, ?_, ?_, fun i hi => ?_, hmode, hdir,
    hcfg, hseq, hport, hresult, (Nat.le_add_right _ _).trans hnow⟩
  · rw [hlines, linesAfterAll_wrnib, Lines.setLat_e_rw, unitsLines_rw, wrnibStart_rw]
  · rw [hlines, linesAfterAll_wrnib, Lines.setLat_e_rs, unitsLines_rs, wrnibStart_rs]
  · rw [hlines, linesAfterAll_wrnib_e]
  · rw [hlines, linesAfterAll_length]
  · have hlen : 4 ≤ (wrnibStart s.cfg s.lines).data.length := by
      rw [wrnibStart_data, ← hs.n_eq, hn]
    have hget := unitsLines_loNibbles_get (wrnibStart s.cfg s.lines) p (hn ▸ hi) hlen
    rw [wrnibStart_get_data] at hget
    rw [hlines, linesAfterAll_wrnib, Lines.get_setLat_other _ _ _ _ (by simp)]
    exact hget

/-! ### READ -/

/-- Whether a statement stores a byte of the answer (40_bus_transport R75). -/
def Stmt.stores : Stmt → Bool
  | .storeByte => true
  | .storeNibbles => true
  | _ => false

/-- A statement that stores lengthens the bytes read by one; no other does. -/
theorem runStmt_rbuf_length (s : State) (st : Stmt) (a : Active) (h : s.seq = .busy a) :
    ∃ b, (runStmt s st).seq = .busy b ∧ b.rbuf.length = a.rbuf.length + if st.stores then 1 else 0 := by
  cases st <;> simp [runStmt, stmtEffect, h, nextPos, Stmt.stores]

theorem runStmts_rbuf_length (s : State) (l : List Stmt) (a : Active) (h : s.seq = .busy a) :
    ∃ b, (runStmts s l).seq = .busy b ∧ b.rbuf.length = a.rbuf.length + l.countP Stmt.stores := by
  induction l generalizing s a with
  | nil => exact ⟨a, h, rfl⟩
  | cons st l ih =>
    obtain ⟨b, hb, hlen⟩ := runStmt_rbuf_length s st a h
    obtain ⟨b', hb', hlen'⟩ := ih _ b hb
    refine ⟨b', hb', ?_⟩
    rw [hlen', hlen, List.countP_cons]; omega

theorem countP_stores_hold (t : Nat) : (hold t).countP Stmt.stores = 0 := by
  unfold hold; split <;> rfl

theorem countP_stores_get (n : Nat) : (get n).countP Stmt.stores = 0 := by
  simp [get, Stmt.stores]

theorem countP_stores_dataLinesIn (c : Cfg) : (dataLinesIn c).countP Stmt.stores = 0 := by
  simp [dataLinesIn, Stmt.stores]

theorem countP_stores_readCycle (c : Cfg) (n : Nat) : (readCycle c n).countP Stmt.stores = 0 := by
  simp [readCycle, countP_stores_hold, countP_stores_get, Stmt.stores]

/-- One unit of READ stores one byte, after one cycle in Eight mode and after two in Four mode (R76, R77). -/
theorem countP_stores_readUnit (c : Cfg) : (readUnitStmts c).countP Stmt.stores = 1 := by
  unfold readUnitStmts
  cases c.width <;> simp [countP_stores_readCycle, Stmt.stores]

/-- READ stores as many bytes as it is to read (R75). -/
theorem countP_stores_read (c : Cfg) (n : Nat) : (readStmts c n).countP Stmt.stores = n := by
  cases n with
  | zero => rfl
  | succ n =>
    simp [readStmts, countP_stores_dataLinesIn, countP_stores_readUnit, List.countP_flatten, Stmt.stores]

/-- Settles O30: the lines are those after READ's statements, `DIR` is what its one assignment made it, and the answer
holds a byte for each store. -/
theorem readEndState : Obligations.ReadEndState := by
  intro s n hs hpos
  obtain ⟨m, rfl⟩ := Nat.exists_eq_add_of_lt hpos
  rw [Nat.zero_add]
  obtain ⟨hcfg, hport, hseq, hlines, -, -, hnow, -⟩ := perform_effect (.read (m + 1)) s hs.idle
  obtain ⟨a, hbusy, hresult⟩ := perform_result (.read (m + 1)) s hs.idle
  obtain ⟨b, hbusy', hlen⟩ := runStmts_rbuf_length (s.accept (.read (m + 1))) (stmtsOf s.cfg (.read (m + 1))) _ rfl
  obtain rfl : a = b := Seq.busy.inj (hbusy.symm.trans hbusy')
  have hmode := perform_rsMode (i := .read (m + 1)) hs.idle (by simp)
  have hdir := perform_read_succ_dir hs.idle m
  rw [stmtsOf, linesAfterAll_read s.lines s.cfg m hs.n_eq] at hlines
  rw [stmtsOf, countP_stores_read, List.length_nil, Nat.zero_add] at hlen
  refine ⟨perform (.read (m + 1)) s, rfl, ?_, ?_, ?_, ?_, hmode, hdir, hcfg, hseq, hport, ?_, ?_, ?_,
    (Nat.le_add_right _ _).trans hnow⟩
  · rw [hlines]
  · rw [hlines]
  · rw [hlines]
  · rw [hlines]
  · rw [hresult]; rfl
  · rw [hresult]; rfl
  · rw [hresult]; exact hlen

end Sys2Proof.Machine
end

section
/-! PROOFS. The state family (10_state R19, R21): only SETMODE touches `RSMODE`, and the transitions of `DIR`. -/

namespace Sys2Proof.Machine

/-! ### What an idle transport takes from the port -/

section
variable {s : State} {r : Request} {rest : List Delivery} (hidle : s.seq = .idle)
include hidle

theorem fetch_of_decoded {i : Instr} (hport : s.port = .request r :: rest) (hframed : r.framed s.cfg = true)
    (hdec : decodeRequest s.cfg r = .ok i) : fetch s = .run i rest := by
  simp only [fetch, hidle, hport, hframed, hdec, if_true]

theorem step_of_refused {reason : RefuseReason} (hport : s.port = .request r :: rest)
    (hframed : r.framed s.cfg = true) (hdec : decodeRequest s.cfg r = .error reason) :
    step s = .next ((s.withPort rest).refuse r.desc reason) := by
  simp only [step, fetch, hidle, hport, hframed, hdec, if_true]

theorem step_of_restoreOut (hport : s.port = .restoreOut :: rest) :
    step s = .next (restoreOut (s.withPort rest)) := by
  simp only [step, fetch, hidle, hport]

end

/-! ### The mode -/

/-- A refusal or a request that is not SETMODE leaves the mode as it was (10_state R19). -/
theorem exec_rsMode {i : Instr} {s t : State} (hidle : s.seq = .idle) (hi : ∀ b, i ≠ .setmode b)
    (h : exec i s = .next t) : t.rsMode = s.rsMode := by
  cases hruns : requestRuns s.cfg i with
  | true =>
    obtain rfl := Host.Outcome.next.inj ((exec_of_runs hruns).symm.trans h)
    exact perform_rsMode hidle hi
  | false =>
    obtain rfl := Host.Outcome.next.inj ((exec_of_not_runs hidle hruns).symm.trans h)
    rfl

/-- No statement reads the mode: with another one it does the same in everything else. -/
theorem runStmt_withMode (s : State) (m : RsMode) (st : Stmt) :
    runStmt { s with rsMode := m } st = { runStmt s st with rsMode := st.modeAfter m } := by
  cases st <;> rfl

theorem runStmts_withMode (s : State) (m : RsMode) (l : List Stmt) :
    runStmts { s with rsMode := m } l = { runStmts s l with rsMode := l.foldl Stmt.modeAfter m } := by
  induction l generalizing s m with
  | nil => rfl
  | cons st l ih => rw [runStmts_cons, runStmt_withMode, ih]; rfl

theorem perform_withMode {i : Instr} {s : State} (hidle : s.seq = .idle) (hi : ∀ b, i ≠ .setmode b) (m : RsMode) :
    perform i { s with rsMode := m } = { perform i s with rsMode := m } := by
  obtain ⟨a, ha, -, hp⟩ := perform_spec i s hidle
  obtain ⟨b, hb, -, hq⟩ := perform_spec i { s with rsMode := m } hidle
  have hrun : runStmts (State.accept { s with rsMode := m } i) (stmtsOf s.cfg i) =
      { runStmts (s.accept i) (stmtsOf s.cfg i) with rsMode := m } := by
    rw [show State.accept { s with rsMode := m } i = { s.accept i with rsMode := m } from rfl,
      runStmts_withMode, foldl_modeAfter_of_none _ _ (modeAfter_stmtsOf s.cfg i hi)]
  rw [hrun] at hb hq
  obtain rfl : a = b := Seq.busy.inj (ha.symm.trans hb)
  rw [hp, hq]
  rfl

theorem exec_withMode {i : Instr} {s t : State} (hidle : s.seq = .idle) (hi : ∀ b, i ≠ .setmode b)
    (h : exec i s = .next t) (m : RsMode) : exec i { s with rsMode := m } = .next { t with rsMode := m } := by
  cases hruns : requestRuns s.cfg i with
  | true =>
    obtain rfl := Host.Outcome.next.inj ((exec_of_runs hruns).symm.trans h)
    rw [← perform_withMode hidle hi]
    exact exec_of_runs hruns
  | false =>
    obtain rfl := Host.Outcome.next.inj ((exec_of_not_runs hidle hruns).symm.trans h)
    exact exec_of_not_runs hidle hruns

theorem restoreOut_rsMode (s : State) : (restoreOut s).rsMode = s.rsMode := by
  obtain ⟨-, hmode, -⟩ := cfgOutAll_spec s s.cfg.n
  exact hmode

/-- Settles O48: no statement but SETMODE's sets the mode and none reads it; a step of an idle transport that runs no
SETMODE runs another request, refuses one, waits, or is the caller's move. -/
theorem onlySetmodeTouchesTheMode : Obligations.OnlySetmodeTouchesTheMode := by
  refine ⟨fun s t i hidle hi h => ⟨exec_rsMode hidle hi h, exec_withMode hidle hi h⟩,
    fun s t hidle hstep hfetch => ?_⟩
  rcases step_cases s t hstep with ⟨a, hbusy, -⟩ | ⟨-, -, rfl⟩ | ⟨rest, -, -, rfl⟩ |
    ⟨r, rest, i, -, hport, hframed, hdec, hexec⟩ | ⟨r, rest, reason, -, -, -, -, rfl⟩
  · exact absurd (hidle.symm.trans hbusy) (by simp)
  · rfl
  · exact restoreOut_rsMode _
  · refine exec_rsMode (s := s.withPort rest) hidle (fun b hb => hfetch b rest ?_) hexec
    rw [← hb]
    exact fetch_of_decoded hidle hport hframed hdec
  · rfl

/-! ### The direction -/

/-- `DIR` after a request that runs (10_state R21). -/
def dirAfterRequest (d : LineDir) : Instr → LineDir
  | .read (_ + 1) => .input
  | _ => d

theorem perform_dir_eq {s : State} (hidle : s.seq = .idle) (i : Instr) :
    (perform i s).dir = dirAfterRequest s.dir i := by
  cases i with
  | read n => cases n with
    | zero => exact perform_read_zero_dir hidle
    | succ n => exact perform_read_succ_dir hidle n
  | _ => exact perform_dir hidle (by simp)

theorem exec_dir_eq {s : State} (hidle : s.seq = .idle) (i : Instr) :
    ∃ t, exec i s = .next t ∧ t.dir = dirAfterRequest s.dir i := by
  cases hruns : requestRuns s.cfg i with
  | true => exact ⟨_, exec_of_runs hruns, perform_dir_eq hidle i⟩
  | false =>
    refine ⟨_, exec_of_not_runs hidle hruns, ?_⟩
    cases i with
    | wrnib p => rfl
    | _ => cases hruns

/-- Settles O49: the table of requests, then the refusals, then the caller's move. -/
theorem directionTransitions : Obligations.DirectionTransitions := by
  refine ⟨fun s i hidle => ?_, fun s r rest reason hidle hport hframed hdec => ?_, fun s rest hidle hport => ?_⟩
  · obtain ⟨t, hexec, hdir⟩ := exec_dir_eq hidle i
    refine ⟨t, hexec, hdir.trans ?_⟩
    cases i with
    | read n => cases n <;> rfl
    | _ => rfl
  · exact ⟨_, step_of_refused hidle hport hframed hdec, rfl⟩
  · exact ⟨_, step_of_restoreOut hidle hport, rfl⟩

end Sys2Proof.Machine
end

section
/-! PROOFS. The state family (10_state R24, R28): the calls of a request are fixed by the configuration and the
request, and taps are observational. -/

namespace Sys2Proof.Machine

/-! ### The calls of a request -/

/-- What a request fixes of its events: `Begin`, its statements' calls and taps, and `End`, without times and sampled
levels (10_state R24). -/
def requestShapes (c : Cfg) (i : Instr) : List EventKind :=
  .beginReq (encodeDesc c i) ::
    if requestRuns c i then
      (stmtsOf c i).filterMap Stmt.shape ++ [.endReq (resultOf [] i).count (resultOf [] i).status]
    else [.endReq 0 (.refused .wrnibEightMode)]

theorem resultOf_count (rbuf : List Byte) (i : Instr) : (resultOf rbuf i).count = (resultOf [] i).count := by
  rcases i with b | p | p | (_ | n) <;> rfl

theorem resultOf_status (rbuf : List Byte) (i : Instr) : (resultOf rbuf i).status = (resultOf [] i).status := by
  rcases i with b | p | p | (_ | n) <;> rfl

theorem exec_shapes {s : State} (hidle : s.seq = .idle) (i : Instr) : ∃ t evs, exec i s = .next t ∧
    t.trace = s.trace ++ evs ∧ evs.map (fun ev => ev.kind.shape) = requestShapes s.cfg i := by
  cases hruns : requestRuns s.cfg i with
  | true =>
    obtain ⟨-, -, -, -, -, -, -, htrace⟩ := perform_effect i s hidle
    obtain ⟨a, -, hresult⟩ := perform_result i s hidle
    refine ⟨_, _, exec_of_runs hruns, htrace, ?_⟩
    rw [hresult, resultOf_count, resultOf_status, List.map_append, List.map_cons, eventsOf_shape, requestShapes,
      if_pos hruns]
    rfl
  | false =>
    refine ⟨_, [⟨s.now, .beginReq (encodeDesc s.cfg i)⟩, ⟨s.now, .endReq 0 (.refused .wrnibEightMode)⟩],
      exec_of_not_runs hidle hruns, by simp, ?_⟩
    rw [requestShapes, hruns]
    rfl

/-- Settles O51: the shapes of a request's events are `requestShapes`, which the states enter by their configuration
alone. -/
theorem sampledLevelsDoNotSteer : Obligations.SampledLevelsDoNotSteer := by
  intro s s' i hidle hidle' hcfg
  obtain ⟨t, evs, hexec, htrace, hshapes⟩ := exec_shapes hidle i
  obtain ⟨t', evs', hexec', htrace', hshapes'⟩ := exec_shapes hidle' i
  exact ⟨t, t', evs, evs', hexec, hexec', htrace, htrace', by rw [hshapes, hshapes', hcfg]⟩

/-! ### A state without its taps -/

/-- Events but for the taps. -/
def untapped (evs : List Event) : List Event := evs.filter fun ev => !ev.kind.isTap

@[simp] theorem untapped_append (a b : List Event) : untapped (a ++ b) = untapped a ++ untapped b :=
  List.filter_append ..

@[simp] theorem untapped_untapped (evs : List Event) : untapped (untapped evs) = untapped evs := by
  simp [untapped]

/-- The other scope of taps in a configuration (00_scope R6). -/
def withScope (c : Cfg) (scope : TapScope) : Cfg := { c with tapScope := scope }

/-- A state but for its taps: those of the trace, the scope that asks for them, and `pos`, which counts them among the
statements. Two states are the same but for taps when this makes them equal. -/
def State.untap (s : State) : State :=
  { s with cfg := withScope s.cfg .reference, trace := untapped s.trace, seq := s.seq.map fun a => { a with pos := 0 } }

theorem untap_untap (s : State) : s.untap.untap = s.untap := by
  rcases s with ⟨_, _, _, _, seq, _, _, _, _, _⟩
  cases seq <;> simp [State.untap, withScope]

/-! ### No oracle sees a tap -/

theorem foldl_replayAfter_untapped (c : Cfg) (scope : TapScope) (evs : List Event) (v : ReplayView) :
    (untapped evs).foldl (ReplayView.after (withScope c scope)) v = evs.foldl (ReplayView.after c) v := by
  induction evs generalizing v with
  | nil => rfl
  | cons ev evs ih =>
    obtain ⟨t, k⟩ := ev
    cases k <;> exact ih _

theorem replayAnswer_untapped (c : Cfg) (scope : TapScope) (trace : List Event) (i : Nat) :
    replayAnswer (withScope c scope) (untapped trace) i = replayAnswer c trace i := by
  have hview : replayView (withScope c scope) (untapped trace) = replayView c trace :=
    foldl_replayAfter_untapped c scope trace _
  rw [replayAnswer, hview]
  rfl

theorem oracleAnswer_untap (s : State) (l : Line) : oracleAnswer s.untap l = oracleAnswer s l := by
  have henv : s.untap.env = s.env := rfl
  unfold oracleAnswer
  rw [henv]
  cases s.env.oracle with
  | latchReplay =>
    cases l with
    | d i => exact replayAnswer_untapped s.cfg .reference s.trace i
    | _ => rfl
  | _ => rfl

theorem sampleLevel_untap (s : State) (l : Line) : s.untap.sampleLevel l = s.sampleLevel l := by
  rw [State.sampleLevel, oracleAnswer_untap]; rfl

theorem envAfterSample_untap (s : State) (l : Line) : s.untap.envAfterSample l = s.envAfterSample l := by
  rw [State.envAfterSample, oracleAnswer_untap]; rfl

/-! ### Statements but for taps -/

/-- `emit Tap` (60_exceptions R109). -/
def Stmt.isTap : Stmt → Bool
  | .tap _ _ => true
  | _ => false

/-- Moving on by one statement shows only in `pos`. -/
theorem mapActive_nextPos_untap (s : State) : (s.mapActive nextPos).untap = s.untap := by
  rcases s with ⟨_, _, _, _, seq, _, _, _, _, _⟩
  cases seq <;> rfl

theorem runStmt_tap_untap (s : State) (v : Byte) (w : Nat) : (runStmt s (.tap v w)).untap = s.untap := by
  have htap : untapped [⟨s.now, .tap v w⟩] = [] := rfl
  rw [runStmt, mapActive_nextPos_untap]
  simp [stmtEffect, State.untap, htap]

theorem stmtEffect_untap (s : State) (st : Stmt) : (stmtEffect s.untap st).untap = (stmtEffect s st).untap := by
  cases st with
  | sampleBit i =>
    simp only [stmtEffect, State.sample, sampleLevel_untap, envAfterSample_untap]
    rcases s with ⟨_, _, _, _, seq, _, _, _, _, _⟩
    cases seq <;> simp [State.untap, withScope, State.mapActive, State.emit, State.elapse]
  | _ =>
    rcases s with ⟨_, _, _, _, seq, _, _, _, _, _⟩
    cases seq <;> simp [stmtEffect, State.untap, withScope, State.mapActive]

/-- A statement does the same but for taps to states that are the same but for taps. -/
theorem runStmt_congr_untap {s u : State} (h : s.untap = u.untap) (st : Stmt) :
    (runStmt s st).untap = (runStmt u st).untap := by
  simp only [runStmt, mapActive_nextPos_untap]
  rw [← stmtEffect_untap s, h, stmtEffect_untap]

theorem runStmts_congr_untap {s u : State} (h : s.untap = u.untap) (l : List Stmt) :
    (runStmts s l).untap = (runStmts u l).untap := by
  induction l generalizing s u with
  | nil => exact h
  | cons st l ih => exact ih (runStmt_congr_untap h st)

/-- Statements do the same but for taps as those of them that are no taps. -/
theorem runStmts_filter_untap (s : State) (l : List Stmt) :
    (runStmts s (l.filter fun st => !st.isTap)).untap = (runStmts s l).untap := by
  induction l generalizing s with
  | nil => rfl
  | cons st l ih =>
    rw [runStmts_cons]
    cases st with
    | tap v w => exact (ih s).trans (runStmts_congr_untap (runStmt_tap_untap s v w).symm l)
    | _ => exact ih _

/-! ### Requests but for taps -/

theorem filter_tapIfAll (c : Cfg) (v : Byte) (w : Nat) : (tapIfAll c v w).filter (fun st => !st.isTap) = [] := by
  unfold tapIfAll; split <;> rfl

/-- Under either scope the statements of a byte of WRITE are the same but for taps (R80). -/
theorem filter_writeByte_withScope (c : Cfg) (scope : TapScope) (v : Byte) :
    (writeByteStmts (withScope c scope) v).filter (fun st => !st.isTap) =
      (writeByteStmts c v).filter (fun st => !st.isTap) := by
  have hwidth : (withScope c scope).width = c.width := rfl
  unfold writeByteStmts
  rw [hwidth]
  cases c.width with
  | four => rfl
  | eight => simp only [List.filter_append, filter_tapIfAll]; rfl

theorem filter_wrnibElem_withScope (c : Cfg) (scope : TapScope) (v : Byte) :
    (wrnibElemStmts (withScope c scope) v).filter (fun st => !st.isTap) =
      (wrnibElemStmts c v).filter (fun st => !st.isTap) := by
  simp only [wrnibElemStmts, List.filter_append, filter_tapIfAll]
  rfl

theorem filter_stmtsOf_withScope (c : Cfg) (scope : TapScope) (i : Instr) :
    (stmtsOf (withScope c scope) i).filter (fun st => !st.isTap) =
      (stmtsOf c i).filter (fun st => !st.isTap) := by
  cases i with
  | setmode b => rfl
  | read n => cases n <;> rfl
  | write p =>
    simp only [stmtsOf, writeStmts, List.filter_cons, List.filter_flatMap, filter_writeByte_withScope]
    rfl
  | wrnib p =>
    simp only [stmtsOf, wrnibStmts, List.filter_append, List.filter_flatMap, filter_wrnibElem_withScope]
    rfl

theorem encodeDesc_withScope (c : Cfg) (scope : TapScope) (i : Instr) :
    encodeDesc (withScope c scope) i = encodeDesc c i := by cases i <;> rfl

theorem requestRuns_withScope (c : Cfg) (scope : TapScope) (i : Instr) :
    requestRuns (withScope c scope) i = requestRuns c i := by cases i <;> rfl

theorem respond_untap (s : State) (r : Result) : (s.untap.respond r).untap = (s.respond r).untap := by
  simp [State.untap, State.respond, State.emit, withScope]

theorem closeRequest_untap (s : State) : (closeRequest s.untap).untap = (closeRequest s).untap := by
  cases h : s.seq with
  | idle =>
    have hu : s.untap.seq = .idle := by simp [State.untap, h]
    rw [closeRequest, closeRequest, h, hu]
    exact untap_untap s
  | busy a =>
    have hu : s.untap.seq = .busy { a with pos := 0 } := by simp [State.untap, h]
    rw [closeRequest_spec s a h, closeRequest_spec _ _ hu]
    exact respond_untap s _

theorem perform_withScope {i : Instr} {s : State} (hidle : s.seq = .idle) (scope : TapScope) :
    (perform i { s with cfg := withScope s.cfg scope }).untap = (perform i s).untap := by
  have haccept : (State.accept { s with cfg := withScope s.cfg scope } i).untap = (s.accept i).untap := by
    simp only [State.accept, State.emit, encodeDesc_withScope]
    rfl
  have hrun : (runStmts (State.accept { s with cfg := withScope s.cfg scope } i)
      (stmtsOf (withScope s.cfg scope) i)).untap = (runStmts (s.accept i) (stmtsOf s.cfg i)).untap := by
    rw [← runStmts_filter_untap, filter_stmtsOf_withScope, runStmts_filter_untap, runStmts_congr_untap haccept]
  rw [perform_of_idle i s hidle, perform_of_idle i { s with cfg := withScope s.cfg scope } hidle,
    ← closeRequest_untap, hrun, closeRequest_untap]

theorem exec_withScope {s : State} (hidle : s.seq = .idle) (i : Instr) (scope : TapScope) :
    ∃ t u, exec i s = .next t ∧ exec i { s with cfg := withScope s.cfg scope } = .next u ∧ u.untap = t.untap := by
  have hscope := requestRuns_withScope s.cfg scope i
  cases hruns : requestRuns s.cfg i with
  | true =>
    exact ⟨_, _, exec_of_runs hruns, exec_of_runs (hscope.trans hruns), perform_withScope hidle scope⟩
  | false =>
    refine ⟨_, _, exec_of_not_runs hidle hruns, exec_of_not_runs hidle (hscope.trans hruns), ?_⟩
    rw [encodeDesc_withScope]
    rfl

/-- Settles O52: under the two scopes a request leaves states that are the same but for taps, and both traces go on
from the one before. -/
theorem tapsAreObservational : Obligations.TapsAreObservational := by
  intro s i scope hidle
  obtain ⟨t, u, ht, hu, hsame⟩ := exec_withScope hidle i scope
  obtain ⟨evs, htrace, -⟩ := (extends_exec i _ t ht).events
  obtain ⟨evs', htrace', -⟩ := (extends_exec i _ u hu).events
  simp only [State.untap, State.mk.injEq] at hsame
  obtain ⟨-, hlines, hmode, hdir, -, hresult, hnow, hevents, -, henv⟩ := hsame
  rw [htrace, htrace', untapped_append, untapped_append] at hevents
  exact ⟨t, u, evs, evs', ht, hu, htrace, htrace', (List.append_cancel_left hevents).symm, hlines, hmode, hdir,
    hresult, hnow, henv⟩

end Sys2Proof.Machine
end

section
/-! PROOFS. The memory family (20_memory R41, 70_reset_and_hazards R136, R137): every step completes. -/

namespace Sys2Proof.Machine

theorem step_next (s : State) : ∃ t, step s = .next t := by
  unfold step
  cases fetch s with
  | resume => exact ⟨_, rfl⟩
  | wait => exact ⟨_, rfl⟩
  | restore rest => exact ⟨_, rfl⟩
  | run i rest =>
    obtain ⟨t, hexec, -⟩ := exec_next i (s.withPort rest)
    exact ⟨t, hexec⟩
  | refuse q reason rest => exact ⟨_, rfl⟩

theorem restoreOut_seq (s : State) : (restoreOut s).seq = s.seq := by
  obtain ⟨hseq, -⟩ := cfgOutAll_spec s s.cfg.n
  exact hseq

theorem step_leaves_idle {s t : State} (h : step s = .next t) : t.seq = .idle := by
  rcases step_cases s t h with ⟨a, -, rfl⟩ | ⟨hidle, -, rfl⟩ | ⟨rest, hidle, -, rfl⟩ |
    ⟨r, rest, i, -, -, -, -, hexec⟩ | ⟨r, rest, reason, -, -, -, -, rfl⟩
  · exact finish_seq s
  · exact hidle
  · rw [restoreOut_seq]; exact hidle
  · obtain ⟨u, hu, hidle⟩ := exec_next i (s.withPort rest)
    rwa [← Host.Outcome.next.inj (hexec.symm.trans hu)] at hidle
  · rfl

/-- Settles O12: whatever is fetched has a next state, and each case of a step leaves the sequencer idle. -/
theorem everyStepCompletesAndLeavesIdle : Obligations.EveryStepCompletesAndLeavesIdle := by
  intro s
  obtain ⟨t, hstep⟩ := step_next s
  exact ⟨t, hstep, step_leaves_idle hstep⟩

end Sys2Proof.Machine
end

section
/-! PROOFS. The memory family (20_memory R40, R41, 70_reset_and_hazards R135): the minimum duration of every request, and
draws of elapsed time that reach it. -/

namespace Sys2Proof.Machine

/-! ### The time that a request's statements take at least -/

@[simp] theorem minTimeAll_pulse (c : Cfg) : minTimeAll (pulse c) = c.tEl + c.tEh + c.tSettle := by
  simp [pulse, Stmt.minTime]; omega

@[simp] theorem minTimeAll_hold (t : Nat) : minTimeAll (hold t) = t := by
  unfold hold
  split
  · simp [Stmt.minTime]
  · simp; omega

/-- Statements without a `Sleep` ask for no time (20_memory R41). -/
theorem minTimeAll_eq_zero {l : List Stmt} (h : ∀ st ∈ l, st.minTime = 0) : minTimeAll l = 0 :=
  List.sum_eq_zero (by simpa using h)

@[simp] theorem minTimeAll_put (v : Byte) (n : Nat) : minTimeAll (put v n) = 0 :=
  minTimeAll_eq_zero (by simp [put, Stmt.minTime])

@[simp] theorem minTimeAll_get (n : Nat) : minTimeAll (get n) = 0 :=
  minTimeAll_eq_zero (by simp [get, Stmt.minTime])

@[simp] theorem minTimeAll_dataLinesIn (c : Cfg) : minTimeAll (dataLinesIn c) = 0 :=
  minTimeAll_eq_zero (by simp [dataLinesIn, Stmt.minTime])

@[simp] theorem minTimeAll_tapIfAll (c : Cfg) (v : Byte) (w : Nat) : minTimeAll (tapIfAll c v w) = 0 := by
  unfold tapIfAll; split <;> rfl

/-- Pieces that each take `m` take `m` times their number. -/
theorem minTimeAll_flatMap {f : Byte → List Stmt} {m : Nat} (h : ∀ v, minTimeAll (f v) = m) (p : List Byte) :
    minTimeAll (p.flatMap f) = p.length * m := by
  induction p with
  | nil => simp
  | cons v p ih => rw [List.flatMap_cons, minTimeAll_append, h, ih, List.length_cons, Nat.succ_mul, Nat.add_comm]

theorem minTimeAll_replicate (l : List Stmt) (k : Nat) :
    minTimeAll (List.replicate k l).flatten = k * minTimeAll l := by
  induction k with
  | zero => simp
  | succ k ih =>
    rw [List.replicate_succ, List.flatten_cons, minTimeAll_append, ih, Nat.succ_mul, Nat.add_comm]

theorem minTimeAll_writeByte (c : Cfg) (v : Byte) : minTimeAll (writeByteStmts c v) =
    match c.width with
    | .eight => c.tEl + c.tEh + c.tSettle
    | .four => 2 * (c.tEl + c.tEh + c.tSettle) := by
  unfold writeByteStmts
  cases c.width with
  | eight => simp
  | four => simp [Stmt.minTime]; omega

theorem minTimeAll_wrnibElem (c : Cfg) (v : Byte) :
    minTimeAll (wrnibElemStmts c v) = c.tEl + c.tEh + c.tSettle := by
  simp [wrnibElemStmts]

theorem minTimeAll_readCycle (c : Cfg) (n : Nat) : minTimeAll (readCycle c n) = c.tRdEh + c.tRdEl := by
  simp [readCycle, Stmt.minTime]

theorem minTimeAll_readUnit (c : Cfg) : minTimeAll (readUnitStmts c) =
    match c.width with
    | .eight => c.tRdEh + c.tRdEl
    | .four => 2 * (c.tRdEh + c.tRdEl) := by
  unfold readUnitStmts
  cases c.width with
  | eight => simp [minTimeAll_readCycle, Stmt.minTime]
  | four => simp [minTimeAll_readCycle, Stmt.minTime]; omega

/-- The statements of a request that runs ask for its minimum duration (70_reset_and_hazards R135). -/
theorem minTimeAll_stmtsOf {c : Cfg} {i : Instr} (h : requestRuns c i = true) :
    minTimeAll (stmtsOf c i) = minDuration c i := by
  cases i with
  | setmode b => rfl
  | write p =>
    rw [stmtsOf, writeStmts, minTimeAll_cons, minTimeAll_flatMap (minTimeAll_writeByte c), minDuration]
    cases c.width with
    | four => simp only [Stmt.minTime]; ring
    | eight => simp only [Stmt.minTime]; ring
  | wrnib p =>
    have hdrive : minTimeAll (if c.wnDrivesRw then [.drive .rw c.rwWriteLevel] else []) = 0 := by split <;> rfl
    rw [stmtsOf, wrnibStmts, minTimeAll_append, minTimeAll_append, hdrive,
      minTimeAll_flatMap (minTimeAll_wrnibElem c), minTimeAll_pulse, minDuration, beq_iff_eq.mp h]
    ring
  | read n =>
    rw [stmtsOf, minDuration]
    cases n with
    | zero => cases c.width <;> simp [readStmts]
    | succ n =>
      simp only [readStmts, List.cons_append, minTimeAll_cons, minTimeAll_append, minTimeAll_dataLinesIn,
        minTimeAll_replicate, minTimeAll_readUnit, Stmt.minTime]
      cases c.width with
      | four => ring
      | eight => ring

/-! ### The draws of elapsed time that reach it -/

/-- At least `m` draws of elapsed time to come are 0 (the reference timing of 95_test_vectors section 0). -/
def State.zeroDraws (m : Nat) (s : State) : Prop := ∃ k, m ≤ k ∧ s.env.delays = List.replicate k 0

theorem envAfterSample_delays (s : State) (l : Line) : (s.envAfterSample l).delays = s.env.delays := by
  unfold State.envAfterSample Env.afterAnswer
  split
  · rfl
  · split <;> rfl

theorem Env.delay_of_zero {e : Env} {k : Nat} (h : e.delays = List.replicate (k + 1) 0) : e.delay = 0 := by
  simp [Env.delay, h, List.replicate_succ]

theorem Env.afterDelay_of_zero {e : Env} {k : Nat} (h : e.delays = List.replicate (k + 1) 0) :
    e.afterDelay.delays = List.replicate k 0 := by
  simp [Env.afterDelay, h, List.replicate_succ]

/-- A statement whose draw is 0 takes just what it asks for, and no statement uses more than one draw. -/
theorem runStmt_of_zeroDraws {s : State} {m : Nat} (h : s.zeroDraws (m + 1)) (st : Stmt) :
    (runStmt s st).now = s.now + st.minTime ∧ (runStmt s st).zeroDraws m := by
  obtain ⟨k, hk, hd⟩ := h
  obtain ⟨k, rfl⟩ := Nat.exists_eq_add_of_le' (Nat.one_le_of_lt hk)
  have hdelay := Env.delay_of_zero hd
  have hafter := Env.afterDelay_of_zero hd
  cases st with
  | sampleBit i =>
    have hd' := (envAfterSample_delays s (.d i)).trans hd
    exact ⟨by simp [runStmt, stmtEffect, Stmt.minTime, Env.delay_of_zero hd'],
      k, by omega, Env.afterDelay_of_zero hd'⟩
  | cfgIn l => exact ⟨by simp [runStmt, stmtEffect, Stmt.minTime, hdelay], k, by omega, hafter⟩
  | drive l lvl => exact ⟨by simp [runStmt, stmtEffect, Stmt.minTime, hdelay], k, by omega, hafter⟩
  | sleep t => exact ⟨by simp [runStmt, stmtEffect, Stmt.minTime, hdelay], k, by omega, hafter⟩
  | _ => exact ⟨rfl, k + 1, by omega, hd⟩

theorem runStmts_now_of_zeroDraws {s : State} {l : List Stmt} (h : s.zeroDraws l.length) :
    (runStmts s l).now = s.now + minTimeAll l := by
  induction l generalizing s with
  | nil => rfl
  | cons st l ih =>
    obtain ⟨hnow, hdraws⟩ := runStmt_of_zeroDraws h st
    rw [runStmts_cons, ih hdraws, hnow, minTimeAll_cons, Nat.add_assoc]

/-- A request takes no time beyond its statements. -/
theorem perform_now {i : Instr} {s : State} (hidle : s.seq = .idle) :
    (perform i s).now = (runStmts (s.accept i) (stmtsOf s.cfg i)).now := by
  obtain ⟨a, -, -, hp⟩ := perform_spec i s hidle
  rw [hp, respond_now]

/-- A request that does not run has no minimum duration. -/
theorem minDuration_of_not_runs {c : Cfg} {i : Instr} (h : requestRuns c i = false) : minDuration c i = 0 := by
  cases i with
  | wrnib p =>
    cases hw : c.width with
    | four => simp [requestRuns, hw] at h
    | eight => simp only [minDuration, hw]
  | _ => cases h

theorem exec_minDuration_le {s : State} (hidle : s.seq = .idle) (i : Instr) :
    ∃ t, exec i s = .next t ∧ s.now + minDuration s.cfg i ≤ t.now := by
  cases hruns : requestRuns s.cfg i with
  | true =>
    refine ⟨_, exec_of_runs hruns, ?_⟩
    rw [perform_now hidle, ← minTimeAll_stmtsOf hruns]
    exact runStmts_now (s.accept i) _
  | false => exact ⟨_, exec_of_not_runs hidle hruns, (congrArg (s.now + ·) (minDuration_of_not_runs hruns)).le⟩

theorem exec_minDuration_of_zeroDraws {s : State} (hidle : s.seq = .idle) {i : Instr}
    (h : s.zeroDraws (stmtsOf s.cfg i).length) :
    ∃ t, exec i s = .next t ∧ t.now = s.now + minDuration s.cfg i := by
  cases hruns : requestRuns s.cfg i with
  | true =>
    refine ⟨_, exec_of_runs hruns, ?_⟩
    rw [perform_now hidle, ← minTimeAll_stmtsOf hruns]
    exact runStmts_now_of_zeroDraws (s := s.accept i) h
  | false => exact ⟨_, exec_of_not_runs hidle hruns, by rw [minDuration_of_not_runs hruns]; rfl⟩

/-- Settles O40: the minimum is what the request's statements ask for, and as many draws of 0 as it has statements
give just that. -/
theorem minimumDurations : Obligations.MinimumDurations := by
  intro s i hs
  let zeros := List.replicate (stmtsOf s.cfg i).length 0
  exact ⟨exec_minDuration_le hs.idle i, zeros,
    exec_minDuration_of_zeroDraws (s := { s with env := { s.env with delays := zeros } }) hs.idle
      ⟨(stmtsOf s.cfg i).length, le_rfl, rfl⟩⟩

end Sys2Proof.Machine
end

section
/-! PROOFS. The memory family (20_memory R42, R43, 70_reset_and_hazards R122): what the display latches during
WRITE and WRNIB, on output and on input data lines. -/

namespace Sys2Proof.Machine

/-! ### The data that units carry -/

@[simp] theorem unitLines_rs (n : Nat) (ls : Lines) (u : Byte) : (unitLines n ls u).rs = ls.rs :=
  unitsLines_rs n ls [u]

@[simp] theorem unitLines_rw (n : Nat) (ls : Lines) (u : Byte) : (unitLines n ls u).rw = ls.rw :=
  unitsLines_rw n ls [u]

/-- What the bus shows of a unit driven on data lines of one direction (R42). -/
def sentData (c : Cfg) (d : LineDir) (u : Byte) : List BusLevel := match d, c.inputDriveEffect with
  | .input, .undriven => List.replicate c.n .notDriven
  | .input, .drives => unitOnBus u c.n
  | .output, _ => unitOnBus u c.n

theorem sentData_output (c : Cfg) : sentData c .output = fun u => unitOnBus u c.n := rfl

theorem sentData_input_drives {c : Cfg} (h : c.inputDriveEffect = .drives) :
    sentData c .input = fun u => unitOnBus u c.n := by
  funext u; simp only [sentData, h]

theorem sentData_input_undriven {c : Cfg} (h : c.inputDriveEffect = .undriven) :
    sentData c .input = fun _ => List.replicate c.n .notDriven := by
  funext u; simp only [sentData, h]

/-- A line set of `n` data lines, all of direction `d`. -/
structure Lines.AllDir (n : Nat) (d : LineDir) (ls : Lines) : Prop where
  length : n = ls.data.length
  dir : ∀ l ∈ ls.data, l.dir = d

theorem Lines.AllDir.get_dir {n : Nat} {d : LineDir} {ls : Lines} (h : ls.AllDir n d) {i : Nat} (hi : i < n) :
    (ls.get (.d i)).dir = d :=
  forall_get_of_forall_data ls (fun l => l.dir = d) h.dir i (h.length ▸ hi)

/-- Lines with the same directions index by index. -/
theorem Lines.AllDir.of_get_dir {n : Nat} {d : LineDir} {a b : Lines} (h : a.AllDir n d)
    (hlen : b.data.length = a.data.length) (hdir : ∀ i, (b.get (.d i)).dir = (a.get (.d i)).dir) : b.AllDir n d :=
  ⟨h.length.trans hlen.symm, forall_dir_of_get_dir hlen hdir h.dir⟩

theorem Lines.AllDir.after_units {n : Nat} {d : LineDir} {ls : Lines} (h : ls.AllDir n d) (m : Nat) (us : List Byte) :
    (unitsLines m ls us).AllDir n d :=
  h.of_get_dir (unitsLines_length m ls us) fun i => unitsLines_dir m ls us (.d i)

theorem Lines.AllDir.after_wrnibStart {c : Cfg} {n : Nat} {d : LineDir} {ls : Lines} (h : ls.AllDir n d) :
    (wrnibStart c ls).AllDir n d :=
  h.of_get_dir (by rw [wrnibStart_data]) fun i => wrnibStart_dir c ls (.d i)

section
variable {c : Cfg} {d : LineDir} {ls : Lines} (h : ls.AllDir c.n d)
include h

theorem busData_putLines (u : Byte) : busData c (putLines ls u c.n) = sentData c d u := by
  cases d with
  | output => exact busData_put_out c ls u h.length fun i hi => h.get_dir hi
  | input =>
    rw [busData_put_in c ls u h.length fun i hi => h.get_dir hi]
    unfold sentData
    cases c.inputDriveEffect <;> rfl

/-- After units the bus shows the last of them. -/
theorem busData_unitsLines (us : List Byte) : busData c (unitsLines c.n ls us) = match us.getLast? with
    | some u => sentData c d u
    | none => busData c ls := by
  rcases List.eq_nil_or_concat us with rfl | ⟨vs, u, rfl⟩
  · rfl
  · rw [List.concat_eq_append, unitsLines_append, List.getLast?_append, unitsLines_cons, unitsLines_nil, unitLines,
      busData_setLat_e, busData_putLines (h.after_units c.n vs)]
    rfl

end

/-- Under `Undriven` input data lines show nothing driven (R42). -/
theorem busData_undriven {c : Cfg} {ls : Lines} (h : ls.AllDir c.n .input) (hx : c.inputDriveEffect = .undriven) :
    busData c ls = List.replicate c.n .notDriven := by
  rw [busData, List.eq_replicate_iff]
  refine ⟨by simp, List.forall_mem_map.mpr fun i hi => ?_⟩
  simp only [bus, h.get_dir (List.mem_range.mp hi), hx]

/-! ### The units latched -/

/-- The content that an enable fall latches when the data lines show `data` (R43). -/
def unitWith (c : Cfg) (ls : Lines) (data : List BusLevel) : List (Bool × BusLevel × List BusLevel) :=
  match cycleKind c ls with
  | .write => [(true, bus c ls .rs, data)]
  | .either => [(false, bus c ls .rs, data)]
  | .read => []

theorem unitNow_eq_unitWith (c : Cfg) (ls : Lines) : unitNow c ls = unitWith c ls (busData c ls) := rfl

theorem unitWith_write {c : Cfg} {ls : Lines} (h : cycleKind c ls = .write) :
    unitWith c ls = fun data => [(true, bus c ls .rs, data)] := by
  funext data; simp only [unitWith, h]

/-- Beside the data a unit depends on `RS` and `RW` alone. -/
theorem unitWith_congr (c : Cfg) {a b : Lines} (hrs : a.rs = b.rs) (hrw : a.rw = b.rw) :
    unitWith c a = unitWith c b := by
  funext data
  rw [unitWith, cycleKind_of_rw c a b hrw, bus_rs_of_rs c a b hrs]
  rfl

theorem data_of_mem_unitWith {c : Cfg} {ls : Lines} {data : List BusLevel} {x : Bool × BusLevel × List BusLevel}
    (h : x ∈ unitWith c ls data) : x.2.2 = data := by
  rw [unitWith] at h
  cases hk : cycleKind c ls <;> simp_all

/-- The data that WRNIB's pulses find on the bus: that of each low nibble, and at the trailing pulse what the bus still
shows (40_bus_transport R74). -/
def wrnibData (c : Cfg) (d : LineDir) (ls : Lines) (p : List Byte) : List (List BusLevel) :=
  (p.map fun v => sentData c d (loNibble v)) ++ [match p.getLast? with
    | some v => sentData c d (loNibble v)
    | none => busData c ls]

section
variable {c : Cfg} {d : LineDir} {ls : Lines} (h : ls.AllDir c.n d)
include h

/-- Units sent in order are latched in order, each with the data the bus shows of it. -/
theorem unitsContents_eq (us : List Byte) :
    unitsContents c c.n ls us = (us.map (sentData c d)).flatMap (unitWith c ls) := by
  induction us generalizing ls with
  | nil => rfl
  | cons u us ih =>
    have hnext : (unitLines c.n ls u).AllDir c.n d := h.after_units c.n [u]
    have hcongr : unitWith c (unitLines c.n ls u) = unitWith c ls :=
      unitWith_congr c (unitLines_rs c.n ls u) (unitLines_rw c.n ls u)
    rw [unitsContents, ih hnext, hcongr, unitNow_eq_unitWith, busData_putLines h, List.map_cons, List.flatMap_cons,
      unitWith_congr c (putLines_rs ls u c.n) (putLines_rw ls u c.n)]

/-- WRITE's latched units (40_bus_transport R73). -/
theorem contents_write_eq (hn : c.n = c.width.lines) (he : ls.e.lat = some .low) (s : State) (p : List Byte) :
    contents c ls (eventsOf s (writeStmts c p)) =
      (p.flatMap (units c.width)).map fun u => (true, bus c ls .rs, sentData c d u) := by
  have hdir : (ls.setLat .rw c.rwWriteLevel).AllDir c.n d := ⟨h.length, h.dir⟩
  have hkind : cycleKind c (ls.setLat .rw c.rwWriteLevel) = .write := cycleKind_write c _ rfl
  have hrs : bus c (ls.setLat .rw c.rwWriteLevel) .rs = bus c ls .rs := bus_rs_of_rs c _ _ rfl
  rw [contents_write c ls s p (by simp [he]), ← hn, unitsContents_eq hdir, unitWith_write hkind, hrs,
    List.flatMap_map]
  exact List.flatMap_pure_eq_map _ _

theorem contents_wrnib_eq (hn : c.n = 4) (he : ls.e.lat = some .low) (s : State) (p : List Byte) :
    contents c ls (eventsOf s (wrnibStmts c p)) =
      (wrnibData c d ls p).flatMap (unitWith c (wrnibStart c ls)) := by
  have hlast := busData_unitsLines (ls := wrnibStart c ls) h.after_wrnibStart (p.map loNibble)
  have hstart : busData c (wrnibStart c ls) = busData c ls :=
    List.map_congr_left fun i _ => by simp only [bus, wrnibStart_get_data]
  rw [List.getLast?_map, hstart] at hlast
  rw [contents_wrnib c ls s p (by simp [he]), ← hn, unitsContents_eq h.after_wrnibStart, unitNow_eq_unitWith, hlast,
    unitWith_congr c (unitsLines_rs ..) (unitsLines_rw ..), wrnibData, List.flatMap_append, List.map_map]
  cases p.getLast? <;> simp [Function.comp_def]

end

/-- The low nibble is the unit of a WRNIB element on four lines (30_encoding R66). -/
theorem unitOnBus_loNibble (v : Byte) : unitOnBus (loNibble v) 4 = unitOnBus v 4 := by
  rw [unitOnBus, unitOnBus, bitLevels, bitLevels]
  congr 1
  exact List.map_congr_left fun i hi => by rw [loNibble_bit v (List.mem_range.mp hi)]

theorem wrnibData_driven {c : Cfg} {d : LineDir} (hn : c.n = 4) (hd : sentData c d = fun u => unitOnBus u c.n)
    (ls : Lines) (p : List Byte) : wrnibData c d ls p = (p.map fun v => unitOnBus v 4) ++
      [match p.getLast? with
        | some v => unitOnBus v 4
        | none => busData c ls] := by
  simp only [wrnibData, hd, hn, unitOnBus_loNibble]

theorem wrnibData_undriven {c : Cfg} {ls : Lines} (h : ls.AllDir c.n .input) (hx : c.inputDriveEffect = .undriven)
    (p : List Byte) : wrnibData c .input ls p = List.replicate (p.length + 1) (List.replicate c.n .notDriven) := by
  rw [wrnibData, sentData_input_undriven hx, busData_undriven h hx, List.map_const', List.replicate_succ']
  cases p.getLast? <;> rfl

/-! ### A request's events -/

/-- The events of a request of an idle transport: `Begin`, its statements' events, and `End`. -/
theorem perform_events {i : Instr} {s : State} (hidle : s.seq = .idle) :
    ∃ t n status, (perform i s).trace = s.trace ++ (⟨s.now, .beginReq (encodeDesc s.cfg i)⟩ ::
      eventsOf (s.accept i) (stmtsOf s.cfg i) ++ [⟨t, .endReq n status⟩]) := by
  obtain ⟨-, -, -, -, -, -, -, htrace⟩ := perform_effect i s hidle
  exact ⟨_, _, _, htrace⟩

theorem State.Ready.allDir {s : State} (hs : s.Ready) {d : LineDir} (h : ∀ l ∈ s.lines.data, l.dir = d) :
    s.lines.AllDir s.cfg.n d := ⟨hs.n_eq, h⟩

/-- Settles O22: on output lines the bus shows each unit as it was sent. -/
theorem writeLatchesEveryUnit : Obligations.WriteLatchesEveryUnit := by
  intro s p hs hout he
  obtain ⟨t, n, status, htrace⟩ := perform_events (i := .write p) hs.idle
  refine ⟨_, _, rfl, htrace, ?_⟩
  rw [latchedFrom_request]
  exact contents_write_eq (hs.allDir hout) (Cfg.wf_n hs.cfgWf) he _ p

/-! ### On input lines -/

theorem perform_lines_dir {i : Instr} {s : State} (hidle : s.seq = .idle) (hi : ∀ n, i ≠ .read n) (l : Line) :
    ((perform i s).lines.get l).dir = (s.lines.get l).dir := by
  obtain ⟨-, -, -, hlines, -⟩ := perform_effect i s hidle
  rw [hlines]
  cases i with
  | setmode b => exact Lines.get_setLat_dir s.lines .rs l _
  | write p => rw [stmtsOf, linesAfterAll_write, unitsLines_dir, Lines.get_setLat_dir]
  | wrnib p => rw [stmtsOf, linesAfterAll_wrnib, Lines.get_setLat_dir, unitsLines_dir, wrnibStart_dir]
  | read n => exact absurd rfl (hi n)

/-- No request but READ makes an input of a data line or an output (20_memory R38). -/
theorem perform_keeps_dataIn {i : Instr} {s : State} (hidle : s.seq = .idle) (hi : ∀ n, i ≠ .read n) (h : s.DataIn) :
    (perform i s).DataIn :=
  forall_dir_of_get_dir (extends_perform i s).length (fun k => perform_lines_dir hidle hi (.d k)) h

theorem cycleKind_wrnibStart {c : Cfg} {ls : Lines} (h : c.wnDrivesRw = true ∨ ls.rw.lat = some c.rwWriteLevel) :
    cycleKind c (wrnibStart c ls) = .write := by
  refine cycleKind_write c _ ?_
  rw [wrnibStart_rw]
  split
  · rfl
  · exact h.resolve_left ‹_›

theorem wrnibStart_of_not_drives {c : Cfg} (h : c.wnDrivesRw = false) (ls : Lines) : wrnibStart c ls = ls := by
  rw [wrnibStart, if_neg (by simp [h])]

/-- Settles O23: on input lines the bus shows of each unit `sentData`, which under `Undriven` is nothing driven. -/
theorem writeAfterReadLatchesUndrivenData : Obligations.WriteAfterReadLatchesUndrivenData := by
  intro s p hs hin he
  have hdir := hs.allDir hin
  refine ⟨?_, fun hfour => ?_⟩
  · obtain ⟨t, n, status, htrace⟩ := perform_events (i := .write p) hs.idle
    obtain ⟨a, -, hresult⟩ := perform_result (.write p) s hs.idle
    refine ⟨_, _, rfl, htrace, hresult, perform_keeps_dataIn hs.idle (by simp) hin, ?_⟩
    rw [latchedFrom_request]
    refine (contents_write_eq hdir (Cfg.wf_n hs.cfgWf) he _ p).trans ?_
    cases hx : s.cfg.inputDriveEffect with
    | undriven => rw [sentData_input_undriven hx]
    | drives => rw [sentData_input_drives hx]
  · have hn := Cfg.wf_four hs.cfgWf hfour
    obtain ⟨t, n, status, htrace⟩ := perform_events (i := .wrnib p) hs.idle
    obtain ⟨a, -, hresult⟩ := perform_result (.wrnib p) s hs.idle
    have hcontents := contents_wrnib_eq hdir hn he (s.accept (.wrnib p)) p
    refine ⟨_, _, exec_of_runs (beq_iff_eq.mpr hfour), htrace, hresult,
      perform_keeps_dataIn hs.idle (by simp) hin, fun hx u hu => ?_, fun hrw => ?_⟩
    · rw [latchedFrom_request] at hu
      have hmem : u.content ∈ contents s.cfg s.lines (eventsOf (s.accept (.wrnib p)) (wrnibStmts s.cfg p)) :=
        List.mem_map_of_mem hu
      rw [hcontents, wrnibData_undriven hdir hx, List.mem_flatMap] at hmem
      obtain ⟨data, hdata, hunit⟩ := hmem
      exact (data_of_mem_unitWith hunit).trans (List.eq_of_mem_replicate hdata)
    · rw [latchedFrom_request]
      refine hcontents.trans ?_
      rw [unitWith_write (cycleKind_wrnibStart hrw), bus_rs_of_rs s.cfg _ _ (wrnibStart_rs s.cfg s.lines)]
      cases hx : s.cfg.inputDriveEffect with
      | undriven => rw [wrnibData_undriven hdir hx]; exact List.flatMap_pure_eq_map _ _
      | drives => rw [wrnibData_driven hn (sentData_input_drives hx)]; exact List.flatMap_pure_eq_map _ _

end Sys2Proof.Machine
end

section
/-! PROOFS. The memory family (20_memory R43, R44, 70_reset_and_hazards R123): WRNIB with `RW` at the read level or never
driven, and the read cycles that it starts. -/

namespace Sys2Proof.Machine

/-! ### Whether the units are certain -/

/-- How many units an enable fall latches and whether they are certain depends on `RW` alone (20_memory R43). -/
theorem unitNow_certain_congr (c : Cfg) {a b : Lines} (h : a.rw = b.rw) :
    (unitNow c a).map Prod.fst = (unitNow c b).map Prod.fst := by
  rw [unitNow, unitNow, cycleKind_of_rw c a b h]
  cases cycleKind c b <;> rfl

theorem unitsContents_certain (c : Cfg) (n : Nat) (ls : Lines) (us : List Byte) :
    (unitsContents c n ls us).map Prod.fst =
      (List.replicate us.length ((unitNow c ls).map Prod.fst)).flatten := by
  induction us generalizing ls with
  | nil => rfl
  | cons u us ih =>
    rw [unitsContents, List.map_append, ih, List.length_cons, List.replicate_succ, List.flatten_cons,
      unitNow_certain_congr c (putLines_rw ls u n), unitNow_certain_congr c (unitLines_rw n ls u)]

/-- Of each of WRNIB's pulses, the trailing one included, whether it certainly latches. -/
theorem latched_wrnib_certain {c : Cfg} {ls : Lines} (he : ls.e.lat = some .low) (s : State) (p : List Byte) :
    (latchedFrom c ls (eventsOf s (wrnibStmts c p))).map (fun u => u.certain) =
      (List.replicate (p.length + 1) ((unitNow c (wrnibStart c ls)).map Prod.fst)).flatten := by
  have hcontents := congrArg (List.map Prod.fst) (contents_wrnib c ls s p (by simp [he]))
  rw [contents, List.map_map, List.map_append, unitsContents_certain,
    unitNow_certain_congr c (unitsLines_rw ..), List.length_map] at hcontents
  rw [List.replicate_succ', List.flatten_append, List.flatten_singleton]
  exact hcontents

/-! ### The start of a read cycle -/

/-- How many read cycles start over a list of events that begins with lines `ls` (20_memory R44). -/
def readStarts (c : Cfg) (ls : Lines) (evs : List Event) : Nat :=
  (seenFrom ls none evs).countP (Seen.startsReadCycle c)

/-- Whether an event starts a read cycle does not depend on the request it belongs to. -/
theorem readStarts_req (c : Cfg) (ls : Lines) (r : Option Desc) (evs : List Event) :
    (seenFrom ls r evs).countP (Seen.startsReadCycle c) = readStarts c ls evs := by
  unfold readStarts
  generalize (none : Option Desc) = r'
  induction evs generalizing ls r r' with
  | nil => rfl
  | cons ev evs ih =>
    have hev : Seen.startsReadCycle c ⟨ls, r, ev⟩ = Seen.startsReadCycle c ⟨ls, r', ev⟩ := rfl
    rw [seenFrom, seenFrom, List.countP_cons, List.countP_cons, hev, ih _ _ (requestAfter r' ev.kind)]

theorem readStarts_append (c : Cfg) (ls : Lines) (a b : List Event) :
    readStarts c ls (a ++ b) = readStarts c ls a + readStarts c (replayLines ls a) b := by
  rw [← readStarts_req c (replayLines ls a) (requestAfterAll none a), readStarts, seenFrom_append,
    List.countP_append]
  rfl

theorem readStarts_cons (c : Cfg) (ls : Lines) (ev : Event) (evs : List Event) :
    readStarts c ls (ev :: evs) =
      (if Seen.startsReadCycle c ⟨ls, none, ev⟩ then 1 else 0) + readStarts c (ls.after ev.kind) evs := by
  rw [readStarts, seenFrom, List.countP_cons, readStarts_req, Nat.add_comm]

@[simp] theorem readStarts_nil (c : Cfg) (ls : Lines) : readStarts c ls [] = 0 := rfl

/-- Only a drive of `E` to high starts a read cycle (R44). -/
theorem startsReadCycle_of_not_enableHigh (c : Cfg) (x : Seen) (h : x.ev.kind ≠ .drive .e .high) :
    x.startsReadCycle c = false := by
  simp [Seen.startsReadCycle, Seen.isRise, h]

/-- Statements that do not drive `E` high start no read cycle. -/
theorem readStarts_quiet (c : Cfg) (ls : Lines) (s : State) (l : List Stmt)
    (h : ∀ st ∈ l, st ≠ .drive .e .high) : readStarts c ls (eventsOf s l) = 0 := by
  induction l generalizing s ls with
  | nil => rfl
  | cons st l ih =>
    rw [eventsOf_cons, readStarts_append, ih _ _ fun st' hst' => h st' (List.mem_cons_of_mem _ hst'), Nat.add_zero]
    have hst := h st List.mem_cons_self
    cases st <;>
      simp_all [stmtEvents, readStarts_cons, startsReadCycle_of_not_enableHigh]

/-- PULSE with `RW` at the read level starts one read cycle (70_reset_and_hazards R123). -/
theorem readStarts_pulse {c : Cfg} {ls : Lines} (h : cycleKind c ls = .read) (s : State) :
    readStarts c ls (eventsOf s (pulse c)) = 1 := by
  simp [pulse, stmtEvents, readStarts_cons, Lines.after, Seen.startsReadCycle, Seen.isRise, h]

/-- A WRNIB element with `RW` at the read level. -/
theorem readStarts_wrnibElem {c : Cfg} {ls : Lines} (h : cycleKind c ls = .read) (s : State) (v : Byte) :
    readStarts c ls (eventsOf s (wrnibElemStmts c v)) = 1 := by
  have hquiet : ∀ st ∈ tapIfAll c (loNibble v) 4 ++ put (loNibble v) 4, st ≠ .drive .e .high := by
    unfold tapIfAll; split <;> simp [put]
  have hkind : cycleKind c (putLines ls (loNibble v) 4) = .read :=
    (cycleKind_of_rw c _ _ (putLines_rw ls (loNibble v) 4)).trans h
  rw [wrnibElemStmts, eventsOf_append, readStarts_append, readStarts_quiet c ls s _ hquiet, replayLines_eventsOf,
    linesAfterAll_append, linesAfterAll_tapIfAll, linesAfterAll_put, readStarts_pulse hkind]

theorem linesAfterAll_wrnibElem (ls : Lines) (c : Cfg) (v : Byte) :
    linesAfterAll ls (wrnibElemStmts c v) = unitLines 4 ls (loNibble v) := by
  simp [wrnibElemStmts, linesAfterAll_append, unitLines]

theorem linesAfterAll_wrnibElems_rw (ls : Lines) (c : Cfg) (p : List Byte) :
    (linesAfterAll ls (p.flatMap (wrnibElemStmts c))).rw = ls.rw := by
  induction p generalizing ls with
  | nil => rfl
  | cons v p ih =>
    rw [List.flatMap_cons, linesAfterAll_append, ih, linesAfterAll_wrnibElem, unitLines_rw]

theorem readStarts_wrnibElems {c : Cfg} {ls : Lines} (h : cycleKind c ls = .read) (s : State) (p : List Byte) :
    readStarts c ls (eventsOf s (p.flatMap (wrnibElemStmts c))) = p.length := by
  induction p generalizing ls s with
  | nil => rfl
  | cons v p ih =>
    have hkind : cycleKind c (unitLines 4 ls (loNibble v)) = .read :=
      (cycleKind_of_rw c _ _ (unitLines_rw 4 ls (loNibble v))).trans h
    rw [List.flatMap_cons, eventsOf_append, readStarts_append, readStarts_wrnibElem h, replayLines_eventsOf,
      linesAfterAll_wrnibElem, ih hkind, List.length_cons, Nat.add_comm]

/-- WRNIB after a READ makes one read cycle per pulse, the trailing one included (R123). -/
theorem readStarts_wrnib {c : Cfg} {ls : Lines} (hdrives : c.wnDrivesRw = false) (h : cycleKind c ls = .read)
    (s : State) (p : List Byte) : readStarts c ls (eventsOf s (wrnibStmts c p)) = p.length + 1 := by
  have hstmts : wrnibStmts c p = p.flatMap (wrnibElemStmts c) ++ pulse c := by
    rw [wrnibStmts, hdrives]; rfl
  have hkind : cycleKind c (linesAfterAll ls (p.flatMap (wrnibElemStmts c))) = .read :=
    (cycleKind_of_rw c _ _ (linesAfterAll_wrnibElems_rw ls c p)).trans h
  rw [hstmts, eventsOf_append, readStarts_append, readStarts_wrnibElems h, replayLines_eventsOf,
    readStarts_pulse hkind]

/-- A request's `Begin` and `End` start no read cycle. -/
theorem readStarts_request (c : Cfg) (ls : Lines) (t u n : Nat) (q : Desc) (st : Status) (evs : List Event) :
    readStarts c ls (⟨t, .beginReq q⟩ :: evs ++ [⟨u, .endReq n st⟩]) = readStarts c ls evs := by
  rw [List.cons_append, readStarts_cons, readStarts_append, readStarts_cons,
    startsReadCycle_of_not_enableHigh _ _ (by simp), startsReadCycle_of_not_enableHigh _ _ (by simp)]
  simp [Lines.after]

/-- Settles O27: with `RW` at the read level each pulse starts a read cycle and latches nothing; with `RW` never driven
each latches a unit that is not certain. -/
theorem wrnibWithoutWriteLevel : Obligations.WrnibWithoutWriteLevel := by
  intro s p hs hfour hdrives he
  obtain ⟨-, -, -, hlevels, -⟩ := (Cfg.wf_iff s.cfg).mp hs.cfgWf
  obtain ⟨t, n, status, htrace⟩ := perform_events (i := .wrnib p) hs.idle
  have hcertain := latched_wrnib_certain (c := s.cfg) he (s.accept (.wrnib p)) p
  rw [wrnibStart_of_not_drives hdrives] at hcertain
  refine ⟨_, _, exec_of_runs (beq_iff_eq.mpr hfour), htrace, fun hread => ⟨?_, ?_⟩, fun hunset => ?_⟩
  · have hkind := cycleKind_read s.cfg s.lines hlevels hread
    rw [latchedFrom_request]
    refine List.map_eq_nil_iff.mp (hcertain.trans ?_)
    simp [unitNow, hkind]
  · exact (readStarts_request ..).trans (readStarts_wrnib hdrives (cycleKind_read s.cfg s.lines hlevels hread) _ p)
  · have hkind := cycleKind_either s.cfg s.lines hunset
    rw [latchedFrom_request]
    refine hcertain.trans ?_
    simp [unitNow, hkind]

end Sys2Proof.Machine
end

section
/-! PROOFS. The memory family (20_memory R44, 40_bus_transport R75 to R77): every sample is a read strobe, and only READ
samples. -/

namespace Sys2Proof.Machine

/-! ### Events without samples -/

/-- Whether a statement samples a line (42_transcoding R90). -/
def Stmt.samples : Stmt → Bool
  | .sampleBit _ => true
  | _ => false

/-- Statements that sample no line emit no `Sample`. -/
theorem isSample_eventsOf {s : State} {l : List Stmt} (h : ∀ st ∈ l, st.samples = false) :
    ∀ ev ∈ eventsOf s l, ev.kind.isSample = false := by
  induction l generalizing s with
  | nil => simp
  | cons st l ih =>
    obtain ⟨hst, hl⟩ := List.forall_mem_cons.mp h
    rw [eventsOf_cons]
    refine List.forall_mem_append.mpr ⟨?_, ih hl⟩
    cases st with
    | sampleBit i => cases hst
    | _ => simp [stmtEvents, EventKind.isSample]

theorem samplesOf_eq_nil {evs : List Event} (h : ∀ ev ∈ evs, ev.kind.isSample = false) : samplesOf evs = [] := by
  refine List.filterMap_eq_nil_iff.mpr fun ev hev => ?_
  have hev := h ev hev
  rcases ev with ⟨t, k⟩
  cases k with
  | sample l lvl => cases hev
  | _ => rfl

theorem samples_put (v : Byte) (n : Nat) : ∀ st ∈ put v n, st.samples = false := by
  simp [put, Stmt.samples]

theorem samples_pulse (c : Cfg) : ∀ st ∈ pulse c, st.samples = false := by
  simp [pulse, Stmt.samples]

theorem samples_tapIfAll (c : Cfg) (v : Byte) (w : Nat) : ∀ st ∈ tapIfAll c v w, st.samples = false := by
  unfold tapIfAll; split <;> simp [Stmt.samples]

theorem samples_hold (t : Nat) : ∀ st ∈ hold t, st.samples = false := by
  unfold hold; split <;> simp [Stmt.samples]

theorem samples_dataLinesIn (c : Cfg) : ∀ st ∈ dataLinesIn c, st.samples = false := by
  simp [dataLinesIn, Stmt.samples]

/-- A tap, a PUT and a PULSE sample nothing. -/
theorem samples_unit (c : Cfg) (v : Byte) (n : Nat) : ∀ st ∈ put v n ++ pulse c, st.samples = false :=
  List.forall_mem_append.mpr ⟨samples_put v n, samples_pulse c⟩

theorem samples_writeByte (c : Cfg) (v : Byte) : ∀ st ∈ writeByteStmts c v, st.samples = false := by
  unfold writeByteStmts
  cases c.width with
  | eight =>
    simp only [List.append_assoc]
    exact List.forall_mem_append.mpr ⟨samples_tapIfAll c v 8, samples_unit c v 8⟩
  | four =>
    exact List.forall_mem_append.mpr ⟨List.forall_mem_cons.mpr ⟨rfl, samples_unit c _ 4⟩,
      List.forall_mem_cons.mpr ⟨rfl, samples_unit c _ 4⟩⟩

theorem samples_wrnibElem (c : Cfg) (v : Byte) : ∀ st ∈ wrnibElemStmts c v, st.samples = false := by
  rw [wrnibElemStmts, List.append_assoc]
  exact List.forall_mem_append.mpr ⟨samples_tapIfAll c _ 4, samples_unit c _ 4⟩

/-- No request but READ samples (40_bus_transport R72 to R74). -/
theorem samples_stmtsOf (c : Cfg) {i : Instr} (hi : ∀ n, i ≠ .read n) : ∀ st ∈ stmtsOf c i, st.samples = false := by
  cases i with
  | setmode b => simp [stmtsOf, setmodeStmts, Stmt.samples]
  | write p =>
    refine List.forall_mem_cons.mpr ⟨rfl, fun st hst => ?_⟩
    obtain ⟨v, -, hst⟩ := List.mem_flatMap.mp hst
    exact samples_writeByte c v st hst
  | wrnib p =>
    refine List.forall_mem_append.mpr ⟨List.forall_mem_append.mpr ⟨?_, fun st hst => ?_⟩, samples_pulse c⟩
    · split <;> simp [Stmt.samples]
    · obtain ⟨v, -, hst⟩ := List.mem_flatMap.mp hst
      exact samples_wrnibElem c v st hst
  | read n => exact absurd rfl (hi n)

/-! ### Samples as read strobes -/

/-- Every `Sample` among the events is a read strobe, from lines `ls` on (20_memory R44). -/
def samplesAreStrobes (c : Cfg) (ls : Lines) (evs : List Event) : Prop :=
  ∀ req, ∀ x ∈ seenFrom ls req evs, x.isSample = true → x.isReadStrobe c = true

theorem samplesAreStrobes_append {c : Cfg} {ls : Lines} {a b : List Event} (ha : samplesAreStrobes c ls a)
    (hb : samplesAreStrobes c (replayLines ls a) b) : samplesAreStrobes c ls (a ++ b) := by
  intro req
  rw [seenFrom_append]
  exact List.forall_mem_append.mpr ⟨ha req, hb _⟩

theorem ev_mem_of_mem_seenFrom {ls : Lines} {req : Option Desc} {evs : List Event} {x : Seen}
    (h : x ∈ seenFrom ls req evs) : x.ev ∈ evs := by
  induction evs generalizing ls req with
  | nil => cases h
  | cons ev evs ih =>
    rcases List.mem_cons.mp h with rfl | h
    · exact List.mem_cons_self
    · exact List.mem_cons_of_mem _ (ih h)

theorem samplesAreStrobes_of_none (c : Cfg) (ls : Lines) {evs : List Event}
    (h : ∀ ev ∈ evs, ev.kind.isSample = false) : samplesAreStrobes c ls evs := by
  intro req x hx hsample
  exact absurd hsample (by simp [Seen.isSample, h x.ev (ev_mem_of_mem_seenFrom hx)])

/-- The same over the events of statements, which fix the lines they leave. -/
theorem samplesAreStrobes_stmts_append {c : Cfg} {ls : Lines} {l m : List Stmt}
    (hl : ∀ s, samplesAreStrobes c ls (eventsOf s l))
    (hm : ∀ s, samplesAreStrobes c (linesAfterAll ls l) (eventsOf s m)) (s : State) :
    samplesAreStrobes c ls (eventsOf s (l ++ m)) := by
  rw [eventsOf_append]
  exact samplesAreStrobes_append (hl s) (by rw [replayLines_eventsOf]; exact hm _)

theorem samplesAreStrobes_quiet (c : Cfg) (ls : Lines) {l : List Stmt} (h : ∀ st ∈ l, st.samples = false)
    (s : State) : samplesAreStrobes c ls (eventsOf s l) :=
  samplesAreStrobes_of_none c ls (isSample_eventsOf h)

section
variable {c : Cfg} {ls : Lines} (hread : cycleKind c ls = .read)
include hread

/-- GET with `E` high and `RW` at the read level: it changes no line between its samples (R44, R90). -/
theorem samplesAreStrobes_get (he : ls.e.lat = some .high) (n : Nat) (s : State) :
    samplesAreStrobes c ls (eventsOf s (get n)) := by
  have hsample : ∀ i s, samplesAreStrobes c ls (eventsOf s [.sampleBit i]) := by
    intro i s req x hx _
    obtain rfl := List.mem_singleton.mp hx
    simp [Seen.isReadStrobe, he, hread]
  have hsamples : ∀ l : List Nat, ∀ s, samplesAreStrobes c ls (eventsOf s (l.map .sampleBit)) := by
    intro l
    induction l with
    | nil => exact samplesAreStrobes_quiet c ls (by simp)
    | cons i l ih => exact samplesAreStrobes_stmts_append (l := [.sampleBit i]) (hsample i) ih
  exact samplesAreStrobes_stmts_append (l := [.clearAcc]) (samplesAreStrobes_quiet c ls (by simp [Stmt.samples]))
    (hsamples (List.range n)) s

/-- A read cycle samples between its rise and its fall (R76, R77). -/
theorem samplesAreStrobes_readCycle (n : Nat) (s : State) :
    samplesAreStrobes c ls (eventsOf s (readCycle c n)) := by
  have hrise : ∀ st ∈ Stmt.drive .e .high :: hold c.tRdEh, st.samples = false :=
    List.forall_mem_cons.mpr ⟨rfl, samples_hold _⟩
  have hfall : ∀ st ∈ Stmt.drive .e .low :: hold c.tRdEl, st.samples = false :=
    List.forall_mem_cons.mpr ⟨rfl, samples_hold _⟩
  have hhigh : linesAfterAll ls (.drive .e .high :: hold c.tRdEh) = ls.setLat .e .high := by
    rw [linesAfterAll_cons, linesAfterAll_hold]; rfl
  refine samplesAreStrobes_stmts_append (samplesAreStrobes_stmts_append ?_ ?_)
    (samplesAreStrobes_quiet c _ hfall) s
  · exact samplesAreStrobes_quiet c ls hrise
  · rw [hhigh]
    exact samplesAreStrobes_get (by rwa [cycleKind_setLat_e]) rfl n

theorem samplesAreStrobes_readUnit (s : State) : samplesAreStrobes c ls (eventsOf s (readUnitStmts c)) := by
  unfold readUnitStmts
  cases c.width with
  | eight =>
    exact samplesAreStrobes_stmts_append (samplesAreStrobes_readCycle hread 8)
      (samplesAreStrobes_quiet c _ (by simp [Stmt.samples])) s
  | four =>
    have hkind : cycleKind c (linesAfterAll ls (readCycle c 4)) = .read := by
      rwa [linesAfterAll_readCycle, cycleKind_setLat_e]
    have hsecond := samplesAreStrobes_stmts_append (l := [.saveHi])
      (samplesAreStrobes_quiet c _ (by simp [Stmt.samples])) (samplesAreStrobes_readCycle hkind 4)
    exact samplesAreStrobes_stmts_append
      (samplesAreStrobes_stmts_append (l := readCycle c 4) (samplesAreStrobes_readCycle hread 4) hsecond)
      (samplesAreStrobes_quiet c _ (by simp [Stmt.samples])) s

theorem samplesAreStrobes_readUnits (k : Nat) (s : State) :
    samplesAreStrobes c ls (eventsOf s (List.replicate k (readUnitStmts c)).flatten) := by
  induction k generalizing ls s with
  | zero => exact samplesAreStrobes_quiet c ls (by simp) s
  | succ k ih =>
    have hkind : cycleKind c (linesAfterAll ls (readUnitStmts c)) = .read := by
      rwa [linesAfterAll_readUnit, cycleKind_setLat_e]
    rw [List.replicate_succ, List.flatten_cons]
    exact samplesAreStrobes_stmts_append (samplesAreStrobes_readUnit hread) (fun s => ih hkind s) s

end

/-- READ up to its first read cycle: the `RW` drive, the data lines to inputs, and `DIR` (40_bus_transport R75). -/
def readEntry (c : Cfg) : List Stmt := .drive .rw c.rwReadLevel :: (dataLinesIn c ++ [.setDir .input])

theorem readStmts_succ (c : Cfg) (n : Nat) : readStmts c (n + 1) =
    readEntry c ++ ((List.replicate (n + 1) (readUnitStmts c)).flatten ++ dataLinesIn c) := by
  simp [readStmts, readEntry]

theorem linesAfterAll_readEntry (ls : Lines) (c : Cfg) (h : c.n = ls.data.length) :
    linesAfterAll ls (readEntry c) = { ls.setLat .rw c.rwReadLevel with
      data := ls.data.map fun l => ⟨.input, l.lat⟩ } := by
  rw [readEntry, linesAfterAll_cons, linesAfterAll_append]
  exact linesAfterAll_dataLinesIn (ls.setLat .rw c.rwReadLevel) c h

/-- READ enters its read cycles with `RW` at the read level. -/
theorem cycleKind_readEntry {c : Cfg} (hlevels : c.rwReadLevel ≠ c.rwWriteLevel) {ls : Lines}
    (h : c.n = ls.data.length) : cycleKind c (linesAfterAll ls (readEntry c)) = .read :=
  cycleKind_read c _ hlevels (by rw [linesAfterAll_readEntry ls c h]; rfl)

theorem samples_readEntry (c : Cfg) : ∀ st ∈ readEntry c, st.samples = false :=
  List.forall_mem_cons.mpr ⟨rfl, List.forall_mem_append.mpr ⟨samples_dataLinesIn c, by simp [Stmt.samples]⟩⟩

theorem samplesAreStrobes_read {c : Cfg} {ls : Lines} (hlevels : c.rwReadLevel ≠ c.rwWriteLevel)
    (hn : c.n = ls.data.length) (n : Nat) (s : State) : samplesAreStrobes c ls (eventsOf s (readStmts c n)) := by
  cases n with
  | zero => exact samplesAreStrobes_quiet c ls (by simp [readStmts]) s
  | succ n =>
    rw [readStmts_succ]
    refine samplesAreStrobes_stmts_append (samplesAreStrobes_quiet c ls (samples_readEntry c))
      (samplesAreStrobes_stmts_append ?_ ?_) s
    · exact samplesAreStrobes_readUnits (cycleKind_readEntry hlevels hn) (n + 1)
    · exact samplesAreStrobes_quiet c _ (samples_dataLinesIn c)

theorem samplesAreStrobes_stmtsOf {c : Cfg} {ls : Lines} (hlevels : c.rwReadLevel ≠ c.rwWriteLevel)
    (hn : c.n = ls.data.length) (i : Instr) (s : State) : samplesAreStrobes c ls (eventsOf s (stmtsOf c i)) := by
  cases i with
  | read n => exact samplesAreStrobes_read hlevels hn n s
  | _ => exact samplesAreStrobes_quiet c ls (samples_stmtsOf c (by simp)) s

/-- Settles O56: a request's `Begin` and `End` are no samples, its statements' samples are read strobes, and a refusal
has `Begin` and `End` alone. -/
theorem everySampleIsAReadStrobe : Obligations.EverySampleIsAReadStrobe := by
  intro s i hs
  obtain ⟨-, -, -, hlevels, -⟩ := (Cfg.wf_iff s.cfg).mp hs.cfgWf
  cases hruns : requestRuns s.cfg i with
  | true =>
    obtain ⟨t, n, status, htrace⟩ := perform_events (i := i) hs.idle
    have hbegin : ∀ ev ∈ [(⟨s.now, .beginReq (encodeDesc s.cfg i)⟩ : Event)], ev.kind.isSample = false := by
      simp [EventKind.isSample]
    have hend : ∀ ev ∈ [(⟨t, .endReq n status⟩ : Event)], ev.kind.isSample = false := by
      simp [EventKind.isSample]
    refine ⟨_, _, exec_of_runs hruns, htrace, ?_, fun hi => samplesOf_eq_nil ?_⟩
    · exact samplesAreStrobes_append
        (samplesAreStrobes_append (a := [_]) (samplesAreStrobes_of_none _ _ hbegin)
          (samplesAreStrobes_stmtsOf hlevels hs.n_eq i _))
        (samplesAreStrobes_of_none _ _ hend) none
    · exact List.forall_mem_append.mpr ⟨List.forall_mem_append.mpr ⟨hbegin,
        isSample_eventsOf (samples_stmtsOf s.cfg hi)⟩, hend⟩
  | false =>
    have hnone : ∀ ev ∈ [(⟨s.now, .beginReq (encodeDesc s.cfg i)⟩ : Event),
        ⟨s.now, .endReq 0 (.refused .wrnibEightMode)⟩], ev.kind.isSample = false := by simp [EventKind.isSample]
    exact ⟨_, _, exec_of_not_runs hs.idle hruns, List.append_assoc .., samplesAreStrobes_of_none _ _ hnone none,
      fun _ => samplesOf_eq_nil hnone⟩

end Sys2Proof.Machine
end

section
/-! PROOFS. The memory family (20_memory R45, 42_transcoding R94, 95_test_vectors RT4): a written sequence reads back
whole against `LatchReplay`. -/

namespace Sys2Proof.Machine

/-! ### `LatchReplay`'s view over the events of a request -/

/-- `LatchReplay`'s view in a state (R45). -/
def State.replay (s : State) : ReplayView := replayView s.cfg s.trace

/-- The data of the units that are certainly latched over events, as `LatchReplay` keeps them (log 7). -/
def certainData (c : Cfg) (ls : Lines) (evs : List Event) : List (List BusLevel) :=
  ((contents c ls evs).filter fun x => x.1).map fun x => x.2.2

@[simp] theorem certainData_nil (c : Cfg) (ls : Lines) : certainData c ls [] = [] := rfl

theorem certainData_append (c : Cfg) (ls : Lines) (a b : List Event) :
    certainData c ls (a ++ b) = certainData c ls a ++ certainData c (replayLines ls a) b := by
  simp [certainData, contents_append]

/-- The data that an enable fall certainly latches. -/
theorem certainData_unitNow (c : Cfg) (ls : Lines) : ((unitNow c ls).filter fun x => x.1).map (fun x => x.2.2) =
    if cycleKind c ls = .write then [busData c ls] else [] := by
  unfold unitNow
  cases cycleKind c ls <;> rfl

theorem certainData_singleton (c : Cfg) (ls : Lines) (ev : Event) : certainData c ls [ev] =
    if ev.kind = .drive .e .low ∧ ls.e.lat = some .high ∧ cycleKind c ls = .write then [busData c ls] else [] := by
  rw [certainData, contents_cons, contents_nil, List.append_nil]
  by_cases hfall : ev.kind = .drive .e .low ∧ ls.e.lat = some .high
  · rw [if_pos hfall, certainData_unitNow]
    simp [hfall]
  · rw [if_neg hfall, if_neg fun h => hfall ⟨h.1, h.2.1⟩]
    rfl

/-- Whether an event neither begins nor ends a request (40_bus_transport R71). -/
def EventKind.inside : EventKind → Bool
  | .beginReq _ => false
  | .endReq _ _ => false
  | _ => true

theorem inside_stmtEvents (s : State) (st : Stmt) : ∀ ev ∈ stmtEvents s st, ev.kind.inside = true := by
  cases st <;> simp [stmtEvents, EventKind.inside]

/-- Inside a request the view gains the units certainly latched and the read cycles started. -/
def ReplayView.gains (c : Cfg) (v : ReplayView) (evs : List Event) : ReplayView where
  lines := replayLines v.lines evs
  current := v.current.map (· ++ certainData c v.lines evs)
  replayed := v.replayed
  cycles := v.cycles + readStarts c v.lines evs

@[simp] theorem gains_nil (c : Cfg) (v : ReplayView) : v.gains c [] = v := by
  simp [ReplayView.gains]

theorem gains_append (c : Cfg) (v : ReplayView) (a b : List Event) :
    v.gains c (a ++ b) = (v.gains c a).gains c b := by
  simp [ReplayView.gains, certainData_append, readStarts_append, Function.comp_def, Nat.add_assoc]

theorem replayAfter_enableLow (c : Cfg) (v : ReplayView) (t : Nat) :
    v.after c ⟨t, .drive .e .low⟩ = v.gains c [⟨t, .drive .e .low⟩] := by
  have hstart : readStarts c v.lines [⟨t, .drive .e .low⟩] = 0 := rfl
  simp only [ReplayView.after, ReplayView.gains, hstart, certainData_singleton]
  by_cases hhigh : v.lines.e.lat = some .high <;> by_cases hkind : cycleKind c v.lines = .write <;>
    simp [Seen.isFall, hhigh, hkind]

theorem replayAfter_enableHigh (c : Cfg) (v : ReplayView) (t : Nat) :
    v.after c ⟨t, .drive .e .high⟩ = v.gains c [⟨t, .drive .e .high⟩] := by
  have hdata : certainData c v.lines [⟨t, .drive .e .high⟩] = [] := by simp [certainData_singleton]
  simp only [ReplayView.after, ReplayView.gains, hdata, readStarts_cons, Seen.startsReadCycle, Seen.isRise]
  split <;> simp_all

/-- One event inside a request: only a drive of `E` shows in more than the lines. -/
theorem replayAfter_inside (c : Cfg) (v : ReplayView) (ev : Event) (h : ev.kind.inside = true) :
    v.after c ev = v.gains c [ev] := by
  by_cases he : ev.kind.drivesEnable = true
  · obtain ⟨t, k⟩ := ev
    cases k with
    | drive l lvl =>
      cases l with
      | e => cases lvl with
        | low => exact replayAfter_enableLow c v t
        | high => exact replayAfter_enableHigh c v t
      | _ => cases he
    | _ => cases he
  · have hlow : ev.kind ≠ .drive .e .low := fun h => he (by rw [h]; rfl)
    have hhigh : ev.kind ≠ .drive .e .high := fun h => he (by rw [h]; rfl)
    have hdata : certainData c v.lines [ev] = [] := by simp [certainData_singleton, hlow]
    have hstart : readStarts c v.lines [ev] = 0 := by
      simp [readStarts_cons, startsReadCycle_of_not_enableHigh c ⟨v.lines, none, ev⟩ hhigh]
    rw [ReplayView.gains, hdata, hstart]
    obtain ⟨t, k⟩ := ev
    cases k with
    | beginReq q => cases h
    | endReq n st => cases h
    | drive l lvl =>
      cases l with
      | e => exact absurd rfl he
      | _ => simp [ReplayView.after]
    | _ => simp [ReplayView.after]

theorem foldl_replayAfter_inside (c : Cfg) (v : ReplayView) (evs : List Event)
    (h : ∀ ev ∈ evs, ev.kind.inside = true) : evs.foldl (ReplayView.after c) v = v.gains c evs := by
  induction evs generalizing v with
  | nil => simp
  | cons ev evs ih =>
    obtain ⟨hev, hevs⟩ := List.forall_mem_cons.mp h
    rw [List.foldl_cons, ih _ hevs, replayAfter_inside c v ev hev, ← gains_append]
    rfl

theorem inside_eventsOf (s : State) (l : List Stmt) : ∀ ev ∈ eventsOf s l, ev.kind.inside = true := by
  induction l generalizing s with
  | nil => simp
  | cons st l ih => exact List.forall_mem_append.mpr ⟨inside_stmtEvents s st, ih _⟩

theorem replay_runStmts (s : State) (l : List Stmt) :
    (runStmts s l).replay = s.replay.gains s.cfg (eventsOf s l) := by
  rw [State.replay, runStmts_cfg, runStmts_trace, replayView, List.foldl_append]
  exact foldl_replayAfter_inside s.cfg _ _ (inside_eventsOf s l)

theorem replay_emit (s : State) (k : EventKind) : (s.emit k).replay = s.replay.after s.cfg ⟨s.now, k⟩ := by
  rw [State.replay, emit_cfg, emit_trace, replayView, List.foldl_append]
  rfl

/-- `Begin` of a WRITE opens an empty list of units. -/
theorem replay_accept_write (s : State) (p : List Byte) :
    (s.accept (.write p)).replay = { s.replay with current := some [] } := by
  refine (replay_emit s _).trans ?_
  simp [ReplayView.after, encodeDesc, Lines.after]

theorem replay_accept_read (s : State) (n : Nat) :
    (s.accept (.read n)).replay = { s.replay with current := none } := by
  refine (replay_emit s _).trans ?_
  simp [ReplayView.after, encodeDesc, Lines.after]

/-- `End` with status OK makes the units latched since `Begin` those to be replayed, from the first on. -/
theorem replay_respond_ok {s : State} {us : List (List BusLevel)} (h : s.replay.current = some us) (n : Nat)
    (rbuf : List Byte) : (s.respond ⟨n, .ok, rbuf⟩).replay = ⟨s.replay.lines, none, us, 0⟩ := by
  refine (replay_emit s _).trans ?_
  simp [ReplayView.after, h, Lines.after]

theorem replayAfter_lines (c : Cfg) (v : ReplayView) (ev : Event) : (v.after c ev).lines = v.lines.after ev.kind := by
  by_cases h : ev.kind.inside = true
  · rw [replayAfter_inside c v ev h]; rfl
  · obtain ⟨t, k⟩ := ev
    cases k with
    | beginReq q => rfl
    | endReq n st => simp only [ReplayView.after]; split <;> rfl
    | _ => exact absurd rfl h

/-- `LatchReplay` knows the lines from the trace, which explains them (20_memory R50). -/
theorem State.TraceExplainsLines.replay_lines {s : State} (h : s.TraceExplainsLines) : s.replay.lines = s.lines := by
  have hfold : ∀ (evs : List Event) (v : ReplayView),
      (evs.foldl (ReplayView.after s.cfg) v).lines = replayLines v.lines evs := by
    intro evs
    induction evs with
    | nil => intro v; rfl
    | cons ev evs ih => intro v; rw [List.foldl_cons, ih, replayAfter_lines, replayLines_cons]
  exact (hfold s.trace _).trans h.symm

/-! ### After a WRITE -/

/-- After a WRITE on output lines `LatchReplay` holds its units (R45, 42_transcoding R93). -/
theorem replay_write {s : State} (hs : s.Ready) (hout : s.DataOut) (he : s.lines.e.lat = some .low)
    (htrace : s.TraceExplainsLines) (p : List Byte) :
    (perform (.write p) s).replay.replayed = (p.flatMap (units s.cfg.width)).map (fun u => unitOnBus u s.cfg.n) ∧
      (perform (.write p) s).replay.cycles = 0 := by
  obtain ⟨a, -, -, hp⟩ := perform_spec (.write p) s hs.idle
  have hdata : certainData s.cfg s.lines (eventsOf (s.accept (.write p)) (writeStmts s.cfg p)) =
      (p.flatMap (units s.cfg.width)).map fun u => unitOnBus u s.cfg.n := by
    rw [certainData, contents_write_eq (hs.allDir hout) (Cfg.wf_n hs.cfgWf) he, List.filter_map, List.map_map]
    simp [sentData_output, Function.comp_def]
  have hcurrent : (runStmts (s.accept (.write p)) (writeStmts s.cfg p)).replay.current =
      some ((p.flatMap (units s.cfg.width)).map fun u => unitOnBus u s.cfg.n) := by
    rw [replay_runStmts, replay_accept_write, ← hdata, ← htrace.replay_lines]
    rfl
  rw [hp, stmtsOf, resultOf, replay_respond_ok hcurrent]
  exact ⟨rfl, rfl⟩

end Sys2Proof.Machine
end

section
/-! PROOFS. The memory family (20_memory R45, 42_transcoding R90 to R94, 95_test_vectors RT4): READ against `LatchReplay`
answers the units held, and so a written sequence reads back whole. -/

namespace Sys2Proof.Machine

@[simp] theorem known_ofLevel (l : Level) : (BusLevel.ofLevel l).known = some l := by cases l <;> rfl

/-! ### The lines between and inside read cycles -/

/-- `LatchReplay` is about to answer the units `us`, with `E` at `e` and `RW` at the read level: between two read cycles
the first of `us` is that of the next cycle, and inside one it is that of the cycle (R45). -/
structure State.Replays (s : State) (e : Level) (us : List Byte) : Prop where
  lines : s.replay.lines = s.lines
  oracle : s.env.oracle = .latchReplay
  reading : cycleKind s.cfg s.lines = .read
  enable : s.lines.e.lat = some e
  units : ∃ k, s.replay.cycles = k + e.bit ∧ s.replay.replayed.drop k = us.map fun u => unitOnBus u s.cfg.n

/-- Whether a statement drives or configures a line. -/
def Stmt.touchesLines : Stmt → Bool
  | .cfgIn _ => true
  | .drive _ _ => true
  | _ => false

theorem linesAfterAll_untouched {l : List Stmt} (h : ∀ st ∈ l, st.touchesLines = false) (ls : Lines) :
    linesAfterAll ls l = ls :=
  linesAfterAll_of_none ls l fun st hst ls => by
    have hst := h st hst
    cases st with
    | cfgIn l => cases hst
    | drive l lvl => cases hst
    | _ => rfl

section
variable {s : State} {e : Level} {us : List Byte}

/-- Statements that touch no line leave `LatchReplay` where it is. -/
theorem State.Replays.untouched (h : s.Replays e us) {l : List Stmt} (hl : ∀ st ∈ l, st.touchesLines = false) :
    (runStmts s l).Replays e us := by
  have hlines := linesAfterAll_untouched hl
  have hquiet : readStarts s.cfg s.replay.lines (eventsOf s l) = 0 :=
    readStarts_quiet _ _ _ _ fun st hst he => by
      have hst := hl st hst
      rw [he] at hst
      cases hst
  obtain ⟨k, hcycles, hunits⟩ := h.units
  constructor
  · rw [replay_runStmts, ReplayView.gains, replayLines_eventsOf, hlines, runStmts_lines, hlines]; exact h.lines
  · rw [runStmts_oracle]; exact h.oracle
  · rw [runStmts_cfg, runStmts_lines, hlines]; exact h.reading
  · rw [runStmts_lines, hlines]; exact h.enable
  · refine ⟨k, ?_, ?_⟩
    · rw [replay_runStmts, ReplayView.gains, hquiet]; exact hcycles
    · rw [replay_runStmts, runStmts_cfg]; exact hunits

/-- A rise starts the cycle of the first unit (R44). -/
theorem State.Replays.rise (h : s.Replays .low us) : (runStmt s (.drive .e .high)).Replays .high us := by
  have hreplay : (runStmt s (.drive .e .high)).replay = s.replay.gains s.cfg [⟨s.now, .drive .e .high⟩] :=
    replay_runStmts s [.drive .e .high]
  have hstart : readStarts s.cfg s.replay.lines [⟨s.now, .drive .e .high⟩] = 1 := by
    simp [readStarts_cons, Seen.startsReadCycle, Seen.isRise, h.lines, h.enable, h.reading]
  obtain ⟨k, hcycles, hunits⟩ := h.units
  constructor
  · rw [hreplay, ReplayView.gains, h.lines]; rfl
  · rw [runStmt_oracle]; exact h.oracle
  · exact h.reading
  · rfl
  · refine ⟨k, ?_, ?_⟩
    · rw [hreplay, ReplayView.gains, hstart, hcycles]; rfl
    · rw [hreplay]; exact hunits

/-- A fall ends it, and the next unit is at the head. -/
theorem State.Replays.fall {u : Byte} (h : s.Replays .high (u :: us)) :
    (runStmt s (.drive .e .low)).Replays .low us := by
  have hreplay : (runStmt s (.drive .e .low)).replay = s.replay.gains s.cfg [⟨s.now, .drive .e .low⟩] :=
    replay_runStmts s [.drive .e .low]
  have hstart : readStarts s.cfg s.replay.lines [⟨s.now, .drive .e .low⟩] = 0 := rfl
  obtain ⟨k, hcycles, hunits⟩ := h.units
  constructor
  · rw [hreplay, ReplayView.gains, h.lines]; rfl
  · rw [runStmt_oracle]; exact h.oracle
  · exact h.reading
  · rfl
  · refine ⟨k + 1, ?_, ?_⟩
    · rw [hreplay, ReplayView.gains, hstart, hcycles]; rfl
    · rw [hreplay, ← List.drop_drop]
      exact congrArg (List.drop 1) hunits

/-- Inside a cycle a sampled line answers its bit of the unit (R45). -/
theorem State.Replays.sampleLevel {u : Byte} (h : s.Replays .high (u :: us)) {i : Nat} (hi : i < s.cfg.n) :
    s.sampleLevel (.d i) = Level.ofBit (u.getLsbD i) := by
  obtain ⟨k, hcycles, hunits⟩ := h.units
  have hunit : s.replay.replayed[k]? = some (unitOnBus u s.cfg.n) := by
    simpa using congrArg List.head? hunits
  have hbit : (unitOnBus u s.cfg.n)[i]? = some (.ofLevel (Level.ofBit (u.getLsbD i))) := by
    simp [unitOnBus, bitLevels, hi]
  have hcond : (s.replay.lines.get .e).lat = some .high ∧ cycleKind s.cfg s.replay.lines = .read := by
    rw [h.lines]; exact ⟨h.enable, h.reading⟩
  have hanswer : replayAnswer s.cfg s.trace i = some (Level.ofBit (u.getLsbD i)) := by
    have hview : replayView s.cfg s.trace = s.replay := rfl
    simp only [replayAnswer, hview, if_pos hcond, hcycles, Level.bit, hunit, Option.bind_some, hbit, known_ofLevel]
  rw [State.sampleLevel, oracleAnswer, h.oracle]
  simp [hanswer]

end

/-! ### The local variables of READ -/

/-- The local variables of the request in progress (40_bus_transport R75, 42_transcoding R90). -/
def State.Locals (s : State) (acc hi : Byte) (rbuf : List Byte) : Prop :=
  ∃ req pos, s.seq = .busy ⟨req, pos, acc, hi, rbuf⟩

/-- Whether a statement assigns to a local variable. -/
def Stmt.assigns : Stmt → Bool
  | .clearAcc => true
  | .sampleBit _ => true
  | .saveHi => true
  | .storeByte => true
  | .storeNibbles => true
  | _ => false

section
variable {s : State} {acc hi : Byte} {rbuf : List Byte} (h : s.Locals acc hi rbuf)
include h

theorem State.Locals.unassigned {l : List Stmt} (hl : ∀ st ∈ l, st.assigns = false) :
    (runStmts s l).Locals acc hi rbuf := by
  induction l generalizing s with
  | nil => exact h
  | cons st l ih =>
    obtain ⟨hst, hl⟩ := List.forall_mem_cons.mp hl
    obtain ⟨req, pos, hseq⟩ := h
    refine ih ⟨req, pos + 1, ?_⟩ hl
    cases st with
    | clearAcc => cases hst
    | sampleBit i => cases hst
    | saveHi => cases hst
    | storeByte => cases hst
    | storeNibbles => cases hst
    | _ => simp [runStmt, stmtEffect, hseq, nextPos]

theorem State.Locals.clearAcc : (runStmt s .clearAcc).Locals 0#8 hi rbuf := by
  obtain ⟨req, pos, hseq⟩ := h
  exact ⟨req, pos + 1, by simp [runStmt, stmtEffect, hseq, nextPos]⟩

theorem State.Locals.sampleBit (i : Nat) :
    (runStmt s (.sampleBit i)).Locals (orBit acc i (s.sampleLevel (.d i))) hi rbuf := by
  obtain ⟨req, pos, hseq⟩ := h
  exact ⟨req, pos + 1, by simp [runStmt, stmtEffect, hseq, nextPos]⟩

theorem State.Locals.saveHi : (runStmt s .saveHi).Locals acc acc rbuf := by
  obtain ⟨req, pos, hseq⟩ := h
  exact ⟨req, pos + 1, by simp [runStmt, stmtEffect, hseq, nextPos]⟩

theorem State.Locals.storeByte : (runStmt s .storeByte).Locals acc hi (rbuf ++ [acc]) := by
  obtain ⟨req, pos, hseq⟩ := h
  exact ⟨req, pos + 1, by simp [runStmt, stmtEffect, hseq, nextPos]⟩

theorem State.Locals.storeNibbles : (runStmt s .storeNibbles).Locals acc hi (rbuf ++ [assemble hi acc]) := by
  obtain ⟨req, pos, hseq⟩ := h
  exact ⟨req, pos + 1, by simp [runStmt, stmtEffect, hseq, nextPos]⟩

end

/-! ### The operations of READ -/

/-- A unit has no bit beyond the data lines. -/
def fitsLines (n : Nat) (u : Byte) : Prop := ∀ k, n ≤ k → u.getLsbD k = false

theorem untouched_hold (t : Nat) : ∀ st ∈ hold t, st.touchesLines = false := by
  unfold hold; split <;> simp [Stmt.touchesLines]

theorem untouched_get (n : Nat) : ∀ st ∈ get n, st.touchesLines = false := by
  simp [get, Stmt.touchesLines]

theorem unassigned_hold (t : Nat) : ∀ st ∈ hold t, st.assigns = false := by
  unfold hold; split <;> simp [Stmt.assigns]

theorem unassigned_dataLinesIn (c : Cfg) : ∀ st ∈ dataLinesIn c, st.assigns = false := by
  simp [dataLinesIn, Stmt.assigns]

theorem unassigned_readEntry (c : Cfg) : ∀ st ∈ readEntry c, st.assigns = false :=
  List.forall_mem_cons.mpr ⟨rfl, List.forall_mem_append.mpr ⟨unassigned_dataLinesIn c, by simp [Stmt.assigns]⟩⟩

theorem ofBit_eq_high (b : Bool) : decide (Level.ofBit b = .high) = b := by cases b <;> rfl

/-- The units of a byte fit the lines of its width (R93). -/
theorem fitsLines_units (w : LineWidth) (v : Byte) : ∀ u ∈ units w v, fitsLines w.lines u := by
  cases w with
  | eight =>
    intro u _ k hk
    exact BitVec.getLsbD_of_ge u k hk
  | four =>
    have hmask : ∀ x : Byte, fitsLines 4 (x &&& 0x0F#8) := by
      intro x k hk
      have hbit : (0x0F#8).getLsbD k = false := by
        by_cases h8 : k < 8
        · interval_cases k <;> rfl
        · exact BitVec.getLsbD_of_ge _ k (by omega)
      rw [BitVec.getLsbD_and, hbit, Bool.and_false]
    exact List.forall_mem_cons.mpr ⟨hmask _, List.forall_mem_cons.mpr ⟨hmask v, by simp⟩⟩

/-- A byte's two nibbles make the byte (R94). -/
theorem assemble_nibbles (v : Byte) : assemble (hiNibble v) (loNibble v) = v :=
  Option.some.inj (decodeUnits_units .four v)

section
variable {s : State} {u : Byte} {us : List Byte} {acc hi : Byte} {rbuf : List Byte}

/-- GET inside a read cycle has gathered, after `n` samples, the first `n` bits of the cycle's unit (R90). -/
theorem get_bits (h : s.Replays .high (u :: us)) (hl : s.Locals acc hi rbuf) (n : Nat) (hn : n ≤ s.cfg.n) :
    ∃ acc', (runStmts s (get n)).Locals acc' hi rbuf ∧
      ∀ k, acc'.getLsbD k = (decide (k < n) && u.getLsbD k) := by
  induction n with
  | zero => exact ⟨_, hl.clearAcc, by simp⟩
  | succ n ih =>
    obtain ⟨acc', hlocals, hbits⟩ := ih (by omega)
    have hlevel : (runStmts s (get n)).sampleLevel (.d n) = Level.ofBit (u.getLsbD n) :=
      (h.untouched (untouched_get n)).sampleLevel (by rw [runStmts_cfg]; omega)
    have hsplit : get (n + 1) = get n ++ [.sampleBit n] := by
      simp [get, List.range_succ]
    refine ⟨_, by rw [hsplit, runStmts_append]; exact hlocals.sampleBit n, fun k => ?_⟩
    rw [hlevel, orBit_bit, hbits, ofBit_eq_high]
    rcases Nat.lt_trichotomy k n with hk | rfl | hk
    · simp [hk, hk.ne, Nat.lt_succ_of_lt hk]
    · cases hbit : u.getLsbD k with
      | false => simp
      | true => simp [BitVec.lt_of_getLsbD hbit]
    · simp [hk.ne', show ¬ k < n by omega, show ¬ k < n + 1 by omega]

theorem get_reads (h : s.Replays .high (u :: us)) (hu : fitsLines s.cfg.n u) (hl : s.Locals acc hi rbuf) :
    (runStmts s (get s.cfg.n)).Locals u hi rbuf := by
  obtain ⟨acc', hlocals, hbits⟩ := get_bits h hl s.cfg.n le_rfl
  have hacc : acc' = u := by
    refine BitVec.eq_of_getLsbD_eq fun k _ => ?_
    rw [hbits]
    by_cases hk : k < s.cfg.n
    · simp [hk]
    · simp [hk, hu k (by omega)]
  rwa [hacc] at hlocals

variable {c : Cfg} (hc : s.cfg = c)
include hc

/-- A read cycle reads the next unit (R76, R77). -/
theorem readCycle_reads {n : Nat} (hn : c.n = n) (h : s.Replays .low (u :: us)) (hu : fitsLines n u)
    (hl : s.Locals acc hi rbuf) :
    (runStmts s (readCycle c n)).Replays .low us ∧ (runStmts s (readCycle c n)).Locals u hi rbuf := by
  let s₁ := runStmts (runStmt s (.drive .e .high)) (hold c.tRdEh)
  have hn₁ : s₁.cfg.n = n := by simp [s₁, hc, hn]
  have hrise : s₁.Replays .high (u :: us) := h.rise.untouched (untouched_hold _)
  have hlocals : s₁.Locals acc hi rbuf :=
    (hl.unassigned (l := [.drive .e .high]) (by simp [Stmt.assigns])).unassigned (unassigned_hold _)
  have hget := get_reads hrise (hn₁.symm ▸ hu) hlocals
  have hheld := hrise.untouched (untouched_get s₁.cfg.n)
  have hrun : runStmts s (readCycle c n) =
      runStmts (runStmt (runStmts s₁ (get s₁.cfg.n)) (.drive .e .low)) (hold c.tRdEl) := by
    rw [readCycle, runStmts_append, List.cons_append, runStmts_cons, runStmts_cons, runStmts_append, hn₁]
  rw [hrun]
  exact ⟨hheld.fall.untouched (untouched_hold _),
    (hget.unassigned (l := [.drive .e .low]) (by simp [Stmt.assigns])).unassigned (unassigned_hold _)⟩

/-- One READUNIT reads the next byte: its one unit in Eight mode, its two nibbles in Four mode (R76, R77, R94). -/
theorem readUnit_reads (hn : c.n = c.width.lines) {v : Byte} (h : s.Replays .low (units c.width v ++ us))
    (hl : s.Locals acc hi rbuf) :
    (runStmts s (readUnitStmts c)).Replays .low us ∧
      ∃ acc' hi', (runStmts s (readUnitStmts c)).Locals acc' hi' (rbuf ++ [v]) := by
  have hfits := fitsLines_units c.width v
  unfold readUnitStmts
  cases hw : c.width with
  | eight =>
    rw [hw] at h hfits hn
    obtain ⟨hreplays, hlocals⟩ := readCycle_reads hc hn h (hfits v List.mem_cons_self) hl
    rw [runStmts_append]
    exact ⟨hreplays.untouched (l := [.storeByte]) (by simp [Stmt.touchesLines]), _, _, hlocals.storeByte⟩
  | four =>
    rw [hw] at h hfits hn
    obtain ⟨hreplays, hlocals⟩ := readCycle_reads hc hn h (hfits _ List.mem_cons_self) hl
    have hreplays := hreplays.untouched (l := [.saveHi]) (by simp [Stmt.touchesLines])
    obtain ⟨hreplays, hlocals⟩ := readCycle_reads (by simpa using hc) hn hreplays
      (hfits _ (List.mem_cons_of_mem _ List.mem_cons_self)) hlocals.saveHi
    have hstore := hlocals.storeNibbles
    rw [assemble_nibbles] at hstore
    rw [runStmts_append, runStmts_append, runStmts_cons _ .saveHi]
    exact ⟨hreplays.untouched (l := [.storeNibbles]) (by simp [Stmt.touchesLines]), _, _, hstore⟩

/-- READUNITs, one per byte, read the bytes. -/
theorem readUnits_read (hn : c.n = c.width.lines) {p : List Byte} (h : s.Replays .low (p.flatMap (units c.width)))
    (hl : s.Locals acc hi rbuf) :
    ∃ acc' hi', (runStmts s (List.replicate p.length (readUnitStmts c)).flatten).Locals acc' hi' (rbuf ++ p) := by
  induction p generalizing s acc hi rbuf with
  | nil => exact ⟨acc, hi, by simpa using hl⟩
  | cons v p ih =>
    obtain ⟨hreplays, acc', hi', hlocals⟩ := readUnit_reads hc hn h hl
    rw [List.length_cons, List.replicate_succ, List.flatten_cons, runStmts_append, List.append_cons]
    exact ih (by simpa using hc) hreplays hlocals

end

theorem readEntry_not_enableHigh (c : Cfg) : ∀ st ∈ readEntry c, st ≠ .drive .e .high := by
  refine List.forall_mem_cons.mpr ⟨by simp, List.forall_mem_append.mpr ⟨?_, by simp⟩⟩
  simp [dataLinesIn]

section
variable {s : State} {p : List Byte} (hs : s.Ready) (he : s.lines.e.lat = some .low)
  (horacle : s.env.oracle = .latchReplay) (htrace : s.TraceExplainsLines)
  (hreplayed : s.replay.replayed = (p.flatMap (units s.cfg.width)).map fun u => unitOnBus u s.cfg.n)
  (hcycles : s.replay.cycles = 0)
include hs he horacle htrace hreplayed hcycles

/-- READ enters its read cycles with `LatchReplay` about to answer the units it holds. -/
theorem readEntry_replays (n : Nat) :
    (runStmts (s.accept (.read n)) (readEntry s.cfg)).Replays .low (p.flatMap (units s.cfg.width)) := by
  obtain ⟨-, -, -, hlevels, -⟩ := (Cfg.wf_iff s.cfg).mp hs.cfgWf
  have hreplay : (runStmts (s.accept (.read n)) (readEntry s.cfg)).replay =
      ReplayView.gains s.cfg { s.replay with current := none } (eventsOf (s.accept (.read n)) (readEntry s.cfg)) :=
    (replay_runStmts _ _).trans (by rw [replay_accept_read, accept_cfg])
  constructor
  · rw [hreplay, runStmts_lines, ReplayView.gains, replayLines_eventsOf, htrace.replay_lines, accept_lines]
  · rw [runStmts_oracle]; exact horacle
  · rw [runStmts_cfg, runStmts_lines]; exact cycleKind_readEntry hlevels hs.n_eq
  · rw [runStmts_lines, accept_lines, linesAfterAll_readEntry _ _ hs.n_eq]; exact he
  · refine ⟨0, ?_, ?_⟩
    · rw [hreplay, ReplayView.gains, readStarts_quiet _ _ _ _ (readEntry_not_enableHigh s.cfg)]
      exact hcycles
    · rw [hreplay, runStmts_cfg]; exact hreplayed

/-- READ of a transport to which `LatchReplay` answers the units of `p`, from the first on, answers `p`. -/
theorem read_replayed (hp : p ≠ []) : (perform (.read p.length) s).result = ⟨p.length, .ok, p⟩ := by
  obtain ⟨m, hm⟩ := Nat.exists_eq_succ_of_ne_zero (mt List.length_eq_zero_iff.mp hp)
  have hstmts : stmtsOf s.cfg (.read p.length) = readEntry s.cfg ++
      ((List.replicate p.length (readUnitStmts s.cfg)).flatten ++ dataLinesIn s.cfg) := by
    rw [stmtsOf, hm, readStmts_succ]
  have hcfg : (runStmts (s.accept (.read p.length)) (readEntry s.cfg)).cfg = s.cfg := runStmts_cfg _ _
  have hentry := readEntry_replays hs he horacle htrace hreplayed hcycles p.length
  have hlocals : (runStmts (s.accept (.read p.length)) (readEntry s.cfg)).Locals 0#8 0#8 [] :=
    State.Locals.unassigned ⟨.read p.length, 0, accept_seq _ _⟩ (unassigned_readEntry s.cfg)
  obtain ⟨acc, hi, hlocals⟩ := readUnits_read hcfg (Cfg.wf_n hs.cfgWf) hentry hlocals
  obtain ⟨req, pos, hbusy⟩ := hlocals.unassigned (unassigned_dataLinesIn s.cfg)
  obtain ⟨a, hbusy', hresult⟩ := perform_result (.read p.length) s hs.idle
  rw [hstmts, runStmts_append, runStmts_append, hbusy] at hbusy'
  rw [hresult, ← Seq.busy.inj hbusy', hm]
  rfl

end

/-- Settles O36: after the WRITE `LatchReplay` holds the units of the bytes, and READ answers them. -/
theorem writtenSequenceReadsBack : Obligations.WrittenSequenceReadsBack := by
  intro s p hs hout he htrace horacle hp
  have hext := extends_perform (.write p) s
  obtain ⟨-, -, -, hlines, -⟩ := perform_effect (.write p) s hs.idle
  obtain ⟨hreplayed, hcycles⟩ := replay_write hs hout he htrace p
  have hready : (perform (.write p) s).Ready := by
    refine ⟨?_, ?_, finish_seq _⟩
    · rw [hext.cfg]; exact hs.cfgWf
    · rw [Lines.wf, hext.length, hext.cfg]; exact hs.linesWf
  refine ⟨_, _, rfl, rfl, read_replayed hready ?_ ?_ (hext.traceExplainsLines htrace) ?_ hcycles hp⟩
  · rw [hlines, stmtsOf, linesAfterAll_write, unitsLines_e]
    split
    · exact he
    · rfl
  · rw [hext.oracle]; exact horacle
  · rw [hext.cfg]; exact hreplayed

end Sys2Proof.Machine
end

section
/-! PROOFS. The encoding family (30_encoding R58 to R66): the decoder's outcomes in terms of the descriptor's fields,
and the round trips between requests and descriptors. -/

namespace Sys2Proof.Machine

/-! ### The decoder, row by row -/

section
variable {c : Cfg} {q : Desc} {p : List Byte}

theorem decodeWords_reservedBits (hrsv : rsvField c q ≠ 0) : decodeWords c q p = .error .reservedBits := by
  rw [decodeWords, if_pos hrsv]

section
variable (hrsv : rsvField c q = 0)
include hrsv

theorem decodeWords_op00 (hop : opField q = 0b00#2) : decodeWords c q p =
    if lenField c q ≠ 0 then .error .setModeLength else .ok (.setmode (cField q)) := by
  simp [decodeWords, hrsv, hop]

theorem decodeWords_reservedC (hop : opField q ≠ 0b00#2) (hc : cField q = true) :
    decodeWords c q p = .error .reservedC := by
  simp [decodeWords, hrsv, hop, hc]

theorem decodeWords_op01 (hop : opField q = 0b01#2) (hc : cField q = false) :
    decodeWords c q p = .ok (.write p) := by
  simp [decodeWords, hrsv, hop, hc]

theorem decodeWords_op10 (hop : opField q = 0b10#2) (hc : cField q = false) : decodeWords c q p =
    match c.width with
    | .eight => .error .wrnibEightMode
    | .four => .ok (.wrnib p) := by
  cases hw : c.width <;> simp [decodeWords, hrsv, hop, hc, hw]

theorem decodeWords_op11 (hop : opField q = 0b11#2) (hc : cField q = false) :
    decodeWords c q p = .ok (.read (lenField c q)) := by
  simp [decodeWords, hrsv, hop, hc]

end

/-- Which descriptors are accepted, and what each stands for (30_encoding R64). -/
theorem decodeWords_eq_ok_iff {i : Instr} : decodeWords c q p = .ok i ↔ rsvField c q = 0 ∧ match i with
    | .setmode b => opField q = 0b00#2 ∧ cField q = b ∧ lenField c q = 0
    | .write p' => opField q = 0b01#2 ∧ cField q = false ∧ p = p'
    | .wrnib p' => opField q = 0b10#2 ∧ cField q = false ∧ c.width = .four ∧ p = p'
    | .read n => opField q = 0b11#2 ∧ cField q = false ∧ lenField c q = n := by
  by_cases hrsv : rsvField c q = 0
  swap
  · simp [decodeWords_reservedBits hrsv, hrsv]
  by_cases hop : opField q = 0b00#2
  · rw [decodeWords_op00 hrsv hop]
    by_cases hlen : lenField c q = 0 <;> cases i <;> simp [hrsv, hop, hlen]
  cases hc : cField q with
  | true =>
    rw [decodeWords_reservedC hrsv hop hc]
    cases i <;> simp [hop]
  | false =>
    rcases (opField_cases q).resolve_left hop with hop | hop | hop
    · rw [decodeWords_op01 hrsv hop hc]
      cases i <;> simp [hrsv, hop]
    · rw [decodeWords_op10 hrsv hop hc]
      cases hw : c.width <;> cases i <;> simp [hrsv, hop]
    · rw [decodeWords_op11 hrsv hop hc]
      cases i <;> simp [hrsv, hop]

/-- Which descriptors are refused: each reason names the first check that fails (60_exceptions R101, R102). -/
theorem decodeWords_eq_error_iff {reason : RefuseReason} : decodeWords c q p = .error reason ↔ match reason with
    | .reservedBits => rsvField c q ≠ 0
    | .setModeLength => rsvField c q = 0 ∧ opField q = 0b00#2 ∧ lenField c q ≠ 0
    | .reservedC => rsvField c q = 0 ∧ opField q ≠ 0b00#2 ∧ cField q = true
    | .wrnibEightMode => rsvField c q = 0 ∧ cField q = false ∧ opField q = 0b10#2 ∧ c.width = .eight := by
  by_cases hrsv : rsvField c q = 0
  swap
  · cases reason <;> simp [decodeWords_reservedBits hrsv, hrsv]
  by_cases hop : opField q = 0b00#2
  · rw [decodeWords_op00 hrsv hop]
    by_cases hlen : lenField c q = 0 <;> cases reason <;> simp [hrsv, hop, hlen]
  cases hc : cField q with
  | true =>
    rw [decodeWords_reservedC hrsv hop hc]
    cases reason <;> simp [hrsv, hop]
  | false =>
    rcases (opField_cases q).resolve_left hop with hop | hop | hop
    · rw [decodeWords_op01 hrsv hop hc]
      cases reason <;> simp [hrsv, hop]
    · rw [decodeWords_op10 hrsv hop hc]
      cases hw : c.width <;> cases reason <;> simp [hrsv, hop]
    · rw [decodeWords_op11 hrsv hop hc]
      cases reason <;> simp [hrsv, hop]

end

/-! ### The round trips -/

theorem wf_write_iff {c : Cfg} {p : List Byte} : (Instr.write p).wf c = true ↔ p.length < 2 ^ c.lenWidth := by
  simp [Instr.wf]

theorem wf_wrnib_iff {c : Cfg} {p : List Byte} :
    (Instr.wrnib p).wf c = true ↔ p.length < 2 ^ c.lenWidth ∧ c.width = .four := by
  simp [Instr.wf]

theorem wf_read_iff {c : Cfg} {n : Nat} : (Instr.read n).wf c = true ↔ n < 2 ^ c.lenWidth := by
  simp [Instr.wf]

/-- A request's payload is what its descriptor counts (R58, R63). -/
theorem encodePayload_length {c : Cfg} {i : Instr} (h : i.wf c = true) :
    (encodePayload i).length = payloadLen c.lenWidth (encodeDesc c i) := by
  rw [payloadLen_lenWidth]
  cases i with
  | setmode b => simp [encodePayload, encodeDesc]
  | write p => simp [encodePayload, encodeDesc, lenField_mkDesc c _ _ _ (wf_write_iff.mp h)]
  | wrnib p => simp [encodePayload, encodeDesc, lenField_mkDesc c _ _ _ (wf_wrnib_iff.mp h).1]
  | read n => simp [encodePayload, encodeDesc]

/-- The fields of a well-formed request's descriptor are those of its row of the decoder's table (R59 to R64). -/
theorem decodeWords_encode {c : Cfg} {i : Instr} (h : i.wf c = true) :
    decodeWords c (encodeDesc c i) (encodePayload i) = .ok i := by
  refine decodeWords_eq_ok_iff.mpr ?_
  cases i with
  | setmode b => simp [encodeDesc, lenField_mkDesc c _ _ 0 (Nat.two_pow_pos _)]
  | write p => simp [encodeDesc, encodePayload]
  | wrnib p => simp [encodeDesc, encodePayload, (wf_wrnib_iff.mp h).2]
  | read n => simp [encodeDesc, lenField_mkDesc c _ _ _ (wf_read_iff.mp h)]

/-- Settles O2: the payload is what the descriptor counts, and the descriptor's fields decode to the request. -/
theorem encodeThenDecode : Obligations.EncodeThenDecode :=
  fun _ _ h => ⟨encodePayload_length h, decodeWords_encode h⟩

section
variable {c : Cfg} {q : Desc} {p : List Byte} {i : Instr}

/-- The payload of WRITE and WRNIB is as long as `LEN` says (R63). -/
theorem payloadLen_of_counted (hop : opField q = 0b01#2 ∨ opField q = 0b10#2) :
    payloadLen c.lenWidth q = lenField c q := by
  rw [payloadLen_lenWidth, if_pos hop]

/-- SETMODE and READ bring no payload (R63). -/
theorem payloadLen_of_uncounted (hop : opField q = 0b00#2 ∨ opField q = 0b11#2) : payloadLen c.lenWidth q = 0 := by
  rcases hop with hop | hop <;> simp [payloadLen, hop]

variable (hdec : decodeWords c q p = .ok i) (hlen : p.length = payloadLen c.lenWidth q)
include hdec hlen

/-- An accepted descriptor is the one made from its fields, and those are the request's (R59 to R63). -/
theorem encodeDesc_of_decodeWords : encodeDesc c i = q := by
  obtain ⟨hrsv, hrow⟩ := decodeWords_eq_ok_iff.mp hdec
  have hfields := mkDesc_fields c q hrsv
  cases i with
  | setmode b =>
    obtain ⟨hop, hc, hzero⟩ := hrow
    rwa [hop, hc, hzero] at hfields
  | write p' =>
    obtain ⟨hop, hc, rfl⟩ := hrow
    rwa [hop, hc, ← payloadLen_of_counted (.inl hop), ← hlen] at hfields
  | wrnib p' =>
    obtain ⟨hop, hc, -, rfl⟩ := hrow
    rwa [hop, hc, ← payloadLen_of_counted (.inr hop), ← hlen] at hfields
  | read n =>
    obtain ⟨hop, hc, hcount⟩ := hrow
    rwa [hop, hc, hcount] at hfields

/-- The payload that came is the request's, empty where the request has none (R58). -/
theorem encodePayload_of_decodeWords : encodePayload i = p := by
  obtain ⟨-, hrow⟩ := decodeWords_eq_ok_iff.mp hdec
  cases i with
  | setmode b =>
    obtain ⟨hop, -, -⟩ := hrow
    exact (List.length_eq_zero_iff.mp (hlen.trans (payloadLen_of_uncounted (.inl hop)))).symm
  | write p' =>
    obtain ⟨-, -, rfl⟩ := hrow
    rfl
  | wrnib p' =>
    obtain ⟨-, -, -, rfl⟩ := hrow
    rfl
  | read n =>
    obtain ⟨hop, -, -⟩ := hrow
    exact (List.length_eq_zero_iff.mp (hlen.trans (payloadLen_of_uncounted (.inr hop)))).symm

/-- An accepted request fits `LEN`, since `LEN` counted it, and is no WRNIB in Eight mode (R63, R65). -/
theorem wf_of_decodeWords : i.wf c = true := by
  obtain ⟨-, hrow⟩ := decodeWords_eq_ok_iff.mp hdec
  have hcount := lenField_lt c q
  cases i with
  | setmode b => rfl
  | write p' =>
    obtain ⟨hop, -, rfl⟩ := hrow
    rw [← payloadLen_of_counted (.inl hop), ← hlen] at hcount
    exact wf_write_iff.mpr hcount
  | wrnib p' =>
    obtain ⟨hop, -, hfour, rfl⟩ := hrow
    rw [← payloadLen_of_counted (.inr hop), ← hlen] at hcount
    exact wf_wrnib_iff.mpr ⟨hcount, hfour⟩
  | read n =>
    obtain ⟨-, -, rfl⟩ := hrow
    exact wf_read_iff.mpr hcount

end

/-- Settles O3: under the configuration's own width of `LEN` the payload is what the descriptor counts, so the fields
of the descriptor and of the request are the same. -/
theorem decodeThenEncode : Obligations.DecodeThenEncode := by
  intro c r i hframed hdec
  have hlen : r.payload.length = payloadLen c.lenWidth r.desc := beq_iff_eq.mp hframed ▸ r.exact
  exact ⟨wf_of_decodeWords hdec hlen,
    Prod.ext (encodeDesc_of_decodeWords hdec hlen) (encodePayload_of_decodeWords hdec hlen)⟩

end Sys2Proof.Machine
end

section
/-! PROOFS. The encoding family (30_encoding R60 to R65, `opcode_table.json`), bit by bit: the rows of the opcode table,
the refusals, and words written out from the spec. -/

namespace Sys2Proof.Machine

/-! ### The fields as bits -/

/-- `OP` is bits 31:30 (R59). -/
theorem opField_eq_iff (q : Desc) (op : BitVec 2) :
    opField q = op ↔ q.getLsbD 31 = op.getLsbD 1 ∧ q.getLsbD 30 = op.getLsbD 0 := by
  have hbit : ∀ i < 2, (opField q).getLsbD i = q.getLsbD (30 + i) := fun i hi => by
    simp [opField, hi]
  constructor
  · rintro rfl
    exact ⟨(hbit 1 (by decide)).symm, (hbit 0 (by decide)).symm⟩
  · rintro ⟨h1, h0⟩
    refine BitVec.eq_of_getLsbD_eq fun i hi => ?_
    rw [hbit i hi]
    interval_cases i
    · exact h0
    · exact h1

/-- `RSV` is not 0 exactly when some bit of it is set (R62). -/
theorem rsvField_ne_zero_iff (c : Cfg) (q : Desc) :
    rsvField c q ≠ 0 ↔ ∃ k, c.lenWidth ≤ k ∧ k ≤ 28 ∧ q.getLsbD k = true := by
  rw [Ne, rsvField_eq_zero]
  push Not
  simp

/-- `LEN` is not 0 exactly when some bit of it is set (R63). -/
theorem lenField_ne_zero_iff (c : Cfg) (q : Desc) :
    lenField c q ≠ 0 ↔ ∃ k, k < c.lenWidth ∧ q.getLsbD k = true := by
  rw [Ne, lenField_eq_zero]
  push Not
  simp

theorem lenWidth_of_lenBits {c : Cfg} (h : c.lenBits = 24) : c.lenWidth = 24 := by
  rw [Cfg.lenWidth, h]; rfl

/-- Settles O5: each refusal is a condition on the descriptor's fields, and each field is its bits. -/
theorem refusalNamesTheFirstFailingCheck : Obligations.RefusalNamesTheFirstFailingCheck := by
  refine ⟨fun c => lenWidth_of_lenBits, fun c r reason => decodeWords_eq_error_iff.trans ?_⟩
  cases reason with
  | reservedBits => exact rsvField_ne_zero_iff c r.desc
  | setModeLength => simp [rsvField_eq_zero, opField_eq_iff, lenField_ne_zero_iff, and_assoc]
  | reservedC => simp [rsvField_eq_zero, opField_eq_iff, cField, or_iff_not_imp_left]
  | wrnibEightMode => simp [rsvField_eq_zero, opField_eq_iff, cField, and_assoc]

/-! ### The rows of the opcode table -/

theorem mkDesc_zero (c : Cfg) (op : BitVec 2) (b : Bool) : mkDesc c op b 0 = op ++ BitVec.ofBool b ++ 0#29 := by
  rw [mkDesc, Nat.zero_mod]


/-- A word agrees with a pattern under a mask when it has the pattern's bits where the mask has a bit. -/
theorem and_eq_iff_bits {q mask pattern : Desc} (h : pattern &&& mask = pattern) :
    q &&& mask = pattern ↔ ∀ k < 32, mask.getLsbD k = true → q.getLsbD k = pattern.getLsbD k := by
  rw [← h]
  constructor
  · intro heq k _ hk
    simpa [hk] using congrArg (fun x : Desc => x.getLsbD k) heq
  · intro hbits
    refine BitVec.eq_of_getLsbD_eq fun k hk => ?_
    cases hm : mask.getLsbD k with
    | false => simp [hm]
    | true => simpa [hm] using hbits k hk hm

section
variable {c : Cfg} (hw : c.lenWidth = 24) (q : Desc)
include hw

/-- The rows of WRITE, WRNIB and READ fix `OP`, `C` and `RSV`, the bits from 24 on (R59). -/
theorem countedRow_iff (op : BitVec 2) {pattern : Desc} (hp : op ++ BitVec.ofBool false ++ 0#29 = pattern) :
    q &&& 0xFF000000#32 = pattern ↔ rsvField c q = 0 ∧ opField q = op ∧ cField q = false := by
  have hmask : ∀ k < 32, (0xFF000000#32).getLsbD k = decide (24 ≤ k) := by decide
  have hpattern : pattern &&& 0xFF000000#32 = pattern := by
    subst hp; revert op; decide
  rw [and_eq_iff_bits hpattern, ← hp, ← mkDesc_zero c, rsvField_eq_zero, opField_eq_iff, cField, hw]
  simp only [mkDesc_bit, hw]
  constructor
  · intro h
    have hbit := fun k h24 h32 => h k h32 ((hmask k h32).trans (decide_eq_true h24))
    refine ⟨fun k h24 h28 => (hbit k h24 (by omega)).trans ?_, ⟨hbit 31 (by decide) (by decide),
      hbit 30 (by decide) (by decide)⟩, hbit 29 (by decide) (by decide)⟩
    rw [if_neg (by omega), if_pos (by omega)]
  · rintro ⟨hrsv, ⟨h31, h30⟩, h29⟩ k h32 hk
    have h24 : 24 ≤ k := of_decide_eq_true (hmask k h32 ▸ hk)
    rw [if_neg (by omega)]
    by_cases h28 : k ≤ 28
    · rw [if_pos (by omega), hrsv k h24 h28]
    · interval_cases k
      · exact h29
      · exact h30
      · exact h31

/-- The row of SETMODE fixes every bit but `C` (R61). -/
theorem setmodeRow_iff :
    q &&& 0xDFFFFFFF#32 = 0#32 ↔ rsvField c q = 0 ∧ opField q = 0b00#2 ∧ lenField c q = 0 := by
  have hmask : ∀ k < 32, (0xDFFFFFFF#32).getLsbD k = decide (k ≠ 29) := by decide
  rw [and_eq_iff_bits (by decide), rsvField_eq_zero, opField_eq_iff, lenField_eq_zero, hw]
  constructor
  · intro h
    have hbit : ∀ k < 32, k ≠ 29 → q.getLsbD k = false := fun k h32 h29 =>
      (h k h32 (by simpa [hmask k h32] using h29)).trans BitVec.getLsbD_zero
    exact ⟨fun k _ h28 => hbit k (by omega) (by omega),
      ⟨hbit 31 (by decide) (by decide), hbit 30 (by decide) (by decide)⟩,
      fun k hk => hbit k (by omega) (by omega)⟩
  · rintro ⟨hrsv, ⟨h31, h30⟩, hlen⟩ k h32 hk
    have h29 : k ≠ 29 := of_decide_eq_true (hmask k h32 ▸ hk)
    rw [BitVec.getLsbD_zero]
    rcases lt_or_ge k 24 with hlt | hge
    · exact hlen k hlt
    by_cases h28 : k ≤ 28
    · exact hrsv k hge h28
    · interval_cases k
      · exact absurd rfl h29
      · exact h30
      · exact h31

/-- The rows that hold a word, each by the fields it fixes. -/
theorem rows_holding_eq : (opcodeRows.filter fun row => row.holds q).map (fun row => row.mnemonic) =
    (if rsvField c q = 0 ∧ opField q = 0b00#2 ∧ lenField c q = 0 then ["setmode"] else []) ++
    (if rsvField c q = 0 ∧ opField q = 0b01#2 ∧ cField q = false then ["write"] else []) ++
    (if rsvField c q = 0 ∧ opField q = 0b10#2 ∧ cField q = false then ["wrnib"] else []) ++
    (if rsvField c q = 0 ∧ opField q = 0b11#2 ∧ cField q = false then ["read"] else []) := by
  have hwrite := countedRow_iff hw q 0b01#2 (pattern := 0x40000000#32) rfl
  have hwrnib := countedRow_iff hw q 0b10#2 (pattern := 0x80000000#32) rfl
  have hread := countedRow_iff hw q 0b11#2 (pattern := 0xC0000000#32) rfl
  simp only [opcodeRows, OpcodeRow.holds, List.filter_cons, List.filter_nil, beq_iff_eq, setmodeRow_iff hw q, hwrite,
    hwrnib, hread]
  split_ifs <;> rfl

end

/-- Settles O4: an accepted word has the fields that its row fixes and so those of no other row, and a refused one has
those of no row. -/
theorem acceptedWordsMatchOneTableRow : Obligations.AcceptedWordsMatchOneTableRow := by
  intro c r hfour hbits
  rw [rows_holding_eq (lenWidth_of_lenBits hbits)]
  cases hdec : decodeRequest c r with
  | ok i =>
    obtain ⟨hrsv, hrow⟩ := decodeWords_eq_ok_iff.mp hdec
    cases i with
    | setmode b => simp [hrsv, hrow, mnemonic]
    | write p => simp [hrsv, hrow, mnemonic]
    | wrnib p => simp [hrsv, hrow, mnemonic]
    | read n => simp [hrsv, hrow, mnemonic]
  | error reason =>
    have hcheck := decodeWords_eq_error_iff.mp hdec
    cases reason with
    | reservedBits => simp [show rsvField c r.desc ≠ 0 from hcheck]
    | setModeLength => simp [hcheck]
    | reservedC => simp [hcheck]
    | wrnibEightMode => simp [hfour] at hcheck

/-! ### Words written out from the spec -/

/-- Settles O1: the decoder is evaluated on each word. -/
theorem decodesTheSpecWords : Obligations.DecodesTheSpecWords := by
  unfold Obligations.DecodesTheSpecWords
  decide

/-! ### Splitting a sequence -/

/-- The pieces, one after another, are the sequence (R63). -/
theorem chunks_flatten (k fuel : Nat) (p : List Byte) (h : p.length ≤ fuel) : (chunks k fuel p).flatten = p := by
  induction fuel generalizing p with
  | zero => exact (List.length_eq_zero_iff.mp (Nat.le_zero.mp h)).symm
  | succ fuel ih =>
    cases p with
    | nil => rfl
    | cons v p =>
      have hrest : ((v :: p).drop (k + 1)).length ≤ fuel := by
        simp only [List.length_cons] at h
        simp; omega
      rw [chunks, List.flatten_cons, ih _ hrest, List.take_append_drop]
      simp

/-- A piece has at most `k + 1` elements. -/
theorem length_le_of_mem_chunks {k fuel : Nat} {p piece : List Byte} (h : piece ∈ chunks k fuel p) :
    piece.length ≤ k + 1 := by
  induction fuel generalizing p with
  | zero => cases h
  | succ fuel ih =>
    cases p with
    | nil => cases h
    | cons v p =>
      rcases List.mem_cons.mp h with rfl | h
      · exact List.length_take_le _ _
      · exact ih h

/-- A `LEN` of some bits counts at least to 1 (R63). -/
theorem two_le_two_pow_lenWidth {c : Cfg} (h : 0 < c.lenBits) : 2 ≤ 2 ^ c.lenWidth := by
  have hpos : c.lenWidth ≠ 0 := by rw [Cfg.lenWidth]; omega
  exact Nat.le_self_pow hpos 2

/-- Settles O6: the sequence in one request where it fits, else its pieces, none longer than `LEN` can count. -/
theorem splitWritesCarryTheSequence : Obligations.SplitWritesCarryTheSequence := by
  intro c p hbits
  have htwo := two_le_two_pow_lenWidth hbits
  unfold splitWrite
  split
  case isTrue hfits => exact ⟨by simp [encodePayload], by simpa using wf_write_iff.mpr hfits⟩
  case isFalse =>
    refine ⟨?_, List.forall_mem_map.mpr fun piece hpiece => wf_write_iff.mpr ?_⟩
    · rw [List.flatMap_map]
      exact List.flatMap_id.trans (chunks_flatten _ _ p le_rfl)
    · have hlen := length_le_of_mem_chunks hpiece
      omega

end Sys2Proof.Machine
end

section
/-! PROOFS. The encoding family (30_encoding R58, R65, 60_exceptions R100, 70_reset_and_hazards R121): what an idle
transport does with the delivery at the head of its port, and the refusals. -/

namespace Sys2Proof.Machine

/-! ### The head of the port -/

/-- Settles O9: what is fetched is the decoded request, which the step runs. -/
theorem stepRunsTheDecodedRequest : Obligations.StepRunsTheDecodedRequest := by
  intro s r rest i hidle hport hframed hdec
  rw [step, fetch_of_decoded hidle hport hframed hdec]

/-- Settles O11: nothing is fetched from an empty port, nor a request framed by another width of `LEN`. -/
theorem stepWaitsForADelivery : Obligations.StepWaitsForADelivery := by
  intro s hidle hport
  have hwait : fetch s = .wait := by
    rcases hport with hport | ⟨r, rest, hport, hframed⟩
    · simp only [fetch, hidle, hport]
    · simp [fetch, hidle, hport, hframed]
  rw [step, hwait]

/-! ### Refusals -/

/-- A refusal by an idle transport, as the whole next state (60_exceptions R100). -/
theorem refuse_of_idle {s : State} (hidle : s.seq = .idle) (q : Desc) (reason : RefuseReason) :
    s.refuse q reason = { s with
      result := ⟨0, .refused reason, []⟩
      trace := s.trace ++ [⟨s.now, .beginReq q⟩, ⟨s.now, .endReq 0 (.refused reason)⟩] } := by
  rcases s with ⟨_, _, _, _, seq, _, _, _, _, _⟩
  obtain rfl : seq = .idle := hidle
  simp [State.refuse, State.raise, State.respond, State.emit]

/-- Settles O28: in Eight mode WRNIB does not run, and is refused by an idle transport. -/
theorem wrnibInEightModeIsRefused : Obligations.WrnibInEightModeIsRefused := by
  intro s p hidle height
  have hruns : requestRuns s.cfg (.wrnib p) = false := by simp [requestRuns, height]
  rw [exec_of_not_runs hidle hruns, refuse_of_idle hidle]

/-- A descriptor of R65's table is refused with the reason of the first failing check (60_exceptions R102). -/
theorem decodeWords_of_refused {c : Cfg} {q : Desc} (p : List Byte)
    (h : (rsvField c q ≠ 0) ∨ (opField q = 0b00#2 ∧ lenField c q ≠ 0) ∨
      (opField q ≠ 0b00#2 ∧ cField q = true) ∨ (opField q = 0b10#2 ∧ c.width = .eight)) :
    decodeWords c q p = .error (if rsvField c q ≠ 0 then .reservedBits
      else if opField q = 0b00#2 then .setModeLength
      else if cField q = true then .reservedC
      else .wrnibEightMode) := by
  rw [decodeWords_eq_error_iff]
  by_cases hrsv : rsvField c q = 0
  swap
  · rw [if_pos hrsv]; exact hrsv
  rw [if_neg (not_not.mpr hrsv)]
  by_cases hop : opField q = 0b00#2
  · rw [if_pos hop]
    exact ⟨hrsv, hop, by simpa [hrsv, hop] using h⟩
  rw [if_neg hop]
  by_cases hc : cField q = true
  · rw [if_pos hc]
    exact ⟨hrsv, hop, hc⟩
  · rw [if_neg hc]
    exact ⟨hrsv, by simpa using hc, by simpa [hrsv, hop, hc] using h⟩

/-- Settles O10: the request is refused with the reason of its first failing check, by the transport from whose port it
has been taken. -/
theorem stepRefusesByName : Obligations.StepRefusesByName := by
  intro s r rest hidle hport hframed hrefused
  refine ⟨_, ?_, rfl⟩
  rw [step_of_refused hidle hport hframed (decodeWords_of_refused r.payload hrefused),
    refuse_of_idle (s := s.withPort rest) hidle]
  rfl

/-! ### SETMODE -/

/-- SETMODE's descriptor has `C` and nothing else, under every configuration (30_encoding R61). -/
theorem encodeDesc_setmode (c : Cfg) (b : Bool) :
    encodeDesc c (.setmode b) = if b = true then 0x20000000#32 else 0x00000000#32 := by
  rw [encodeDesc, mkDesc_zero]
  cases b <;> rfl

/-- Settles O20: between `Begin` and `End` SETMODE has two statements, the drive of `RS` and the mode. -/
theorem setmodeDrivesRegisterSelect : Obligations.SetmodeDrivesRegisterSelect := by
  intro s isCommand hidle
  obtain ⟨a, -, -, hperform⟩ := perform_spec (.setmode isCommand) s hidle
  refine ⟨s.env.delay, ?_⟩
  rw [exec_of_runs (i := .setmode isCommand) rfl, hperform, ← encodeDesc_setmode s.cfg, List.append_cons,
    List.append_cons (s.trace ++ _)]
  rcases s with ⟨_, _, _, _, seq, _, _, _, _, _⟩
  obtain rfl : seq = .idle := hidle
  cases isCommand with
  | true => rfl
  | false => rfl

end Sys2Proof.Machine
end

section
/-! PROOFS. The encoding family (30_encoding R63, 40_bus_transport R74): each WRNIB request has a trailing pulse of its
own. -/

namespace Sys2Proof.Machine

/-- How many events of a kind statements emit is fixed by their shapes, where the kind does not tell sampled levels or
elapsed times apart (10_state R24). -/
theorem countKind_eventsOf {p : EventKind → Bool} (hp : ∀ k, p k.shape = p k) (s : State) (l : List Stmt) :
    countKind p (eventsOf s l) = (l.filterMap Stmt.shape).countP p := by
  rw [← eventsOf_shape s l, List.countP_map, countKind]
  exact List.countP_congr fun ev _ => by rw [Function.comp_apply, hp]

/-- How often statements drive `E` high, once for each enable pulse (40_bus_transport R82). -/
def enablePulses (l : List Stmt) : Nat := (l.filterMap Stmt.shape).countP fun k => k = .drive .e .high

theorem countKind_enableHigh_eventsOf (s : State) (l : List Stmt) :
    countKind (fun k => k = .drive .e .high) (eventsOf s l) = enablePulses l :=
  countKind_eventsOf (fun k => by cases k <;> rfl) s l

@[simp] theorem enablePulses_append (l m : List Stmt) : enablePulses (l ++ m) = enablePulses l + enablePulses m := by
  simp [enablePulses]

@[simp] theorem enablePulses_pulse (c : Cfg) : enablePulses (pulse c) = 1 := rfl

@[simp] theorem enablePulses_put (v : Byte) (n : Nat) : enablePulses (put v n) = 0 := by
  simp [enablePulses, put, List.filterMap_map, Stmt.shape, Function.comp_def]

@[simp] theorem enablePulses_tapIfAll (c : Cfg) (v : Byte) (w : Nat) : enablePulses (tapIfAll c v w) = 0 := by
  unfold tapIfAll; split <;> rfl

theorem enablePulses_wrnibElem (c : Cfg) (v : Byte) : enablePulses (wrnibElemStmts c v) = 1 := by
  simp [wrnibElemStmts]

/-- WRNIB makes one pulse for each element and the trailing one (40_bus_transport R74). -/
theorem enablePulses_wrnib (c : Cfg) (p : List Byte) : enablePulses (wrnibStmts c p) = p.length + 1 := by
  have hdrive : enablePulses (if c.wnDrivesRw then [.drive .rw c.rwWriteLevel] else []) = 0 := by split <;> rfl
  have helems : enablePulses (p.flatMap (wrnibElemStmts c)) = p.length := by
    induction p with
    | nil => rfl
    | cons v p ih =>
      rw [List.flatMap_cons, enablePulses_append, enablePulses_wrnibElem, ih, List.length_cons, Nat.add_comm]
  rw [wrnibStmts, enablePulses_append, enablePulses_append, hdrive, helems, enablePulses_pulse, Nat.zero_add]

/-- The same of the events of a whole WRNIB request: its `Begin` and `End` are no drives. -/
theorem countKind_enableHigh_wrnib {s : State} (hidle : s.seq = .idle) (p : List Byte) :
    ∃ evs, (perform (.wrnib p) s).trace = s.trace ++ evs ∧
      countKind (fun k => k = .drive .e .high) evs = p.length + 1 := by
  obtain ⟨t, n, status, htrace⟩ := perform_events (i := .wrnib p) hidle
  refine ⟨_, htrace, ?_⟩
  rw [List.cons_append, ← List.singleton_append, countKind_append, countKind_append, countKind_enableHigh_eventsOf,
    stmtsOf, enablePulses_wrnib]
  simp [countKind]

/-- Settles O29: the pulses of a request are its elements and one more. -/
theorem splitWrnibAddsAPulse : Obligations.SplitWrnibAddsAPulse := by
  intro s p q hs hfour
  obtain ⟨hcfg, -, hidle, -⟩ := perform_effect (.wrnib p) s hs.idle
  obtain ⟨e1, htrace1, hcount1⟩ := countKind_enableHigh_wrnib hs.idle (p ++ q)
  obtain ⟨e2, htrace2, hcount2⟩ := countKind_enableHigh_wrnib hs.idle p
  obtain ⟨e3, htrace3, hcount3⟩ := countKind_enableHigh_wrnib hidle q
  refine ⟨_, _, _, e1, e2, e3, exec_of_runs (beq_iff_eq.mpr hfour), htrace1,
    exec_of_runs (beq_iff_eq.mpr hfour), htrace2, exec_of_runs (beq_iff_eq.mpr (hcfg ▸ hfour)), htrace3, ?_⟩
  rw [hcount1, hcount2, hcount3, List.length_append]
  omega

end Sys2Proof.Machine
end

section
/-! PROOFS. The encoding family (30_encoding R57, 42_transcoding R90): GET gathers the levels it samples. -/

namespace Sys2Proof.Machine

/-- The samples of data lines `D[0]`, `D[1]`, ..., each with the level it gave (42_transcoding R90). -/
def lineSamples (levels : List Level) : List (Line × Level) := levels.mapIdx fun i lvl => (.d i, lvl)

theorem lineSamples_lines (levels : List Level) :
    (lineSamples levels).map Prod.fst = (List.range levels.length).map .d := by
  refine List.ext_getElem? fun i => ?_
  by_cases hi : i < levels.length <;> simp [lineSamples, hi]

/-- The level of line `i` among the samples is entry `i` of the levels. -/
theorem lineSamples_getElem?_eq_high (levels : List Level) (i : Nat) :
    (lineSamples levels)[i]? = some (.d i, .high) ↔ levels[i]? = some .high := by
  simp [lineSamples]

/-- GET's accumulation, one level more. -/
theorem gather_concat (levels : List Level) (acc : Byte) (i : Nat) (lvl : Level) :
    gather acc i (levels ++ [lvl]) = orBit (gather acc i levels) (i + levels.length) lvl := by
  induction levels generalizing acc i with
  | nil => rfl
  | cons l levels ih =>
    rw [List.cons_append, gather, gather, ih, List.length_cons, Nat.add_right_comm, Nat.add_assoc]

/-- GET's value has bit `k` exactly when line `k` read high (R90). -/
theorem gather_zero_bit {levels : List Level} (h : levels.length ≤ 8) (k : Nat) :
    (gather 0#8 0 levels).getLsbD k = true ↔ levels[k]? = some .high := by
  have hlt : levels[k]? = some .high → k < 8 := fun hk => by
    have hlen := (List.getElem?_eq_some_iff.mp hk).1
    omega
  simpa [gather_bit] using hlt

/-- GET samples the lines in order, each once, and gathers the levels into the accumulator (R90). -/
theorem get_gathers {s : State} {acc hi : Byte} {rbuf : List Byte} (h : s.Locals acc hi rbuf) (n : Nat) :
    ∃ levels : List Level, levels.length = n ∧
      (eventsOf s (get n)).map (fun ev => ev.kind) = levels.mapIdx (fun i lvl => .sample (.d i) lvl) ∧
      samplesOf (eventsOf s (get n)) = lineSamples levels ∧
      (runStmts s (get n)).Locals (gather 0#8 0 levels) hi rbuf := by
  induction n with
  | zero => exact ⟨[], rfl, rfl, rfl, h.clearAcc⟩
  | succ n ih =>
    obtain ⟨levels, hlen, hkinds, hsamples, hlocals⟩ := ih
    have hsplit : get (n + 1) = get n ++ [.sampleBit n] := by simp [get, List.range_succ]
    refine ⟨levels ++ [(runStmts s (get n)).sampleLevel (.d n)], by simp [hlen], ?_, ?_, ?_⟩
    · rw [hsplit, eventsOf_append, List.map_append, hkinds, List.mapIdx_concat, hlen]
      rfl
    · rw [hsplit, eventsOf_append, samplesOf_append, hsamples, lineSamples, lineSamples, List.mapIdx_concat, hlen]
      rfl
    · rw [hsplit, runStmts_append, gather_concat, hlen, Nat.zero_add]
      exact hlocals.sampleBit n

/-- A list mapped with its indices, as the model writes it. -/
theorem mapIdx_eq_zipWith_range {α β : Type} (f : Nat → α → β) (l : List α) :
    l.mapIdx f = (List.range l.length).zipWith f l := by
  refine List.ext_getElem (by simp) fun i _ _ => ?_
  simp

theorem modeAfter_of_not_setsMode {st : Stmt} (h : st.setsMode = false) (m : RsMode) : st.modeAfter m = m := by
  cases st with
  | setRsMode m => cases h
  | _ => rfl

theorem dirAfter_of_not_setsMode {st : Stmt} (h : st.setsMode = false) (d : LineDir) : st.dirAfter d = d := by
  cases st with
  | setDir d => cases h
  | _ => rfl

/-- Settles O17: the levels are those of the samples, and the value gathered from them has their bits. -/
theorem getGathersTheSampledLevels : Obligations.GetGathersTheSampledLevels := by
  intro s a n hn hbusy
  obtain ⟨levels, hlen, hkinds, -, req, pos, hseq⟩ := get_gathers ⟨a.req, a.pos, hbusy⟩ n
  refine ⟨levels, _, _, hlen, runStmts_trace s (get n), ?_, hseq, gather_zero_bit (hlen.trans_le hn), rfl, rfl,
    ?_, ?_, ?_⟩
  · rw [hkinds, mapIdx_eq_zipWith_range, hlen]
  · rw [runStmts_lines, linesAfterAll_get]
  · rw [runStmts_rsMode, foldl_modeAfter_of_none _ _ fun st hst => modeAfter_of_not_setsMode (setsMode_get n st hst)]
  · rw [runStmts_dir, foldl_dirAfter_of_none _ _ fun st hst => dirAfter_of_not_setsMode (setsMode_get n st hst)]

end Sys2Proof.Machine
end

section
/-! PROOFS. The encoding family (30_encoding R57, 40_bus_transport R75 to R77, 42_transcoding R92): READ assembles every
byte from the levels sampled in its read cycles. -/

namespace Sys2Proof.Machine

/-! ### The read cycles of a list of events -/

/-- The events hold exactly these read cycles, each from its rise to its fall, and no sample outside them
(20_memory R44). -/
structure HoldsCycles (evs : List Event) (cycles : List (List (Line × Level))) : Prop where
  samples : samplesOf evs = cycles.flatten
  cycles : ∀ later, cycleSamples (evs ++ later) = cycles ++ cycleSamples later

theorem HoldsCycles.append {a b : List Event} {cs ds : List (List (Line × Level))} (ha : HoldsCycles a cs)
    (hb : HoldsCycles b ds) : HoldsCycles (a ++ b) (cs ++ ds) where
  samples := by rw [samplesOf_append, ha.samples, hb.samples, List.flatten_append]
  cycles later := by rw [List.append_assoc, ha.cycles, hb.cycles, List.append_assoc]

theorem HoldsCycles.cycleSamples_eq {evs : List Event} {cycles : List (List (Line × Level))}
    (h : HoldsCycles evs cycles) : cycleSamples evs = cycles := by
  simpa [cycleSamples] using h.cycles []

/-- Events that neither drive `E` nor sample hold no read cycle. -/
theorem holdsCycles_nil {evs : List Event} (he : ∀ ev ∈ evs, ev.kind.drivesEnable = false)
    (hs : ∀ ev ∈ evs, ev.kind.isSample = false) : HoldsCycles evs [] :=
  ⟨samplesOf_eq_nil hs, fun later => cycleSamples_append evs later he⟩

/-- From a rise of `E` to its fall there is one cycle, of the samples between. -/
theorem holdsCycles_strobe {evs : List Event} (he : ∀ ev ∈ evs, ev.kind.drivesEnable = false) (t u : Nat) :
    HoldsCycles (⟨t, .drive .e .high⟩ :: evs ++ [⟨u, .drive .e .low⟩]) [samplesOf evs] := by
  constructor
  · rw [List.cons_append, ← List.singleton_append, samplesOf_append, samplesOf_append]
    simp [samplesOf]
  · intro later
    have hfall := samplesToFall_append evs (⟨u, .drive .e .low⟩ :: later) he
    have hrest := cycleSamples_append evs (⟨u, .drive .e .low⟩ :: later) he
    rw [List.append_assoc, List.cons_append, List.singleton_append, cycleSamples]
    simp [hfall, hrest, samplesToFall, cycleSamples]

/-! ### Statements that do not drive `E` -/

/-- Whether a statement drives `E`. -/
def Stmt.drivesEnable : Stmt → Bool
  | .drive .e _ => true
  | _ => false

theorem drivesEnable_eventsOf {l : List Stmt} (h : ∀ st ∈ l, st.drivesEnable = false) (s : State) :
    ∀ ev ∈ eventsOf s l, ev.kind.drivesEnable = false := by
  induction l generalizing s with
  | nil => simp
  | cons st l ih =>
    obtain ⟨hst, hl⟩ := List.forall_mem_cons.mp h
    refine List.forall_mem_append.mpr ⟨?_, ih hl _⟩
    cases st with
    | drive line lvl => cases line with
      | e => cases hst
      | _ => simp [stmtEvents, EventKind.drivesEnable]
    | _ => simp [stmtEvents, EventKind.drivesEnable]

theorem drivesEnable_of_untouched {l : List Stmt} (h : ∀ st ∈ l, st.touchesLines = false) :
    ∀ st ∈ l, st.drivesEnable = false := by
  intro st hst
  have hst := h st hst
  cases st with
  | drive line lvl => cases hst
  | _ => rfl

theorem holdsCycles_quiet {l : List Stmt} (he : ∀ st ∈ l, st.drivesEnable = false)
    (hs : ∀ st ∈ l, st.samples = false) (s : State) : HoldsCycles (eventsOf s l) [] :=
  holdsCycles_nil (drivesEnable_eventsOf he s) (isSample_eventsOf hs)

theorem drivesEnable_dataLinesIn (c : Cfg) : ∀ st ∈ dataLinesIn c, st.drivesEnable = false := by
  simp [dataLinesIn, Stmt.drivesEnable]

theorem holdsCycles_dataLinesIn (c : Cfg) (s : State) : HoldsCycles (eventsOf s (dataLinesIn c)) [] :=
  holdsCycles_quiet (drivesEnable_dataLinesIn c) (samples_dataLinesIn c) s

theorem holdsCycles_hold (t : Nat) (s : State) : HoldsCycles (eventsOf s (hold t)) [] :=
  holdsCycles_quiet (drivesEnable_of_untouched (untouched_hold t)) (samples_hold t) s

theorem holdsCycles_readEntry (c : Cfg) (s : State) : HoldsCycles (eventsOf s (readEntry c)) [] := by
  refine holdsCycles_quiet ?_ (samples_readEntry c) s
  exact List.forall_mem_cons.mpr ⟨rfl, List.forall_mem_append.mpr ⟨drivesEnable_dataLinesIn c,
    by simp [Stmt.drivesEnable]⟩⟩

/-! ### Reading -/

section
variable {s : State} {acc hi : Byte} {rbuf : List Byte}

/-- A read cycle samples the lines in order and gathers their levels into the accumulator (R76, R77). -/
theorem readCycle_gathers (h : s.Locals acc hi rbuf) (c : Cfg) (n : Nat) :
    ∃ levels : List Level, levels.length = n ∧
      HoldsCycles (eventsOf s (readCycle c n)) [lineSamples levels] ∧
      (runStmts s (readCycle c n)).Locals (gather 0#8 0 levels) hi rbuf := by
  let s₁ := runStmt s (.drive .e .high)
  let s₂ := runStmts s₁ (hold c.tRdEh)
  let s₃ := runStmts s₂ (get n)
  have hlocals : s₂.Locals acc hi rbuf :=
    (h.unassigned (l := [.drive .e .high]) (by simp [Stmt.assigns])).unassigned (unassigned_hold _)
  obtain ⟨levels, hlen, -, hsamples, hget⟩ := get_gathers hlocals n
  have hrun : runStmts s (readCycle c n) = runStmts (runStmt s₃ (.drive .e .low)) (hold c.tRdEl) := by
    rw [readCycle, runStmts_append, List.cons_append, runStmts_cons, runStmts_cons, runStmts_append]
  have hevents : eventsOf s (readCycle c n) =
      (⟨s.now, .drive .e .high⟩ :: (eventsOf s₁ (hold c.tRdEh) ++ eventsOf s₂ (get n)) ++
        [⟨s₃.now, .drive .e .low⟩]) ++ eventsOf (runStmt s₃ (.drive .e .low)) (hold c.tRdEl) := by
    rw [readCycle, eventsOf_append, List.cons_append, eventsOf_cons, eventsOf_append, runStmts_cons, runStmts_append,
      eventsOf_cons, List.append_assoc _ [_]]
    rfl
  have hquiet : ∀ ev ∈ eventsOf s₁ (hold c.tRdEh) ++ eventsOf s₂ (get n), ev.kind.drivesEnable = false :=
    List.forall_mem_append.mpr ⟨drivesEnable_eventsOf (drivesEnable_of_untouched (untouched_hold _)) _,
      drivesEnable_eventsOf (drivesEnable_of_untouched (untouched_get n)) _⟩
  have hstrobe := holdsCycles_strobe hquiet s.now s₃.now
  rw [samplesOf_append, (holdsCycles_hold c.tRdEh s₁).samples, hsamples] at hstrobe
  refine ⟨levels, hlen, ?_, ?_⟩
  · rw [hevents]
    exact hstrobe.append (holdsCycles_hold _ _)
  · rw [hrun]
    exact (hget.unassigned (l := [.drive .e .low]) (by simp [Stmt.assigns])).unassigned (unassigned_hold _)

/-- READUNIT assembles a byte from the levels of its one cycle in Eight mode, of its two in Four mode (R76, R77). -/
theorem readUnit_assembles {c : Cfg} (hn : c.n = c.width.lines) (h : s.Locals acc hi rbuf) :
    ∃ (us : List (List Level)) (v : Byte), (∀ levels ∈ us, levels.length = c.n) ∧
      HoldsCycles (eventsOf s (readUnitStmts c)) (us.map lineSamples) ∧
      decodeUnits c.width (us.map (gather 0#8 0)) = some v ∧
      ∃ acc' hi', (runStmts s (readUnitStmts c)).Locals acc' hi' (rbuf ++ [v]) := by
  unfold readUnitStmts
  cases hw : c.width with
  | eight =>
    obtain ⟨levels, hlen, hcycle, hlocals⟩ := readCycle_gathers h c 8
    refine ⟨[levels], _, ?_, ?_, rfl, ?_⟩
    · simpa [hn, hw, LineWidth.lines] using hlen
    · rw [eventsOf_append]
      exact hcycle.append (holdsCycles_quiet (l := [.storeByte]) (by simp [Stmt.drivesEnable])
        (by simp [Stmt.samples]) _)
    · rw [runStmts_append]
      exact ⟨_, _, hlocals.storeByte⟩
  | four =>
    obtain ⟨high, hhigh, hcycle, hlocals⟩ := readCycle_gathers h c 4
    obtain ⟨low, hlow, hcycle', hlocals'⟩ := readCycle_gathers hlocals.saveHi c 4
    refine ⟨[high, low], _, ?_, ?_, rfl, ?_⟩
    · simpa [hn, hw, LineWidth.lines] using ⟨hhigh, hlow⟩
    · rw [eventsOf_append, eventsOf_append]
      have hstore := holdsCycles_quiet (l := [.storeNibbles]) (by simp [Stmt.drivesEnable]) (by simp [Stmt.samples])
      exact (hcycle.append hcycle').append (hstore _)
    · rw [runStmts_append, runStmts_append, runStmts_cons _ .saveHi]
      exact ⟨_, _, hlocals'.storeNibbles⟩

end

/-- The bytes that READ assembles, each from the levels of its own read cycles, in order (R75, R94). -/
inductive Assembles (w : LineWidth) : List (List Level) → List Byte → Prop where
  | nil : Assembles w [] []
  | cons {us ls : List (List Level)} {v : Byte} {bs : List Byte}
      (hunits : decodeUnits w (us.map (gather 0#8 0)) = some v) (hrest : Assembles w ls bs) :
      Assembles w (us ++ ls) (v :: bs)

theorem readUnits_assemble {c : Cfg} (hn : c.n = c.width.lines) (n : Nat) {s : State} {acc hi : Byte}
    {rbuf : List Byte} (h : s.Locals acc hi rbuf) :
    ∃ (cycles : List (List Level)) (bytes : List Byte), (∀ levels ∈ cycles, levels.length = c.n) ∧
      bytes.length = n ∧ Assembles c.width cycles bytes ∧
      HoldsCycles (eventsOf s (List.replicate n (readUnitStmts c)).flatten) (cycles.map lineSamples) ∧
      ∃ acc' hi', (runStmts s (List.replicate n (readUnitStmts c)).flatten).Locals acc' hi' (rbuf ++ bytes) := by
  induction n generalizing s acc hi rbuf with
  | zero => exact ⟨[], [], by simp, rfl, .nil, ⟨rfl, fun _ => rfl⟩, acc, hi, by simpa using h⟩
  | succ n ih =>
    obtain ⟨us, v, hlens, hunit, hbyte, acc', hi', hlocals⟩ := readUnit_assembles hn h
    obtain ⟨cycles, bytes, hlens', hlen, hassembles, hcycles, hlocals'⟩ := ih hlocals
    refine ⟨us ++ cycles, v :: bytes, List.forall_mem_append.mpr ⟨hlens, hlens'⟩, by simp [hlen],
      .cons hbyte hassembles, ?_, ?_⟩
    · rw [List.replicate_succ, List.flatten_cons, eventsOf_append, List.map_append]
      exact hunit.append hcycles
    · rw [List.replicate_succ, List.flatten_cons, runStmts_append, List.append_cons]
      exact hlocals'

/-! ### The assembled bytes, bit by bit -/

/-- In Eight mode byte `k` is gathered from cycle `k` (R76). -/
theorem Assembles.eight {cycles : List (List Level)} {bytes : List Byte} (h : Assembles .eight cycles bytes) :
    cycles.length = bytes.length ∧ ∀ k < bytes.length, ∃ levels, cycles[k]? = some levels ∧
      bytes[k]? = some (gather 0#8 0 levels) := by
  induction h with
  | nil => exact ⟨rfl, by simp⟩
  | @cons us ls v bs hunits hrest ih =>
    obtain ⟨hlen, hbytes⟩ := ih
    match us, hunits with
    | [levels], hunits =>
      obtain rfl := Option.some.inj hunits
      refine ⟨by simp [hlen], fun k hk => ?_⟩
      cases k with
      | zero => exact ⟨levels, rfl, rfl⟩
      | succ k => exact hbytes k (by simpa using hk)

/-- In Four mode byte `k` is assembled from cycles `2k` and `2k + 1` (R77). -/
theorem Assembles.four {cycles : List (List Level)} {bytes : List Byte} (h : Assembles .four cycles bytes) :
    cycles.length = 2 * bytes.length ∧ ∀ k < bytes.length, ∃ high low, cycles[2 * k]? = some high ∧
      cycles[2 * k + 1]? = some low ∧ bytes[k]? = some (assemble (gather 0#8 0 high) (gather 0#8 0 low)) := by
  induction h with
  | nil => exact ⟨rfl, by simp⟩
  | @cons us ls v bs hunits hrest ih =>
    obtain ⟨hlen, hbytes⟩ := ih
    match us, hunits with
    | [high, low], hunits =>
      obtain rfl := Option.some.inj hunits
      refine ⟨by simp [hlen]; omega, fun k hk => ?_⟩
      cases k with
      | zero => exact ⟨high, low, rfl, rfl, rfl⟩
      | succ k => exact hbytes k (by simpa using hk)

/-- In Four mode bits 7 to 4 are the levels of the first cycle, bits 3 to 0 those of the second (R92). -/
theorem assemble_gather_bit {high low : List Level} (hhigh : high.length = 4) (hlow : low.length = 4) {i : Nat}
    (hi : i < 8) : (assemble (gather 0#8 0 high) (gather 0#8 0 low)).getLsbD i = true ↔
      (if 4 ≤ i then high else low)[i % 4]? = some .high := by
  have hlow_bits : ∀ j, 4 ≤ j → (gather 0#8 0 low).getLsbD j = false := fun j hj => by
    rw [← Bool.not_eq_true, gather_zero_bit (by omega), List.getElem?_eq_none (by omega)]
    simp
  rw [assemble_bit _ _ i hi hlow_bits]
  by_cases h4 : 4 ≤ i
  · rw [if_pos h4, if_pos h4, gather_zero_bit (by omega), show i % 4 = i - 4 by omega]
  · rw [if_neg h4, if_neg h4, gather_zero_bit (by omega), show i % 4 = i by omega]

/-- The bits of the bytes assembled in Eight mode, in the samples of their cycles (30_encoding R57). -/
theorem Assembles.eight_bit {cycles : List (List Level)} {bytes : List Byte} (h : Assembles .eight cycles bytes)
    (hlens : ∀ levels ∈ cycles, levels.length = 8) {k : Nat} (hk : k < bytes.length) (i : Nat) :
    ∃ v, bytes[k]? = some v ∧ (v.getLsbD i = true ↔
      (cycles.map lineSamples)[k]?.bind (fun cycle => cycle[i]?) = some (.d i, .high)) := by
  obtain ⟨-, hbytes⟩ := h.eight
  obtain ⟨levels, hcycle, hbyte⟩ := hbytes k hk
  have hlen := hlens levels (List.mem_of_getElem? hcycle)
  refine ⟨_, hbyte, ?_⟩
  rw [gather_zero_bit hlen.le, List.getElem?_map, hcycle]
  exact (lineSamples_getElem?_eq_high levels i).symm

/-- The same in Four mode. -/
theorem Assembles.four_bit {cycles : List (List Level)} {bytes : List Byte} (h : Assembles .four cycles bytes)
    (hlens : ∀ levels ∈ cycles, levels.length = 4) {k i : Nat} (hk : k < bytes.length) (hi : i < 8) :
    ∃ v, bytes[k]? = some v ∧ (v.getLsbD i = true ↔
      (cycles.map lineSamples)[if 4 ≤ i then 2 * k else 2 * k + 1]?.bind (fun cycle => cycle[i % 4]?) =
        some (.d (i % 4), .high)) := by
  obtain ⟨-, hbytes⟩ := h.four
  obtain ⟨high, low, hfirst, hsecond, hbyte⟩ := hbytes k hk
  have hhigh := hlens high (List.mem_of_getElem? hfirst)
  have hlow := hlens low (List.mem_of_getElem? hsecond)
  have hcycle : cycles[if 4 ≤ i then 2 * k else 2 * k + 1]? = some (if 4 ≤ i then high else low) := by
    split
    · exact hfirst
    · exact hsecond
  refine ⟨_, hbyte, ?_⟩
  rw [assemble_gather_bit hhigh hlow hi, List.getElem?_map, hcycle]
  exact (lineSamples_getElem?_eq_high _ _).symm

/-! ### The whole request -/

/-- READ of some bytes holds the read cycles of its READUNITs alone, and answers the bytes they assemble (R75). -/
theorem read_assembles {s : State} (hs : s.Ready) (n : Nat) :
    ∃ (evs : List Event) (cycles : List (List Level)),
      (perform (.read (n + 1)) s).trace = s.trace ++ evs ∧ (∀ levels ∈ cycles, levels.length = s.cfg.n) ∧
      HoldsCycles evs (cycles.map lineSamples) ∧ (perform (.read (n + 1)) s).result.rbuf.length = n + 1 ∧
      Assembles s.cfg.width cycles (perform (.read (n + 1)) s).result.rbuf := by
  obtain ⟨t, count, status, htrace⟩ := perform_events (i := .read (n + 1)) hs.idle
  obtain ⟨a, hbusy, hresult⟩ := perform_result (.read (n + 1)) s hs.idle
  have hentry : (runStmts (s.accept (.read (n + 1))) (readEntry s.cfg)).Locals 0#8 0#8 [] :=
    State.Locals.unassigned ⟨.read (n + 1), 0, accept_seq _ _⟩ (unassigned_readEntry s.cfg)
  obtain ⟨cycles, bytes, hlens, hlen, hassembles, hcycles, acc, hi, hlocals⟩ :=
    readUnits_assemble (Cfg.wf_n hs.cfgWf) (n + 1) hentry
  obtain ⟨req, pos, hbusy'⟩ := hlocals.unassigned (unassigned_dataLinesIn s.cfg)
  rw [stmtsOf, readStmts_succ, runStmts_append, runStmts_append, hbusy'] at hbusy
  have hbytes : (perform (.read (n + 1)) s).result.rbuf = bytes := by
    rw [hresult, ← Seq.busy.inj hbusy]; rfl
  rw [hbytes]
  refine ⟨_, cycles, htrace, hlens, ?_, hlen, hassembles⟩
  rw [stmtsOf, readStmts_succ, eventsOf_append, eventsOf_append, List.cons_append, ← List.singleton_append]
  have hbegin : HoldsCycles [(⟨s.now, .beginReq (encodeDesc s.cfg (.read (n + 1)))⟩ : Event)] [] :=
    holdsCycles_nil (by simp [EventKind.drivesEnable]) (by simp [EventKind.isSample])
  have hend : HoldsCycles [(⟨t, .endReq count status⟩ : Event)] [] :=
    holdsCycles_nil (by simp [EventKind.drivesEnable]) (by simp [EventKind.isSample])
  simpa using hbegin.append (((holdsCycles_readEntry s.cfg _).append
    (hcycles.append (holdsCycles_dataLinesIn s.cfg _))).append hend)

/-- Settles O31: the read cycles are those of READ's READUNITs, and each byte of the answer is assembled from its
own. -/
theorem readAssemblesTheSampledLevels : Obligations.ReadAssemblesTheSampledLevels := by
  intro s n hs hpos
  obtain ⟨m, rfl⟩ := Nat.exists_eq_succ_of_ne_zero hpos.ne'
  obtain ⟨evs, cycles, htrace, hlens, hcycles, hlen, hassembles⟩ := read_assembles hs m
  refine ⟨_, evs, rfl, htrace, ?_⟩
  rw [hcycles.cycleSamples_eq, List.length_map]
  have hlines : ∀ cycle ∈ cycles.map lineSamples, cycle.map Prod.fst = (List.range s.cfg.n).map .d :=
    List.forall_mem_map.mpr fun levels hlevels => by rw [lineSamples_lines, hlens levels hlevels]
  cases hw : s.cfg.width with
  | eight =>
    rw [Cfg.wf_eight hs.cfgWf hw] at hlens
    rw [hw] at hassembles
    exact ⟨hcycles.samples, hassembles.eight.1.trans hlen, hlines, hlen,
      fun k hk i _ => hassembles.eight_bit hlens (hk.trans_eq hlen.symm) i⟩
  | four =>
    rw [Cfg.wf_four hs.cfgWf hw] at hlens
    rw [hw] at hassembles
    exact ⟨hcycles.samples, hassembles.four.1.trans (congrArg (2 * ·) hlen), hlines, hlen,
      fun k hk i hi => hassembles.four_bit hlens (hk.trans_eq hlen.symm) hi⟩

end Sys2Proof.Machine
end

section
/-! PROOFS. The bus transport family (40_bus_transport R73 to R77): the calls of every request in order. -/

namespace Sys2Proof.Machine

/-! ### The calls of a list of statements -/

/-- The call a statement issues, without sampled level and elapsed time; a tap is none (20_memory R36 to R40). -/
def Stmt.call : Stmt → Option EventKind
  | .tap _ _ => none
  | st => st.shape

theorem Stmt.filter_shape (st : Stmt) : (st.shape.filter fun k => !k.isTap) = st.call := by cases st <;> rfl

/-- The calls of a list of statements, a function of the statements alone (10_state R24). -/
def callsOf (l : List Stmt) : List EventKind := l.filterMap Stmt.call

@[simp] theorem callsOf_nil : callsOf [] = [] := rfl

theorem callsOf_cons (st : Stmt) (l : List Stmt) : callsOf (st :: l) = st.call.toList ++ callsOf l := by
  rw [callsOf, List.filterMap_cons]
  cases st.call <;> rfl

@[simp] theorem callsOf_append (l m : List Stmt) : callsOf (l ++ m) = callsOf l ++ callsOf m :=
  List.filterMap_append

@[simp] theorem callsOf_flatMap (f : Byte → List Stmt) (p : List Byte) :
    callsOf (p.flatMap f) = p.flatMap fun v => callsOf (f v) := List.filterMap_flatMap

@[simp] theorem callsOf_replicate (k : Nat) (l : List Stmt) :
    callsOf (List.replicate k l).flatten = (List.replicate k (callsOf l)).flatten := by
  rw [callsOf, List.filterMap_flatten, List.map_replicate]; rfl

theorem callsOf_map {f : Nat → Stmt} {g : Nat → EventKind} (h : ∀ i, (f i).call = some (g i)) (l : List Nat) :
    callsOf (l.map f) = l.map g := by
  simp [callsOf, List.filterMap_map, h]

/-! ### The calls of the internal operations -/

@[simp] theorem callsOf_pulse (c : Cfg) : callsOf (pulse c) = pulseCalls c := rfl

@[simp] theorem callsOf_put (v : Byte) (n : Nat) : callsOf (put v n) = putCalls v n :=
  callsOf_map (fun _ => rfl) _

@[simp] theorem callsOf_tapIfAll (c : Cfg) (v : Byte) (w : Nat) : callsOf (tapIfAll c v w) = [] := by
  unfold tapIfAll; split <;> rfl

@[simp] theorem callsOf_hold (t : Nat) : callsOf (hold t) = holdCalls t := by
  cases t <;> rfl

@[simp] theorem callsOf_get (n : Nat) :
    callsOf (get n) = (List.range n).map fun i => .sample (.d i) .low :=
  callsOf_map (fun _ => rfl) _

@[simp] theorem callsOf_dataLinesIn (c : Cfg) :
    callsOf (dataLinesIn c) = (List.range c.n).map fun i => .cfgIn (.d i) :=
  callsOf_map (fun _ => rfl) _

@[simp] theorem callsOf_readCycle (c : Cfg) (n : Nat) : callsOf (readCycle c n) = readCycleCalls c n := by
  simp [readCycle, readCycleCalls, callsOf_cons, Stmt.call, Stmt.shape]

/-! ### The calls of the four operations -/

/-- A PUT and a PULSE, the calls by which a unit is sent (40_bus_transport R73, R74). -/
def unitCalls (c : Cfg) (n : Nat) (u : Byte) : List EventKind := putCalls u n ++ pulseCalls c

/-- A byte of WRITE is sent as its units, each on as many lines as the width has (42_transcoding R93). -/
theorem callsOf_writeByte (c : Cfg) (v : Byte) :
    callsOf (writeByteStmts c v) = (units c.width v).flatMap (unitCalls c c.width.lines) := by
  unfold writeByteStmts
  cases c.width with
  | eight => simp [units, unitCalls, LineWidth.lines]
  | four => simp [units, unitCalls, LineWidth.lines, callsOf_cons, Stmt.call]

theorem callsOf_write (c : Cfg) (p : List Byte) : callsOf (writeStmts c p) =
    .drive .rw c.rwWriteLevel :: (p.flatMap (units c.width)).flatMap (unitCalls c c.width.lines) := by
  rw [writeStmts, callsOf_cons, callsOf_flatMap, List.flatMap_assoc]
  simp only [callsOf_writeByte]
  rfl

/-- WRNIB drives an element's bits 3 to 0, whatever the others are (30_encoding R66). -/
theorem putCalls_loNibble (v : Byte) : putCalls (loNibble v) 4 = putCalls v 4 :=
  List.map_congr_left fun i hi => by rw [loNibble_bit v (List.mem_range.mp hi)]

theorem callsOf_wrnibElem (c : Cfg) (v : Byte) : callsOf (wrnibElemStmts c v) = unitCalls c 4 v := by
  simp [wrnibElemStmts, unitCalls, putCalls_loNibble]

theorem callsOf_wrnib (c : Cfg) (p : List Byte) : callsOf (wrnibStmts c p) =
    (if c.wnDrivesRw = true then [.drive .rw c.rwWriteLevel] else []) ++ p.flatMap (unitCalls c 4) ++
      pulseCalls c := by
  have hdrive : callsOf (if c.wnDrivesRw then [.drive .rw c.rwWriteLevel] else []) =
      if c.wnDrivesRw = true then [.drive .rw c.rwWriteLevel] else [] := by split <;> rfl
  rw [wrnibStmts, callsOf_append, callsOf_append, hdrive, callsOf_flatMap, callsOf_pulse]
  simp only [callsOf_wrnibElem]

/-- How many read cycles READ makes for `n` bytes (R76, R77). -/
def readCycles (w : LineWidth) (n : Nat) : Nat := match w with
  | .eight => n
  | .four => 2 * n

theorem replicate_pair_flatten {α : Type} (l : List α) (n : Nat) :
    (List.replicate n (l ++ l)).flatten = (List.replicate (2 * n) l).flatten := by
  induction n with
  | zero => rfl
  | succ n ih =>
    rw [Nat.mul_succ, List.replicate_succ, List.replicate_succ, List.replicate_succ]
    simp only [List.flatten_cons, ih, List.append_assoc]

/-- The READUNITs of `n` bytes are one read cycle after another (R76, R77). -/
theorem callsOf_readUnits (c : Cfg) (n : Nat) : callsOf (List.replicate n (readUnitStmts c)).flatten =
    (List.replicate (readCycles c.width n) (readCycleCalls c c.width.lines)).flatten := by
  rw [callsOf_replicate]
  unfold readUnitStmts readCycles
  cases c.width with
  | eight => simp [LineWidth.lines, callsOf_cons, Stmt.call, Stmt.shape]
  | four =>
    rw [← replicate_pair_flatten]
    simp [LineWidth.lines, callsOf_cons, Stmt.call, Stmt.shape]

theorem callsOf_read {c : Cfg} (hn : c.n = c.width.lines) (n : Nat) : callsOf (readStmts c (n + 1)) =
    .drive .rw c.rwReadLevel :: (List.range c.n).map (fun i => .cfgIn (.d i)) ++
      (List.replicate (readCycles c.width (n + 1)) (readCycleCalls c c.n)).flatten ++
      (List.range c.n).map fun i => .cfgIn (.d i) := by
  have hentry : callsOf (readEntry c) = .drive .rw c.rwReadLevel :: (List.range c.n).map (fun i => .cfgIn (.d i)) := by
    simp [readEntry, callsOf_cons, Stmt.call, Stmt.shape]
  rw [readStmts_succ, callsOf_append, callsOf_append, hentry, callsOf_readUnits, ← hn, callsOf_dataLinesIn,
    List.append_assoc]

/-! ### The calls of a request -/

/-- The events of a request but for taps, elapsed times and sampled levels (10_state R24). -/
def requestCalls (c : Cfg) (i : Instr) : List EventKind := (requestShapes c i).filter fun k => !k.isTap

theorem callShapes_eq_filter (evs : List Event) :
    callShapes evs = (evs.map fun ev => ev.kind.shape).filter fun k => !k.isTap := by
  simp [callShapes, List.filter_map, Function.comp_def]

theorem exec_calls {s : State} (hidle : s.seq = .idle) (i : Instr) : ∃ t evs, exec i s = .next t ∧
    t.trace = s.trace ++ evs ∧ callShapes evs = requestCalls s.cfg i := by
  obtain ⟨t, evs, hexec, htrace, hshapes⟩ := exec_shapes hidle i
  exact ⟨t, evs, hexec, htrace, by rw [callShapes_eq_filter, hshapes, requestCalls]⟩

/-- A request that runs issues its statements' calls between `Begin` and `End` (40_bus_transport R71). -/
theorem requestCalls_of_runs {c : Cfg} {i : Instr} (h : requestRuns c i = true) : requestCalls c i =
    .beginReq (encodeDesc c i) :: callsOf (stmtsOf c i) ++ [.endReq (resultOf [] i).count (resultOf [] i).status] := by
  rw [requestCalls, requestShapes, if_pos h, List.filter_cons_of_pos rfl, List.filter_append, List.filter_filterMap]
  simp only [Stmt.filter_shape]
  rfl

/-- A request that does not run is refused without a call (60_exceptions R100). -/
theorem requestCalls_of_not_runs {c : Cfg} {i : Instr} (h : requestRuns c i = false) :
    requestCalls c i = [.beginReq (encodeDesc c i), .endReq 0 (.refused .wrnibEightMode)] := by
  rw [requestCalls, requestShapes, h]
  rfl

theorem requestCalls_write {c : Cfg} (hn : c.n = c.width.lines) (p : List Byte) : requestCalls c (.write p) =
    [.beginReq (encodeDesc c (.write p)), .drive .rw c.rwWriteLevel] ++
      (p.flatMap (units c.width)).flatMap (unitCalls c c.n) ++ [.endReq p.length .ok] := by
  rw [requestCalls_of_runs rfl, stmtsOf, callsOf_write, ← hn]
  rfl

theorem requestCalls_wrnib {c : Cfg} (hfour : c.width = .four) (p : List Byte) : requestCalls c (.wrnib p) =
    [.beginReq (encodeDesc c (.wrnib p))] ++
      (if c.wnDrivesRw = true then [.drive .rw c.rwWriteLevel] else []) ++
      p.flatMap (unitCalls c 4) ++ pulseCalls c ++ [.endReq p.length .ok] := by
  have hruns : requestRuns c (.wrnib p) = true := beq_iff_eq.mpr hfour
  rw [requestCalls_of_runs hruns, stmtsOf, callsOf_wrnib]
  simp only [List.cons_append, List.append_assoc]
  rfl

theorem requestCalls_read {c : Cfg} (hn : c.n = c.width.lines) (n : Nat) : requestCalls c (.read (n + 1)) =
    [.beginReq (encodeDesc c (.read (n + 1))), .drive .rw c.rwReadLevel] ++
      (List.range c.n).map (fun i => .cfgIn (.d i)) ++
      (List.replicate (readCycles c.width (n + 1)) (readCycleCalls c c.n)).flatten ++
      (List.range c.n).map (fun i => .cfgIn (.d i)) ++ [.endReq (n + 1) .ok] := by
  rw [requestCalls_of_runs rfl, stmtsOf, callsOf_read hn]
  rfl

/-- Settles O53: each byte's units are put and pulsed on all the lines. -/
theorem writeIssuesItsCallsInOrder : Obligations.WriteIssuesItsCallsInOrder := by
  intro s p hs
  obtain ⟨t, evs, hexec, htrace, hcalls⟩ := exec_calls hs.idle (.write p)
  exact ⟨t, evs, hexec, htrace, hcalls.trans (requestCalls_write (Cfg.wf_n hs.cfgWf) p)⟩

/-- Settles O54: each element's low nibble is put and pulsed on the four lines. -/
theorem wrnibIssuesItsCallsInOrder : Obligations.WrnibIssuesItsCallsInOrder := by
  intro s p hs hfour
  obtain ⟨t, evs, hexec, htrace, hcalls⟩ := exec_calls hs.idle (.wrnib p)
  exact ⟨t, evs, hexec, htrace, hcalls.trans (requestCalls_wrnib hfour p)⟩

/-- Settles O55: between the two loops over the data lines READ makes its read cycles, one after another. -/
theorem readIssuesItsCallsInOrder : Obligations.ReadIssuesItsCallsInOrder := by
  intro s n hs hpos
  obtain ⟨m, rfl⟩ := Nat.exists_eq_succ_of_ne_zero hpos.ne'
  obtain ⟨t, evs, hexec, htrace, hcalls⟩ := exec_calls hs.idle (.read (m + 1))
  exact ⟨t, evs, hexec, htrace, hcalls.trans (requestCalls_read (Cfg.wf_n hs.cfgWf) m)⟩

end Sys2Proof.Machine
end

section
/-! PROOFS. The bus transport family (40_bus_transport R82, 70_reset_and_hazards R136): how many calls of each kind a
request issues. -/

namespace Sys2Proof.Machine

/-! ### Counting calls -/

/-- The kinds counted: all calls (R136), then R82's seven. -/
def countedKinds : List (EventKind → Bool) :=
  [EventKind.isCall, EventKind.drivesData, EventKind.drivesEnable, EventKind.drivesSelect, EventKind.isSleep,
   EventKind.isSample, EventKind.isCfgIn, fun k => k = .drive .e .high]

/-- How many calls of a list are of each counted kind. -/
def kindCounts (ks : List EventKind) : List Nat := countedKinds.map ks.countP

/-- A counted kind tells neither sampled levels nor elapsed times apart, and holds of no tap. -/
theorem countedKinds_shape {p : EventKind → Bool} (hp : p ∈ countedKinds) :
    (∀ k, p k.shape = p k) ∧ ∀ k, p k = true → (!k.isTap) = true := by
  simp only [countedKinds, List.mem_cons, List.not_mem_nil, or_false] at hp
  rcases hp with rfl | rfl | rfl | rfl | rfl | rfl | rfl | rfl
  all_goals
    refine ⟨fun k => by cases k <;> rfl, fun k hk => ?_⟩
    cases k with
    | tap v w => cases hk
    | _ => rfl

/-- The counts of events are those of their calls. -/
theorem counts_eq_kindCounts (evs : List Event) :
    countKind EventKind.isCall evs :: eventCounts evs = kindCounts (callShapes evs) := by
  refine List.map_congr_left (l := countedKinds) (f := fun p => countKind p evs) fun p hp => ?_
  obtain ⟨hshape, htap⟩ := countedKinds_shape hp
  rw [callShapes, List.countP_map, List.countP_filter, countKind]
  refine List.countP_congr fun ev _ => ?_
  simpa [hshape] using htap ev.kind

theorem kindCounts_append (a b : List EventKind) :
    kindCounts (a ++ b) = List.zipWith (· + ·) (kindCounts a) (kindCounts b) := by simp [kindCounts, countedKinds]

theorem kindCounts_replicate (k : Nat) (ks : List EventKind) :
    kindCounts (List.replicate k ks).flatten = (kindCounts ks).map (k * ·) := by
  simp [kindCounts, countedKinds, List.countP_flatten]

/-- Pieces with the same counts, one for each element of a list. -/
theorem kindCounts_flatMap {α : Type} [Inhabited α] {f : α → List EventKind} {m : List Nat}
    (h : ∀ x, kindCounts (f x) = m) (l : List α) : kindCounts (l.flatMap f) = m.map (l.length * ·) := by
  obtain rfl := h default
  rw [← kindCounts_replicate]
  induction l with
  | nil => rfl
  | cons x l ih =>
    rw [List.flatMap_cons, List.length_cons, List.replicate_succ, List.flatten_cons, kindCounts_append, h, ih,
      kindCounts_append]

/-- The same call on each of `n` data lines. -/
theorem kindCounts_dataLines {f : Nat → EventKind} {m : List Nat} (n : Nat) (h : ∀ i, kindCounts [f i] = m) :
    kindCounts ((List.range n).map f) = m.map (n * ·) := by
  rw [List.map_eq_flatMap, kindCounts_flatMap h, List.length_range]

/-! ### The counts of the pieces -/

theorem kindCounts_put (v : Byte) (n : Nat) : kindCounts (putCalls v n) = [n, n, 0, 0, 0, 0, 0, 0] := by
  rw [putCalls, kindCounts_dataLines (m := [1, 1, 0, 0, 0, 0, 0, 0]) n fun _ => rfl]
  simp

theorem kindCounts_samples (n : Nat) :
    kindCounts ((List.range n).map fun i => .sample (.d i) .low) = [n, 0, 0, 0, 0, n, 0, 0] := by
  rw [kindCounts_dataLines (m := [1, 0, 0, 0, 0, 1, 0, 0]) n fun _ => rfl]
  simp

theorem kindCounts_cfgIns (n : Nat) :
    kindCounts ((List.range n).map fun i => .cfgIn (.d i)) = [n, 0, 0, 0, 0, 0, n, 0] := by
  rw [kindCounts_dataLines (m := [1, 0, 0, 0, 0, 0, 1, 0]) n fun _ => rfl]
  simp

theorem kindCounts_unit (c : Cfg) (n : Nat) (u : Byte) :
    kindCounts (unitCalls c n u) = [n + 6, n, 3, 0, 3, 0, 0, 1] := by
  rw [unitCalls, kindCounts_append, kindCounts_put]
  rfl

theorem kindCounts_units (c : Cfg) (n : Nat) (us : List Byte) : kindCounts (us.flatMap (unitCalls c n)) =
    [us.length * (n + 6), us.length * n, us.length * 3, 0, us.length * 3, 0, 0, us.length] := by
  rw [kindCounts_flatMap (kindCounts_unit c n)]
  simp

/-- How many holds a read cycle has: those that are not 0 (R76, R77). -/
def holdCount (c : Cfg) : Nat := (if c.tRdEh = 0 then 0 else 1) + (if c.tRdEl = 0 then 0 else 1)

theorem kindCounts_hold (t : Nat) :
    kindCounts (holdCalls t) = [if t = 0 then 0 else 1, 0, 0, 0, if t = 0 then 0 else 1, 0, 0, 0] := by
  unfold holdCalls; split <;> rfl

theorem kindCounts_readCycle (c : Cfg) (n : Nat) : kindCounts (readCycleCalls c n) =
    [n + 2 + holdCount c, 0, 2, 0, holdCount c, n, 0, 1] := by
  have hrise : kindCounts [.drive .e .high] = [1, 0, 1, 0, 0, 0, 0, 1] := rfl
  have hfall : kindCounts [.drive .e .low] = [1, 0, 1, 0, 0, 0, 0, 0] := rfl
  rw [readCycleCalls, ← List.singleton_append, List.append_cons, kindCounts_append, kindCounts_append,
    kindCounts_append, kindCounts_append, kindCounts_hold, kindCounts_hold, kindCounts_samples, hrise, hfall]
  simp [holdCount]
  omega

/-! ### The counts of a request -/

theorem kindCounts_begin (q : Desc) (lvl : Level) :
    kindCounts [.beginReq q, .drive .rw lvl] = [1, 0, 0, 1, 0, 0, 0, 0] := rfl

theorem kindCounts_end (n : Nat) (st : Status) : kindCounts [.endReq n st] = [0, 0, 0, 0, 0, 0, 0, 0] := rfl

/-- A WRITE whose bytes are `k` units. -/
theorem kindCounts_write {c : Cfg} (hn : c.n = c.width.lines) (p : List Byte) {k : Nat}
    (hk : (p.flatMap (units c.width)).length = k) :
    kindCounts (requestCalls c (.write p)) = [1 + k * (c.n + 6), k * c.n, k * 3, 1, k * 3, 0, 0, k] := by
  rw [requestCalls_write hn, kindCounts_append, kindCounts_append, kindCounts_begin, kindCounts_units,
    kindCounts_end, hk]
  simp

theorem kindCounts_wrnib {c : Cfg} (hfour : c.width = .four) (p : List Byte) {d : Nat}
    (hd : (if c.wnDrivesRw = true then 1 else 0) = d) : kindCounts (requestCalls c (.wrnib p)) =
      [d + p.length * 10 + 6, p.length * 4, p.length * 3 + 3, d, p.length * 3 + 3, 0, 0, p.length + 1] := by
  have hbegin (q : Desc) : kindCounts [.beginReq q] = [0, 0, 0, 0, 0, 0, 0, 0] := rfl
  have hpulse : kindCounts (pulseCalls c) = [6, 0, 3, 0, 3, 0, 0, 1] := rfl
  have hdrive : kindCounts (if c.wnDrivesRw = true then [.drive .rw c.rwWriteLevel] else []) =
      [d, 0, 0, d, 0, 0, 0, 0] := by
    rw [← hd]; split <;> rfl
  rw [requestCalls_wrnib hfour, kindCounts_append, kindCounts_append, kindCounts_append, kindCounts_append,
    hbegin, hdrive, kindCounts_units, hpulse, kindCounts_end]
  simp

/-- A READ of a positive length that makes `k` read cycles. -/
theorem kindCounts_read {c : Cfg} (hn : c.n = c.width.lines) (n : Nat) {k : Nat} (hk : readCycles c.width (n + 1) = k) :
    kindCounts (requestCalls c (.read (n + 1))) = [1 + c.n + k * (c.n + 2 + holdCount c) + c.n, 0, k * 2, 1,
      k * holdCount c, k * c.n, c.n + c.n, k] := by
  rw [requestCalls_read hn, kindCounts_append, kindCounts_append, kindCounts_append, kindCounts_append,
    kindCounts_begin, kindCounts_cfgIns, kindCounts_replicate, kindCounts_readCycle, kindCounts_end, hk]
  simp

/-- A byte is one unit in Eight mode and two in Four mode (42_transcoding R93). -/
theorem flatMap_units_length (w : LineWidth) (p : List Byte) : (p.flatMap (units w)).length =
    match w with
    | .eight => p.length
    | .four => 2 * p.length := by
  cases w <;> simp [List.length_flatMap, units, Nat.mul_comm]

/-- Settles O39: the events are counted among the request's calls, and these piece by piece. -/
theorem eventCountsPerRequest : Obligations.EventCountsPerRequest := by
  intro s i holds hs hholds
  have hholds : holds = holdCount s.cfg := hholds
  have hn := Cfg.wf_n hs.cfgWf
  obtain ⟨t, evs, hexec, htrace, hcalls⟩ := exec_calls hs.idle i
  have hcounts {total : Nat} {table : List Nat} (h : kindCounts (requestCalls s.cfg i) = total :: table) :
      countKind EventKind.isCall evs = total ∧ eventCounts evs = table :=
    List.cons.inj ((counts_eq_kindCounts evs).trans (hcalls ▸ h))
  refine ⟨t, evs, hexec, htrace, ?_⟩
  cases i with
  | setmode b => exact ⟨(hcounts rfl).2, fun p hp => nomatch hp⟩
  | write p =>
    obtain ⟨htotal, htable⟩ := hcounts (kindCounts_write hn p (flatMap_units_length _ p))
    rw [hn] at htotal htable
    refine ⟨htable.trans ?_, fun q hq => htotal.trans ?_⟩
    · cases s.cfg.width <;> simp [LineWidth.lines] <;> omega
    · cases hq
      cases s.cfg.width <;> simp [LineWidth.lines] <;> omega
  | wrnib p =>
    refine ⟨?_, fun q hq => nomatch hq⟩
    cases hw : s.cfg.width with
    | four =>
      refine (hcounts (kindCounts_wrnib hw p rfl)).2.trans ?_
      simp [Nat.mul_comm, Nat.mul_succ]
    | eight =>
      refine (hcounts (total := 0) ?_).2
      rw [requestCalls_of_not_runs (by simp [requestRuns, hw])]
      rfl
  | read n =>
    refine ⟨?_, fun q hq => nomatch hq⟩
    cases n with
    | zero =>
      refine (hcounts rfl).2.trans ?_
      cases s.cfg.width <;> rfl
    | succ n =>
      refine (hcounts (kindCounts_read hn n rfl)).2.trans ?_
      rw [hn, hholds, Nat.mul_comm _ (holdCount _)]
      cases s.cfg.width <;> simp [LineWidth.lines, readCycles] <;> omega

end Sys2Proof.Machine
end

section
/-! PROOFS. The bus transport family (40_bus_transport R80, 60_exceptions R109): the taps of every request, and where
each stands. -/

namespace Sys2Proof.Machine

/-! ### The taps of a list of statements -/

/-- The value and width a statement taps. -/
def Stmt.tapped : Stmt → Option (Byte × Nat)
  | .tap v w => some (v, w)
  | _ => none

theorem tapsOf_eventsOf (s : State) (l : List Stmt) : tapsOf (eventsOf s l) = l.filterMap Stmt.tapped := by
  induction l generalizing s with
  | nil => rfl
  | cons st l ih =>
    rw [eventsOf_cons, tapsOf_append, ih, List.filterMap_cons]
    cases st <;> rfl

theorem filterMap_tapped_of_none {l : List Stmt} (h : ∀ st ∈ l, st.isTap = false) : l.filterMap Stmt.tapped = [] :=
  List.filterMap_eq_nil_iff.mpr fun st hst => by
    have hst := h st hst
    cases st with
    | tap v w => cases hst
    | _ => rfl

/-- Every tap stands directly before the PUT of its value on as many lines as its width (R80). -/
def tapsPrecedePuts : List Stmt → Prop
  | [] => True
  | .tap v w :: l => put v w <+: l ∧ 0 < w ∧ tapsPrecedePuts l
  | _ :: l => tapsPrecedePuts l

theorem tapsPrecedePuts_append {l m : List Stmt} (hl : tapsPrecedePuts l) (hm : tapsPrecedePuts m) :
    tapsPrecedePuts (l ++ m) := by
  induction l with
  | nil => exact hm
  | cons st l ih =>
    cases st with
    | tap v w =>
      obtain ⟨hput, hw, hrest⟩ := hl
      exact ⟨hput.trans ⟨m, rfl⟩, hw, ih hrest⟩
    | _ => exact ih hl

theorem tapsPrecedePuts_of_none {l : List Stmt} (h : ∀ st ∈ l, st.isTap = false) : tapsPrecedePuts l := by
  induction l with
  | nil => trivial
  | cons st l ih =>
    obtain ⟨hst, hl⟩ := List.forall_mem_cons.mp h
    cases st with
    | tap v w => cases hst
    | _ => exact ih hl

theorem tapsPrecedePuts_flatMap {f : Byte → List Stmt} (h : ∀ v, tapsPrecedePuts (f v)) (p : List Byte) :
    tapsPrecedePuts (p.flatMap f) := by
  induction p with
  | nil => trivial
  | cons v p ih => exact tapsPrecedePuts_append (h v) ih

/-! ### Statements without taps -/

theorem isTap_put (v : Byte) (n : Nat) : ∀ st ∈ put v n, st.isTap = false := by simp [put, Stmt.isTap]

theorem isTap_pulse (c : Cfg) : ∀ st ∈ pulse c, st.isTap = false := by simp [pulse, Stmt.isTap]

theorem isTap_unit (c : Cfg) (v : Byte) (n : Nat) : ∀ st ∈ put v n ++ pulse c, st.isTap = false :=
  List.forall_mem_append.mpr ⟨isTap_put v n, isTap_pulse c⟩

theorem isTap_hold (t : Nat) : ∀ st ∈ hold t, st.isTap = false := by unfold hold; split <;> simp [Stmt.isTap]

theorem isTap_dataLinesIn (c : Cfg) : ∀ st ∈ dataLinesIn c, st.isTap = false := by simp [dataLinesIn, Stmt.isTap]

theorem isTap_readCycle (c : Cfg) (n : Nat) : ∀ st ∈ readCycle c n, st.isTap = false :=
  List.forall_mem_append.mpr ⟨List.forall_mem_append.mpr ⟨List.forall_mem_cons.mpr ⟨rfl, isTap_hold c.tRdEh⟩,
    by simp [get, Stmt.isTap]⟩, List.forall_mem_cons.mpr ⟨rfl, isTap_hold c.tRdEl⟩⟩

theorem isTap_readUnit (c : Cfg) : ∀ st ∈ readUnitStmts c, st.isTap = false := by
  unfold readUnitStmts
  cases c.width with
  | eight => exact List.forall_mem_append.mpr ⟨isTap_readCycle c 8, by simp [Stmt.isTap]⟩
  | four =>
    exact List.forall_mem_append.mpr ⟨List.forall_mem_append.mpr ⟨isTap_readCycle c 4,
      List.forall_mem_cons.mpr ⟨rfl, isTap_readCycle c 4⟩⟩, by simp [Stmt.isTap]⟩

/-- READ taps nothing (R80). -/
theorem isTap_read (c : Cfg) (n : Nat) : ∀ st ∈ readStmts c n, st.isTap = false := by
  cases n with
  | zero => simp [readStmts]
  | succ n =>
    rw [readStmts_succ]
    have hentry : ∀ st ∈ readEntry c, st.isTap = false := List.forall_mem_cons.mpr
      ⟨rfl, List.forall_mem_append.mpr ⟨isTap_dataLinesIn c, by simp [Stmt.isTap]⟩⟩
    refine List.forall_mem_append.mpr ⟨hentry, List.forall_mem_append.mpr ⟨fun st hst => ?_, isTap_dataLinesIn c⟩⟩
    obtain ⟨l, hl, hst⟩ := List.mem_flatten.mp hst
    exact isTap_readUnit c st ((List.eq_of_mem_replicate hl) ▸ hst)

theorem isTap_optionalDrive (c : Cfg) :
    ∀ st ∈ (if c.wnDrivesRw then [Stmt.drive .rw c.rwWriteLevel] else []), st.isTap = false := by
  split <;> simp [Stmt.isTap]

/-! ### The taps of a unit -/

/-- A unit sent with its tap (R80). -/
theorem tapsPrecedePuts_unit (c : Cfg) (v : Byte) {w : Nat} (hw : 0 < w) :
    tapsPrecedePuts (.tap v w :: (put v w ++ pulse c)) :=
  ⟨⟨pulse c, rfl⟩, hw, tapsPrecedePuts_of_none (isTap_unit c v w)⟩

theorem tapsPrecedePuts_unitIfAll (c : Cfg) (v : Byte) {w : Nat} (hw : 0 < w) :
    tapsPrecedePuts (tapIfAll c v w ++ (put v w ++ pulse c)) := by
  unfold tapIfAll
  split
  · exact tapsPrecedePuts_unit c v hw
  · exact tapsPrecedePuts_of_none (isTap_unit c v w)

theorem tapsPrecedePuts_writeByte (c : Cfg) (v : Byte) : tapsPrecedePuts (writeByteStmts c v) := by
  unfold writeByteStmts
  cases c.width with
  | eight =>
    simp only [List.append_assoc]
    exact tapsPrecedePuts_unitIfAll c v (by decide)
  | four => exact tapsPrecedePuts_append (tapsPrecedePuts_unit c _ (by decide)) (tapsPrecedePuts_unit c _ (by decide))

theorem tapsPrecedePuts_wrnibElem (c : Cfg) (v : Byte) : tapsPrecedePuts (wrnibElemStmts c v) := by
  rw [wrnibElemStmts, List.append_assoc]
  exact tapsPrecedePuts_unitIfAll c _ (by decide)

theorem tapsPrecedePuts_stmtsOf (c : Cfg) (i : Instr) : tapsPrecedePuts (stmtsOf c i) := by
  cases i with
  | setmode b => trivial
  | write p => exact tapsPrecedePuts_flatMap (tapsPrecedePuts_writeByte c) p
  | wrnib p =>
    exact tapsPrecedePuts_append (tapsPrecedePuts_append (tapsPrecedePuts_of_none (isTap_optionalDrive c))
      (tapsPrecedePuts_flatMap (tapsPrecedePuts_wrnibElem c) p)) (tapsPrecedePuts_of_none (isTap_pulse c))
  | read n => exact tapsPrecedePuts_of_none (isTap_read c n)

/-! ### The table of taps -/

/-- The high nibble has no bits to cut off (42_transcoding R91). -/
theorem hiNibble_eq (v : Byte) : hiNibble v = v >>> 4 := by
  refine BitVec.eq_of_getLsbD_eq fun i hi => ?_
  rw [hiNibble, BitVec.getLsbD_and]
  interval_cases i <;> simp

@[simp] theorem tapped_put (v : Byte) (n : Nat) : (put v n).filterMap Stmt.tapped = [] :=
  filterMap_tapped_of_none (isTap_put v n)

@[simp] theorem tapped_pulse (c : Cfg) : (pulse c).filterMap Stmt.tapped = [] := rfl

@[simp] theorem tapped_tapIfAll (c : Cfg) (v : Byte) (w : Nat) :
    (tapIfAll c v w).filterMap Stmt.tapped = if c.tapScope = .all then [(v, w)] else [] := by
  unfold tapIfAll
  cases c.tapScope <;> rfl

theorem tapped_writeByte_four {c : Cfg} (hw : c.width = .four) (v : Byte) :
    (writeByteStmts c v).filterMap Stmt.tapped = [(v >>> 4, 4), (v &&& 0x0F#8, 4)] := by
  simp [writeByteStmts, hw, Stmt.tapped, hiNibble_eq, loNibble]

theorem tapped_writeByte_eight {c : Cfg} (hw : c.width = .eight) (v : Byte) :
    (writeByteStmts c v).filterMap Stmt.tapped = if c.tapScope = .all then [(v, 8)] else [] := by
  simp [writeByteStmts, hw]

theorem tapped_wrnibElem (c : Cfg) (v : Byte) :
    (wrnibElemStmts c v).filterMap Stmt.tapped = if c.tapScope = .all then [(v &&& 0x0F#8, 4)] else [] := by
  simp [wrnibElemStmts, loNibble]

/-- What an element taps where `TAP_SCOPE = All`, over a whole payload. -/
theorem flatMap_ifAll (scope : TapScope) (f : Byte → Byte × Nat) (p : List Byte) :
    (p.flatMap fun v => if scope = .all then [f v] else []) = match scope with
      | .all => p.map f
      | .reference => [] := by
  cases scope with
  | all => exact List.map_eq_flatMap.symm
  | reference => simp

/-- The statements of a request that runs tap what the table says (R80). -/
theorem tapped_stmtsOf {c : Cfg} {i : Instr} (h : requestRuns c i = true) :
    (stmtsOf c i).filterMap Stmt.tapped = tapTable c i := by
  cases i with
  | setmode b => rfl
  | write p =>
    rw [stmtsOf, writeStmts, List.filterMap_cons, List.filterMap_flatMap, tapTable]
    cases hw : c.width with
    | four => simp only [Stmt.tapped, tapped_writeByte_four hw]
    | eight =>
      simp only [Stmt.tapped, tapped_writeByte_eight hw, flatMap_ifAll]
      cases c.tapScope <;> rfl
  | wrnib p =>
    rw [stmtsOf, wrnibStmts, List.filterMap_append, List.filterMap_append, List.filterMap_flatMap, tapTable,
      filterMap_tapped_of_none (isTap_optionalDrive c), beq_iff_eq.mp h]
    simp only [tapped_wrnibElem, flatMap_ifAll, tapped_pulse]
    cases c.tapScope <;> simp
  | read n => exact filterMap_tapped_of_none (isTap_read c n)

/-! ### The taps among the events -/

/-- Every tap among the events shows the PUT that begins right after it (60_exceptions R109). -/
def tapsShowPuts : List Event → Prop
  | [] => True
  | ev :: evs => (∀ v w, ev.kind = .tap v w →
      (evs.take w).map (fun e => e.kind) = putCalls v w ∧ ∀ first ∈ evs.head?, first.t = ev.t) ∧ tapsShowPuts evs

theorem tapsShowPuts_nil : tapsShowPuts [] := trivial

theorem tapsShowPuts_cons_of_not_tap {ev : Event} {evs : List Event} (hev : ev.kind.isTap = false)
    (h : tapsShowPuts evs) : tapsShowPuts (ev :: evs) :=
  ⟨fun v w htap => absurd hev (by simp [htap, EventKind.isTap]), h⟩

theorem tapsShowPuts_split {evs : List Event} (h : tapsShowPuts evs) (a b : List Event) (ev : Event) (v : Byte)
    (w : Nat) (hsplit : evs = a ++ ev :: b) (htap : ev.kind = .tap v w) :
    (b.take w).map (fun e => e.kind) = putCalls v w ∧ ∀ first ∈ b.head?, first.t = ev.t := by
  subst hsplit
  induction a with
  | nil => exact h.1 v w htap
  | cons x a ih => exact ih h.2

/-- PUT's events are its drives, with no level or time left free (42_transcoding R89). -/
theorem eventsOf_put_kind (s : State) (v : Byte) (n : Nat) :
    (eventsOf s (put v n)).map (fun e => e.kind) = putCalls v n := by
  rw [put, putCalls]
  generalize List.range n = lines
  induction lines generalizing s with
  | nil => rfl
  | cons i lines ih => exact congrArg (.drive (.d i) (Level.ofBit (v.getLsbD i)) :: ·) (ih _)

/-- PUT begins at once. -/
theorem eventsOf_put_head (s : State) (v : Byte) {n : Nat} (hn : 0 < n) (rest : List Event) :
    ∀ first ∈ (eventsOf s (put v n) ++ rest).head?, first.t = s.now := by
  obtain ⟨m, rfl⟩ := Nat.exists_eq_succ_of_ne_zero hn.ne'
  rw [put, List.range_succ_eq_map, List.map_cons, eventsOf_cons]
  simp [stmtEvents]

/-- Where the taps of statements stand before PUTs, so do those of their events, whatever follows. -/
theorem tapsShowPuts_eventsOf {l : List Stmt} (h : tapsPrecedePuts l) {after : List Event} (hafter : tapsShowPuts after)
    (s : State) : tapsShowPuts (eventsOf s l ++ after) := by
  induction l generalizing s with
  | nil => exact hafter
  | cons st l ih =>
    cases st with
    | tap v w =>
      obtain ⟨⟨rest, rfl⟩, hw, hrest⟩ := h
      change tapsShowPuts (⟨s.now, .tap v w⟩ :: (eventsOf (runStmt s (.tap v w)) (put v w ++ rest) ++ after))
      refine ⟨fun v' w' htap => ?_, ih hrest _⟩
      obtain ⟨rfl, rfl⟩ : v = v' ∧ w = w' := by simpa using htap
      rw [eventsOf_append, List.append_assoc]
      have hkinds := eventsOf_put_kind (runStmt s (.tap v w)) v w
      have hlen : (eventsOf (runStmt s (.tap v w)) (put v w)).length = w := by
        simpa [putCalls] using congrArg List.length hkinds
      exact ⟨by rw [List.take_left' hlen, hkinds], eventsOf_put_head _ v hw _⟩
    | cfgIn l | drive l lvl | sleep t | sampleBit i => exact tapsShowPuts_cons_of_not_tap rfl (ih h _)
    | clearAcc | saveHi | storeByte | storeNibbles | setRsMode m | setDir d => exact ih h _

/-- Settles O57: the taps are those of the request's statements, each of which stands before its PUT. -/
theorem tapsShowTheUnitsAboutToBeDriven : Obligations.TapsShowTheUnitsAboutToBeDriven := by
  intro s i hidle
  cases hruns : requestRuns s.cfg i with
  | true =>
    obtain ⟨t, n, status, htrace⟩ := perform_events (i := i) hidle
    have hshow := tapsShowPuts_cons_of_not_tap (ev := ⟨s.now, .beginReq (encodeDesc s.cfg i)⟩) rfl
      (tapsShowPuts_eventsOf (tapsPrecedePuts_stmtsOf s.cfg i)
        (tapsShowPuts_cons_of_not_tap (ev := ⟨t, .endReq n status⟩) rfl tapsShowPuts_nil) (s.accept i))
    refine ⟨_, _, exec_of_runs hruns, htrace, ?_, tapsShowPuts_split hshow⟩
    rw [← tapped_stmtsOf hruns, ← tapsOf_eventsOf (s.accept i), tapsOf_append]
    exact List.append_nil _
  | false =>
    have hshow : tapsShowPuts
        [⟨s.now, .beginReq (encodeDesc s.cfg i)⟩, ⟨s.now, .endReq 0 (.refused .wrnibEightMode)⟩] :=
      tapsShowPuts_cons_of_not_tap rfl (tapsShowPuts_cons_of_not_tap rfl tapsShowPuts_nil)
    refine ⟨_, _, exec_of_not_runs hidle hruns, List.append_assoc .., ?_, tapsShowPuts_split hshow⟩
    cases i with
    | wrnib p =>
      cases hw : s.cfg.width with
      | four => simp [requestRuns, hw] at hruns
      | eight => rw [tapTable, hw]; rfl
    | _ => cases hruns

end Sys2Proof.Machine
end

section
/-! PROOFS. The bus transport family (40_bus_transport R78, R79, 60_exceptions R99): what every request answers, and the
three empty requests. -/

namespace Sys2Proof.Machine

/-! ### Counts and status codes -/

/-- Settles O37: a request that runs answers `resultOf`, and a refusal, of WRNIB or of a descriptor, `REFUSED`. -/
theorem countsAndStatusCodes : Obligations.CountsAndStatusCodes := by
  refine ⟨fun s i hidle => ?_, fun s r rest reason hidle hport hframed hdec =>
    ⟨_, step_of_refused hidle hport hframed hdec, rfl⟩⟩
  cases hruns : requestRuns s.cfg i with
  | true =>
    obtain ⟨a, -, hresult⟩ := perform_result i s hidle
    refine ⟨_, exec_of_runs hruns, ?_⟩
    rw [hresult]
    cases i with
    | wrnib p => exact (if_pos (beq_iff_eq.mp hruns)).symm
    | read n => cases n <;> rfl
    | _ => rfl
  | false =>
    refine ⟨_, exec_of_not_runs hidle hruns, ?_⟩
    cases i with
    | wrnib p => exact (if_neg (by simpa [requestRuns] using hruns)).symm
    | _ => cases hruns

/-! ### The empty requests -/

/-- A request that runs, with the shapes of its events and its answer but for the bytes read. -/
theorem exec_runs_shapes {s : State} (hidle : s.seq = .idle) {i : Instr} (hruns : requestRuns s.cfg i = true) :
    ∃ t evs rbuf, exec i s = .next t ∧ t.trace = s.trace ++ evs ∧ t.result = resultOf rbuf i ∧
      evs.map (fun ev => ev.kind.shape) = requestShapes s.cfg i := by
  obtain ⟨t, evs, hexec, htrace, hshapes⟩ := exec_shapes hidle i
  obtain rfl := Host.Outcome.next.inj ((exec_of_runs hruns).symm.trans hexec)
  obtain ⟨a, -, hresult⟩ := perform_result i s hidle
  exact ⟨_, evs, a.rbuf, hexec, htrace, hresult, hshapes⟩

theorem encodeDesc_write_nil (c : Cfg) : encodeDesc c (.write []) = 0x40000000#32 := mkDesc_zero c _ _

theorem encodeDesc_wrnib_nil (c : Cfg) : encodeDesc c (.wrnib []) = 0x80000000#32 := mkDesc_zero c _ _

theorem encodeDesc_read_zero (c : Cfg) : encodeDesc c (.read 0) = 0xC0000000#32 := mkDesc_zero c _ _

/-- Settles O38: the statements of the three requests are the `RW` drive, the optional `RW` drive with the trailing
pulse, and none. -/
theorem emptySequences : Obligations.EmptySequences := by
  intro s hidle
  refine ⟨?_, fun hfour => ?_, ?_⟩
  · obtain ⟨t, evs, rbuf, hexec, htrace, hresult, hshapes⟩ := exec_runs_shapes hidle (i := .write []) rfl
    refine ⟨t, evs, hexec, htrace, hresult, hshapes.trans ?_⟩
    rw [requestShapes, encodeDesc_write_nil]
    rfl
  · have hruns : requestRuns s.cfg (.wrnib []) = true := beq_iff_eq.mpr hfour
    obtain ⟨t, evs, rbuf, hexec, htrace, hresult, hshapes⟩ := exec_runs_shapes hidle hruns
    refine ⟨t, evs, hexec, htrace, hresult, hshapes.trans ?_⟩
    have hdrive : (if s.cfg.wnDrivesRw then [Stmt.drive .rw s.cfg.rwWriteLevel] else []).filterMap Stmt.shape =
        if s.cfg.wnDrivesRw = true then [.drive .rw s.cfg.rwWriteLevel] else [] := by split <;> rfl
    rw [requestShapes, encodeDesc_wrnib_nil, if_pos hruns, stmtsOf, wrnibStmts, List.filterMap_append,
      List.filterMap_append, hdrive]
    simp only [List.append_assoc, List.cons_append]
    rfl
  · obtain ⟨-, -, -, -, -, -, -, htrace⟩ := perform_effect (.read 0) s hidle
    obtain ⟨a, -, hresult⟩ := perform_result (.read 0) s hidle
    refine ⟨_, _, rfl, htrace, hresult, ?_⟩
    rw [hresult, encodeDesc_read_zero]
    rfl

end Sys2Proof.Machine
end

section
/-! PROOFS. The enable sequencer family (41_enable_sequencer R83 to R86): PULSE as three drives of `E`, each with the
hold after it. -/

namespace Sys2Proof.Machine

/-! ### A drive and the hold after it -/

/-- A drive of `E` and the hold after it, of which PULSE is made (41_enable_sequencer R83). -/
def driveThenSleep (lvl : Level) (t : Nat) : List Stmt := [.drive .e lvl, .sleep t]

theorem pulse_eq_driveThenSleep (c : Cfg) : pulse c =
    driveThenSleep .low c.tEl ++ (driveThenSleep .high c.tEh ++ driveThenSleep .low c.tSettle) := rfl

theorem runStmts_driveThenSleep_now (s : State) (lvl : Level) (t : Nat) :
    s.now + t ≤ (runStmts s (driveThenSleep lvl t)).now := by
  simpa [driveThenSleep, Stmt.minTime] using runStmts_now s (driveThenSleep lvl t)

theorem eventsOf_driveThenSleep (s : State) (lvl : Level) (t : Nat) : ∃ u x,
    eventsOf s (driveThenSleep lvl t) = [⟨s.now, .drive .e lvl⟩, ⟨u, .sleep t x⟩] ∧ s.now ≤ u ∧ t ≤ x :=
  ⟨_, _, rfl, runStmts_now_le s [.drive .e lvl], Nat.le_add_right _ _⟩

/-! ### PULSE -/

/-- Settles O18: each of the three drives is an event at the time its hold is counted from, and the next begins once
that hold is over. -/
theorem pulseIsOneTimedStrobe : Obligations.PulseIsOneTimedStrobe := by
  intro s hwf
  obtain ⟨-, hEh, hSettle, -, -⟩ := (Cfg.wf_iff s.cfg).mp hwf
  let rise := runStmts s (driveThenSleep .low s.cfg.tEl)
  let fall := runStmts rise (driveThenSleep .high s.cfg.tEh)
  obtain ⟨t1, x1, hlow, ht1, hx1⟩ := eventsOf_driveThenSleep s .low s.cfg.tEl
  obtain ⟨t3, x2, hhigh, ht3, hx2⟩ := eventsOf_driveThenSleep rise .high s.cfg.tEh
  obtain ⟨t5, x3, hsettle, ht5, hx3⟩ := eventsOf_driveThenSleep fall .low s.cfg.tSettle
  have hrise : s.now + s.cfg.tEl ≤ rise.now := runStmts_driveThenSleep_now s .low s.cfg.tEl
  have hfall : rise.now + s.cfg.tEh ≤ fall.now := runStmts_driveThenSleep_now rise .high s.cfg.tEh
  have hreturn : fall.now + s.cfg.tSettle ≤ (runStmts s (pulse s.cfg)).now := by
    rw [pulse_eq_driveThenSleep, runStmts_append, runStmts_append]
    exact runStmts_driveThenSleep_now fall .low s.cfg.tSettle
  refine ⟨s.now, t1, rise.now, t3, fall.now, t5, x1, x2, x3, ?_, rfl, ht1, ht3, ht5, hx1, hx2, hx3, hrise, hfall,
    by omega, hreturn, by omega, ?_, runStmts_rsMode s (pulse s.cfg), runStmts_dir s (pulse s.cfg),
    runStmts_result s (pulse s.cfg), runStmts_cfg s (pulse s.cfg)⟩
  · rw [runStmts_trace, pulse_eq_driveThenSleep, eventsOf_append, eventsOf_append, hlow, hhigh, hsettle]
    rfl
  · rw [runStmts_lines, linesAfterAll_pulse]
    rfl

theorem runStmts_pulse_now (s : State) (c : Cfg) :
    s.now + (c.tEl + c.tEh + c.tSettle) ≤ (runStmts s (pulse c)).now :=
  minTimeAll_pulse c ▸ runStmts_now s (pulse c)

/-- The first draw of elapsed time is part of PULSE's duration, for it is that of the first drive (20_memory R41). -/
theorem runStmts_pulse_now_of_delay (s : State) (c : Cfg) : s.now + s.env.delay ≤ (runStmts s (pulse c)).now := by
  rw [pulse, runStmts_cons]
  exact runStmts_now_le (runStmt s (.drive .e .low)) _

theorem Cfg.default_holdTime (w : LineWidth) :
    (Cfg.default w).tEl + (Cfg.default w).tEh + (Cfg.default w).tSettle = 102000 := by
  cases w <;> rfl

/-- Settles O19: the three holds are what PULSE's statements ask for, and a first draw of `bound + 1` exceeds
`bound`. -/
theorem pulseTakesAtLeastItsHolds : Obligations.PulseTakesAtLeastItsHolds := by
  refine ⟨fun s => runStmts_pulse_now s s.cfg, fun s w hcfg => ?_, fun s bound => ⟨[bound + 1], ?_⟩⟩
  · rw [← Cfg.default_holdTime w, ← hcfg]
    exact runStmts_pulse_now s s.cfg
  · have hdraw := runStmts_pulse_now_of_delay { s with env := { s.env with delays := [bound + 1] } } s.cfg
    have hdelay : ({ s.env with delays := [bound + 1] } : Env).delay = bound + 1 := rfl
    rw [hdelay] at hdraw
    omega

end Sys2Proof.Machine
end

section
/-! PROOFS. The transcoding family (42_transcoding R89): what PUT drives, and its frame. -/

namespace Sys2Proof.Machine

theorem setsMode_put (v : Byte) (n : Nat) : ∀ st ∈ put v n, st.setsMode = false := by
  simp [put, Stmt.setsMode]

/-- Settles O16: PUT's events are its drives, and the lines are those it drives one by one. -/
theorem putDrivesTheBitsInOrder : Obligations.PutDrivesTheBitsInOrder := by
  intro s v n hn
  have hquiet := setsMode_put v n
  refine ⟨_, runStmts_trace s (put v n), eventsOf_put_kind s v n, fun i hi => ?_, fun l hl => ?_, ?_, ?_,
    runStmts_result s (put v n), runStmts_cfg s (put v n), runStmts_now_le s (put v n)⟩
  · rw [runStmts_lines, linesAfterAll_put, putLines_get _ _ _ _ hi hn]
    rfl
  · rw [runStmts_lines, linesAfterAll_put, putLines_get_other _ _ _ _ hl]
  · rw [runStmts_rsMode, foldl_modeAfter_of_none _ _ fun st hst => modeAfter_of_not_setsMode (hquiet st hst)]
  · rw [runStmts_dir, foldl_dirAfter_of_none _ _ fun st hst => dirAfter_of_not_setsMode (hquiet st hst)]

end Sys2Proof.Machine
end

section
/-! PROOFS. The transcoding family (42_transcoding R95, 20_memory R45): a byte written and read back, against
`LatchReplay` and against `LevelMirror`, which answers every read cycle with the unit that was put last. -/

namespace Sys2Proof.Machine

/-! ### Data latches that hold a unit under `LevelMirror` -/

/-- `LevelMirror` answers unit `u` in every read cycle: the data latches hold it (20_memory R45). -/
structure State.Mirrors (s : State) (u : Byte) : Prop where
  oracle : s.env.oracle = .levelMirror
  latches : ∀ i < s.cfg.n, (s.lines.get (.d i)).lat = some (Level.ofBit (u.getLsbD i))

/-- A statement that does not drive a data line leaves the data latches. -/
theorem Stmt.linesAfter_data_lat {st : Stmt} (h : ∀ k, st.call = some k → k.drivesData = false) (ls : Lines)
    (i : Nat) : ((st.linesAfter ls).get (.d i)).lat = (ls.get (.d i)).lat := by
  cases st with
  | drive l lvl =>
    cases l with
    | d j => cases h _ rfl
    | _ => rfl
  | cfgIn l => exact Lines.get_setDir_lat ..
  | _ => rfl

section
variable {s : State} {u : Byte} (h : s.Mirrors u)
include h

theorem State.Mirrors.runStmt {st : Stmt} (hst : ∀ k, st.call = some k → k.drivesData = false) :
    (runStmt s st).Mirrors u where
  oracle := (runStmt_oracle s st).trans h.oracle
  latches i hi := by
    rw [runStmt_lines, Stmt.linesAfter_data_lat hst]
    exact h.latches i (by simpa using hi)

/-- What `LevelMirror` answers on a data line is its bit of the unit. -/
theorem State.Mirrors.sampleLevel {i : Nat} (hi : i < s.cfg.n) :
    s.sampleLevel (.d i) = Level.ofBit (u.getLsbD i) := by
  simp [State.sampleLevel, oracleAnswer, h.oracle, h.latches i hi]

/-- While no data line is driven, every sample gives its line's bit of the unit. -/
theorem State.Mirrors.level_of_sample {l : List Stmt} (hl : ∀ k ∈ callsOf l, k.drivesData = false) {i : Nat}
    (hi : i < s.cfg.n) {lvl : Level} (hmem : (.d i, lvl) ∈ samplesOf (eventsOf s l)) :
    lvl = Level.ofBit (u.getLsbD i) := by
  induction l generalizing s with
  | nil => cases hmem
  | cons st l ih =>
    rw [callsOf_cons, List.forall_mem_append] at hl
    obtain ⟨hst, hl⟩ := hl
    rw [eventsOf_cons, samplesOf_append, List.mem_append] at hmem
    rcases hmem with hnow | hlater
    · cases st with
      | sampleBit j =>
        obtain ⟨rfl, rfl⟩ : i = j ∧ lvl = s.sampleLevel (.d j) := by simpa [stmtEvents, samplesOf] using hnow
        exact h.sampleLevel hi
      | _ => cases hnow
    · exact ih (h.runStmt (by simpa using hst)) hl (by simpa using hi) hlater

end

/-! ### READ against `LevelMirror` -/

theorem drivesData_holdCalls (t : Nat) : ∀ k ∈ holdCalls t, k.drivesData = false := by
  unfold holdCalls; split <;> simp [EventKind.drivesData]

theorem drivesData_readCycleCalls (c : Cfg) (n : Nat) : ∀ k ∈ readCycleCalls c n, k.drivesData = false := by
  have hsamples : ∀ k ∈ (List.range n).map fun i => EventKind.sample (.d i) .low, k.drivesData = false := by
    simp [EventKind.drivesData]
  exact List.forall_mem_append.mpr ⟨List.forall_mem_cons.mpr ⟨rfl, List.forall_mem_append.mpr
    ⟨drivesData_holdCalls _, hsamples⟩⟩, List.forall_mem_cons.mpr ⟨rfl, drivesData_holdCalls _⟩⟩

/-- READ drives no data line (40_bus_transport R75). -/
theorem drivesData_callsOf_read {c : Cfg} (hn : c.n = c.width.lines) (n : Nat) :
    ∀ k ∈ callsOf (readStmts c (n + 1)), k.drivesData = false := by
  have hconfig : ∀ k ∈ (List.range c.n).map fun i => EventKind.cfgIn (.d i), k.drivesData = false := by
    simp [EventKind.drivesData]
  have hcycles : ∀ k ∈ (List.replicate (readCycles c.width (n + 1)) (readCycleCalls c c.n)).flatten,
      k.drivesData = false := List.forall_mem_flatten.mpr fun calls hcalls =>
    List.eq_of_mem_replicate hcalls ▸ drivesData_readCycleCalls c c.n
  rw [callsOf_read hn]
  exact List.forall_mem_append.mpr ⟨List.forall_mem_append.mpr ⟨List.forall_mem_cons.mpr ⟨rfl, hconfig⟩, hcycles⟩,
    hconfig⟩

/-- The byte READ makes of read cycles that all give unit `u` (42_transcoding R94). -/
def mirroredByte : LineWidth → Byte → Byte
  | .eight, u => u
  | .four, u => assemble u u

theorem Assembles.eq_mirroredByte {w : LineWidth} {cycles : List (List Level)} {bytes : List Byte} {u : Byte}
    (h : Assembles w cycles bytes) (hu : ∀ levels ∈ cycles, gather 0#8 0 levels = u) :
    ∀ b ∈ bytes, b = mirroredByte w u := by
  induction h with
  | nil => simp
  | @cons us ls v bs hunits hrest ih =>
    obtain ⟨hus, hls⟩ := List.forall_mem_append.mp hu
    refine List.forall_mem_cons.mpr ⟨?_, ih hls⟩
    match w, us, hunits with
    | .eight, [levels], hunits =>
      obtain rfl := Option.some.inj hunits
      exact hus levels (by simp)
    | .four, [high, low], hunits =>
      obtain rfl := Option.some.inj hunits
      rw [hus high (by simp), hus low (by simp)]
      rfl

/-- GET of the bits of a unit that fits the lines is the unit (42_transcoding R90). -/
theorem gather_of_bits {levels : List Level} {u : Byte} (hlen : levels.length ≤ 8) (hu : fitsLines levels.length u)
    (hbits : ∀ i lvl, levels[i]? = some lvl → lvl = Level.ofBit (u.getLsbD i)) : gather 0#8 0 levels = u := by
  refine BitVec.eq_of_getLsbD_eq fun k _ => Bool.eq_iff_iff.mpr ?_
  rw [gather_zero_bit hlen]
  by_cases hk : k < levels.length
  · rw [List.getElem?_eq_getElem hk, Option.some_inj, hbits k _ (List.getElem?_eq_getElem hk)]
    simp [Level.ofBit]
  · simp [hk, hu k (by omega)]

theorem Cfg.wf_n_le {c : Cfg} (h : c.wf = true) : c.n ≤ 8 := by
  rw [Cfg.wf_n h]
  cases c.width <;> decide

theorem State.Mirrors.accept {s : State} {u : Byte} (h : s.Mirrors u) (i : Instr) : (s.accept i).Mirrors u :=
  ⟨h.oracle, h.latches⟩

/-- Every sample of a READ gives its line's bit of the unit that the data latches hold. -/
theorem State.Mirrors.level_of_read_sample {s : State} {u : Byte} (h : s.Mirrors u) (hs : s.Ready) {n : Nat}
    {evs : List Event} (htrace : (perform (.read (n + 1)) s).trace = s.trace ++ evs) {i : Nat} (hi : i < s.cfg.n)
    {lvl : Level} (hmem : (.d i, lvl) ∈ samplesOf evs) : lvl = Level.ofBit (u.getLsbD i) := by
  obtain ⟨t, count, status, hevents⟩ := perform_events (i := .read (n + 1)) hs.idle
  have hmem : (.d i, lvl) ∈ samplesOf (eventsOf (s.accept (.read (n + 1))) (readStmts s.cfg (n + 1))) := by
    rw [List.append_cancel_left (htrace.symm.trans hevents), samplesOf_append] at hmem
    simpa [samplesOf, stmtsOf] using hmem
  exact (h.accept _).level_of_sample (drivesData_callsOf_read (Cfg.wf_n hs.cfgWf) n) hi hmem

/-- READ against `LevelMirror` answers only bytes made of the unit that the data latches hold. -/
theorem State.Mirrors.read_result {s : State} {u : Byte} (h : s.Mirrors u) (hs : s.Ready) (hu : fitsLines s.cfg.n u)
    (n : Nat) : (perform (.read (n + 1)) s).result =
      ⟨n + 1, .ok, List.replicate (n + 1) (mirroredByte s.cfg.width u)⟩ := by
  obtain ⟨evs, cycles, htrace, hlens, hcycles, hlen, hassembles⟩ := read_assembles hs n
  have hunits : ∀ levels ∈ cycles, gather 0#8 0 levels = u := by
    intro levels hlevels
    have hlength := hlens levels hlevels
    refine gather_of_bits (hlength.trans_le (Cfg.wf_n_le hs.cfgWf)) (hlength ▸ hu) fun i lvl hlvl => ?_
    have hi : i < s.cfg.n := hlength ▸ (List.getElem?_eq_some_iff.mp hlvl).1
    refine h.level_of_read_sample hs htrace hi ?_
    rw [hcycles.samples, List.mem_flatten]
    exact ⟨_, List.mem_map_of_mem hlevels, List.mem_of_getElem? (i := i) (by simp [lineSamples, hlvl])⟩
  obtain ⟨a, -, hresult⟩ := perform_result (.read (n + 1)) s hs.idle
  have hbytes := List.eq_replicate_iff.mpr ⟨hlen, hassembles.eq_mirroredByte hunits⟩
  rw [hresult] at hbytes ⊢
  exact congrArg (Result.mk (n + 1) .ok) hbytes

/-! ### WRITE, then READ -/

/-- A request leaves the transport ready for the next one. -/
theorem State.Ready.perform {s : State} (hs : s.Ready) (i : Instr) : (perform i s).Ready where
  cfgWf := (extends_perform i s).cfg ▸ hs.cfgWf
  linesWf := by
    have hext := extends_perform i s
    rw [Lines.wf, hext.length, hext.cfg]
    exact hs.linesWf
  idle := finish_seq _

/-- After a WRITE the data latches hold the last unit it put (10_state R31). -/
theorem write_mirrors {s : State} (hs : s.Ready) (horacle : s.env.oracle = .levelMirror) {p : List Byte} {u : Byte}
    (hlast : (p.flatMap (units s.cfg.width)).getLast? = some u) : (perform (.write p) s).Mirrors u where
  oracle := (extends_perform _ s).oracle.trans horacle
  latches i hi := by
    obtain ⟨hcfg, -, -, hlines, -⟩ := perform_effect (.write p) s hs.idle
    rw [hcfg, Cfg.wf_n hs.cfgWf] at hi
    have hlen : s.cfg.width.lines ≤ (s.lines.setLat .rw s.cfg.rwWriteLevel).data.length := hs.lines_eq.le
    rw [hlines, stmtsOf, linesAfterAll_write, unitsLines_get _ _ _ i hi hlen, hlast]

/-- Against `LevelMirror` a READ after a WRITE answers bytes made of the last unit written. -/
theorem read_write_mirrored {s : State} (hs : s.Ready) (horacle : s.env.oracle = .levelMirror) {p : List Byte}
    {u : Byte} (hlast : (p.flatMap (units s.cfg.width)).getLast? = some u) (n : Nat) :
    (perform (.read (n + 1)) (perform (.write p) s)).result =
      ⟨n + 1, .ok, List.replicate (n + 1) (mirroredByte s.cfg.width u)⟩ := by
  obtain ⟨v, -, hv⟩ := List.mem_flatMap.mp (List.mem_of_getLast? hlast)
  have hfits : fitsLines s.cfg.n u := Cfg.wf_n hs.cfgWf ▸ fitsLines_units s.cfg.width v u hv
  have hcfg := (extends_perform (.write p) s).cfg
  rw [← hcfg] at hfits ⊢
  exact (write_mirrors hs horacle hlast).read_result (hs.perform _) hfits n

/-- The low nibble in both halves of a byte, as R95 writes it. -/
theorem mirroredByte_loNibble (v : Byte) : mirroredByte .four (loNibble v) = (v &&& 0x0F#8) * 0x11#8 := by
  revert v; decide +kernel

/-- Settles O35: against `LatchReplay` it is the one-byte case of a sequence reading back; `LevelMirror` answers with
the last unit of the byte, which is the byte in Eight mode and its low nibble in Four mode. -/
theorem writeThenReadRoundTrip : Obligations.WriteThenReadRoundTrip := by
  intro s v hs hout he htrace
  refine ⟨fun horacle => writtenSequenceReadsBack s [v] hs hout he htrace horacle (by simp),
    fun horacle => ⟨_, _, rfl, rfl, ?_⟩⟩
  have hread {u : Byte} (hlast : ([v].flatMap (units s.cfg.width)).getLast? = some u) :=
    read_write_mirrored hs horacle hlast 0
  cases hw : s.cfg.width with
  | eight =>
    rw [hw] at hread
    exact hread (u := v) rfl
  | four =>
    rw [hw] at hread
    exact mirroredByte_loNibble v ▸ hread (u := loNibble v) rfl

end Sys2Proof.Machine
end

section
/-! PROOFS. The exceptions family (60_exceptions R97, R98, R103): a request that does not answer OK is raised right
after its `Begin`, and READ of length 0 is the only one that raises `INVALID_ARGUMENT`. -/

namespace Sys2Proof.Machine

/-! ### The requests that do not answer OK -/

/-- READ of length 0 has no statements: it raises its error right after `Begin` (60_exceptions R98). -/
theorem perform_read_zero {s : State} (hidle : s.seq = .idle) :
    perform (.read 0) s = (s.emit (.beginReq 0xC0000000#32)).raise .invalidArgument := by
  obtain ⟨a, -, -, hperform⟩ := perform_spec (.read 0) s hidle
  rw [hperform, ← encodeDesc_read_zero s.cfg]
  rfl

theorem resultOf_status_ok {i : Instr} (hi : i ≠ .read 0) (rbuf : List Byte) : (resultOf rbuf i).status = .ok := by
  cases i with
  | read n =>
    cases n with
    | zero => exact absurd rfl hi
    | succ n => rfl
  | _ => rfl

/-- How a request of an idle transport ends: with OK, as READ of length 0 with its error, or as a refusal. -/
theorem exec_ends {s t : State} {i : Instr} (hidle : s.seq = .idle) (h : exec i s = .next t) :
    t.result.status = .ok ∨
      (i = .read 0 ∧ t = (s.emit (.beginReq 0xC0000000#32)).raise .invalidArgument) ∨
      ∃ q reason, t = s.refuse q reason := by
  cases hruns : requestRuns s.cfg i with
  | true =>
    obtain rfl := Host.Outcome.next.inj ((exec_of_runs hruns).symm.trans h)
    by_cases hi : i = .read 0
    · subst hi
      exact .inr (.inl ⟨rfl, perform_read_zero hidle⟩)
    · obtain ⟨a, -, hresult⟩ := perform_result i s hidle
      exact .inl (hresult ▸ resultOf_status_ok hi a.rbuf)
  | false =>
    exact .inr (.inr ⟨_, _, (Host.Outcome.next.inj ((exec_of_not_runs hidle hruns).symm.trans h)).symm⟩)

/-- `INVALID_ARGUMENT` names the request: a refusal has a status of its own (60_exceptions R98, R100). -/
theorem eq_read_zero_of_invalidArgument {s t : State} {i : Instr} (hidle : s.seq = .idle) (h : exec i s = .next t)
    (hstatus : t.result.status = .invalidArgument) : i = .read 0 := by
  rcases exec_ends hidle h with hok | ⟨hi, -⟩ | ⟨q, reason, rfl⟩
  · exact absurd (hok.symm.trans hstatus) nofun
  · exact hi
  · exact absurd hstatus nofun

/-- The caller's move answers nothing (70_reset_and_hazards R141). -/
theorem restoreOut_result (s : State) : (restoreOut s).result = s.result := by
  obtain ⟨-, -, -, hresult, -⟩ := cfgOutAll_spec s s.cfg.n
  exact hresult

/-- Settles O32: READ of length 0 raises its error after `Begin`; of the other deliveries, a request answers OK or is
refused, and waiting and the caller's move leave `RESULT`. -/
theorem readZeroRaisesInvalidArgument : Obligations.ReadZeroRaisesInvalidArgument := by
  refine ⟨fun s hidle => ?_, fun s t i => eq_read_zero_of_invalidArgument, fun s t hidle hstep hstatus => ?_⟩
  · refine congrArg Host.Outcome.next ((perform_read_zero hidle).trans ?_)
    simp [State.raise, State.respond, State.emit, hidle]
  · rcases step_cases s t hstep with ⟨a, hbusy, -⟩ | ⟨-, -, rfl⟩ | ⟨rest, -, -, rfl⟩ |
      ⟨r, rest, i, -, hport, hframed, hdec, hexec⟩ | ⟨r, rest, reason, -, -, -, -, rfl⟩
    · exact absurd (hidle.symm.trans hbusy) nofun
    · exact .inr rfl
    · exact .inr (restoreOut_result _)
    · obtain rfl := eq_read_zero_of_invalidArgument (s := s.withPort rest) hidle hexec hstatus
      exact .inl ⟨rest, fetch_of_decoded hidle hport hframed hdec⟩
    · exact absurd hstatus nofun

/-! ### Precision -/

/-- A delivered request that does not end with OK was not taken, being framed by another width of `LEN`, or it was
raised right after its `Begin` (60_exceptions R97, R100). -/
theorem step_of_not_ok {s t : State} {r : Request} {rest : List Delivery} (hidle : s.seq = .idle)
    (hport : s.port = .request r :: rest) (hstep : step s = .next t) (hstatus : t.result.status ≠ .ok) :
    t = s ∨ ∃ q code, t = ((s.withPort rest).emit (.beginReq q)).raise code := by
  rcases step_cases s t hstep with ⟨a, hbusy, -⟩ | ⟨-, -, rfl⟩ | ⟨rest', -, hport', -⟩ |
    ⟨r', rest', i, -, hport', -, -, hexec⟩ | ⟨r', rest', reason, -, hport', -, -, rfl⟩
  · exact absurd (hidle.symm.trans hbusy) nofun
  · exact .inl rfl
  · exact absurd (hport.symm.trans hport') nofun
  · obtain ⟨-, rfl⟩ := List.cons.inj (hport.symm.trans hport')
    rcases exec_ends (s := s.withPort rest) hidle hexec with hok | ⟨-, rfl⟩ | ⟨q, reason, rfl⟩
    · exact absurd hok hstatus
    · exact .inr ⟨_, _, rfl⟩
    · exact .inr ⟨_, _, rfl⟩
  · obtain ⟨-, rfl⟩ := List.cons.inj (hport.symm.trans hport')
    exact .inr ⟨_, _, rfl⟩

/-- Settles O50: `Begin` and `End` are the only events of a request that is raised, and neither is a call. -/
theorem errorsAndRefusalsArePrecise : Obligations.ErrorsAndRefusalsArePrecise := by
  intro s t r rest hidle hport hstep hstatus
  rcases step_of_not_ok hidle hport hstep hstatus with rfl | ⟨q, code, rfl⟩
  · exact ⟨rfl, rfl, rfl, rfl, rfl, rfl, [], (List.append_nil _).symm, rfl⟩
  · exact ⟨rfl, rfl, rfl, hidle.symm, rfl, rfl, _, List.append_assoc .., rfl⟩

end Sys2Proof.Machine
end

section
/-! PROOFS. The reset and hazards family (70_reset_and_hazards R119, R134, R139, R141): what a step leaves fixed, the
caller's move, READ's second reconfiguration, and the nibble that WRNIB latches twice. -/

namespace Sys2Proof.Machine

/-- Settles O43: every step extends the state, and an extension keeps the configuration and the line count. -/
theorem configurationIsFixed : Obligations.ConfigurationIsFixed := by
  intro s t hstep
  have hext := extends_step s t hstep
  exact ⟨hext.cfg, hext.length⟩

/-! ### The caller's move -/

/-- The bus shows the latch of a data line that is an output (20_memory R42). -/
theorem bus_data_of_output {c : Cfg} {ls : Lines} {i : Nat} (h : (ls.get (.d i)).dir = .output) :
    bus c ls (.d i) = .ofLat (ls.get (.d i)).lat := by
  simp only [bus, h]

/-- A data line after all of them were configured keeps its latch. -/
theorem get_data_map_dir (ls : Lines) (dir : LineDir) {i : Nat} (hi : i < ls.data.length) :
    ({ ls with data := ls.data.map fun l => ⟨dir, l.lat⟩ } : Lines).get (.d i) = ⟨dir, (ls.get (.d i)).lat⟩ := by
  simp [Lines.get, hi]

/-- Settles O15: `RESTORE_OUT` is one `CfgOut` per data line, which sets directions and no latch. -/
theorem restoreOutMakesTheDataLinesOutputs : Obligations.RestoreOutMakesTheDataLinesOutputs := by
  intro s rest hs hport
  obtain ⟨hseq, hmode, -, hresult, hcfg, hrest, -, -, hnow, evs, htrace, hkinds, -⟩ :=
    cfgOutAll_spec (s.withPort rest) s.cfg.n
  have hlines := restoreOut_lines (s.withPort rest) hs.n_eq
  refine ⟨_, evs, step_of_restoreOut hs.idle hport, htrace, hkinds, hlines, fun i hi => ?_, rfl, hmode, hresult, hcfg,
    hseq.trans hs.idle, hrest, hnow⟩
  have hget := get_data_map_dir s.lines .output (hs.n_eq ▸ hi)
  rw [hlines, withPort_lines, bus_data_of_output (by rw [hget]), hget]

/-! ### READ's second reconfiguration -/

/-- READ before its second reconfiguration: the entry and the read cycles (40_bus_transport R75, steps 1 to 3). -/
def readBody (c : Cfg) (n : Nat) : List Stmt := readEntry c ++ (List.replicate (n + 1) (readUnitStmts c)).flatten

theorem readStmts_eq_readBody (c : Cfg) (n : Nat) : readStmts c (n + 1) = readBody c n ++ dataLinesIn c := by
  rw [readStmts_succ, readBody, List.append_assoc]

/-- READ's first reconfiguration has made every data line an input, and its cycles keep it so. -/
theorem linesAfterAll_readBody_input {ls : Lines} {c : Cfg} (h : c.n = ls.data.length) (n : Nat) :
    ∀ l ∈ (linesAfterAll ls (readBody c n)).data, l.dir = .input := by
  rw [readBody, linesAfterAll_append, linesAfterAll_readUnits, if_neg (Nat.succ_ne_zero n), Lines.setLat_e_data,
    linesAfterAll_readEntry ls c h]
  exact List.forall_mem_map.mpr fun l _ => rfl

/-- Input data lines configured as inputs stay as they are (R139). -/
theorem linesAfterAll_dataLinesIn_of_input {ls : Lines} {c : Cfg} (h : c.n = ls.data.length)
    (hin : ∀ l ∈ ls.data, l.dir = .input) : linesAfterAll ls (dataLinesIn c) = ls := by
  rw [linesAfterAll_dataLinesIn ls c h, Lines.map_dir_of_all ls .input hin]

theorem setsMode_dataLinesIn (c : Cfg) : ∀ st ∈ dataLinesIn c, st.setsMode = false := by
  simp [dataLinesIn, Stmt.setsMode]

/-- A reconfiguration's events are its `CfgIn`s, with no time left free but the start. -/
theorem eventsOf_dataLinesIn_kind (s : State) (c : Cfg) :
    (eventsOf s (dataLinesIn c)).map (fun ev => ev.kind) = (List.range c.n).map fun i => .cfgIn (.d i) := by
  rw [dataLinesIn]
  generalize List.range c.n = lines
  induction lines generalizing s with
  | nil => rfl
  | cons i lines ih => exact congrArg (.cfgIn (.d i) :: ·) (ih _)

/-- Settles O33: the second reconfiguration finds every data line an input already. -/
theorem secondReconfigurationChangesNothing : Obligations.SecondReconfigurationChangesNothing := by
  intro s n hwf
  have hn : s.cfg.n = s.lines.data.length := (beq_iff_eq.mp hwf).symm
  refine ⟨readBody s.cfg n, readStmts_eq_readBody s.cfg n, ?_⟩
  rintro u rfl
  let u := runStmts (s.accept (.read (n + 1))) (readBody s.cfg n)
  have hu : u.lines = linesAfterAll s.lines (readBody s.cfg n) := runStmts_lines _ _
  have hquiet := setsMode_dataLinesIn s.cfg
  have hlines : (runStmts u (dataLinesIn s.cfg)).lines = u.lines := by
    rw [runStmts_lines, linesAfterAll_dataLinesIn_of_input]
    · rw [hu, linesAfterAll_length]; exact hn
    · rw [hu]; exact linesAfterAll_readBody_input hn n
  refine ⟨hlines, fun line => congrArg (bus s.cfg · line) hlines, ?_, ?_, _, runStmts_trace u (dataLinesIn s.cfg),
    eventsOf_dataLinesIn_kind u s.cfg⟩
  · rw [runStmts_dir, foldl_dirAfter_of_none _ _ fun st hst => dirAfter_of_not_setsMode (hquiet st hst)]
  · rw [runStmts_rsMode, foldl_modeAfter_of_none _ _ fun st hst => modeAfter_of_not_setsMode (hquiet st hst)]

/-! ### WRNIB at the write level -/

/-- Settles O26: with `RW` at the write level each pulse certainly latches what the bus shows, on output lines the nibble
sent, and the trailing pulse finds the last one still there. -/
theorem wrnibLatchesTheLastNibbleTwice : Obligations.WrnibLatchesTheLastNibbleTwice := by
  intro s p hs hfour hout he hrw
  have hn := Cfg.wf_four hs.cfgWf hfour
  obtain ⟨t, n, status, htrace⟩ := perform_events (i := .wrnib p) hs.idle
  refine ⟨_, _, exec_of_runs (beq_iff_eq.mpr hfour), htrace, ?_⟩
  rw [latchedFrom_request]
  refine (contents_wrnib_eq (hs.allDir hout) hn he (s.accept (.wrnib p)) p).trans ?_
  rw [unitWith_write (cycleKind_wrnibStart hrw), bus_rs_of_rs s.cfg _ _ (wrnibStart_rs s.cfg s.lines),
    wrnibData_driven hn (sentData_output s.cfg)]
  exact List.flatMap_pure_eq_map _ _

end Sys2Proof.Machine
end

section
/-! PROOFS. The reset and hazards family (70_reset_and_hazards R138): events in their context over the statements of a
request, and READ's entry without contention. -/

namespace Sys2Proof.Machine

/-! ### Events in their context, statement by statement -/

/-- A request's events in their context: `Begin` and `End` around those of its statements (40_bus_transport R71). -/
theorem seenFrom_request (ls : Lines) (req : Option Desc) (q : Desc) (t u n : Nat) (st : Status) (evs : List Event) :
    seenFrom ls req (⟨t, .beginReq q⟩ :: evs ++ [⟨u, .endReq n st⟩]) =
      [⟨ls, req, ⟨t, .beginReq q⟩⟩] ++ seenFrom ls (some q) evs ++
        [⟨replayLines ls evs, requestAfterAll (some q) evs, ⟨u, .endReq n st⟩⟩] := by
  rw [List.cons_append, seenFrom, seenFrom_append]
  rfl

theorem seenFrom_eventsOf_append (ls : Lines) (req : Option Desc) (s : State) (l m : List Stmt) :
    seenFrom ls req (eventsOf s (l ++ m)) = seenFrom ls req (eventsOf s l) ++
      seenFrom (linesAfterAll ls l) (requestAfterAll req (eventsOf s l)) (eventsOf (runStmts s l) m) := by
  rw [eventsOf_append, seenFrom_append, replayLines_eventsOf]

/-- The event of a first statement in its context, if it emits one, is seen under the lines before it. -/
theorem seenFrom_eventsOf_cons (ls : Lines) (req : Option Desc) (s : State) (st : Stmt) (l : List Stmt) :
    seenFrom ls req (eventsOf s (st :: l)) = seenFrom ls req (stmtEvents s st) ++
      seenFrom (st.linesAfter ls) (requestAfterAll req (stmtEvents s st)) (eventsOf (runStmt s st) l) := by
  rw [eventsOf_cons, seenFrom_append, replayLines_stmtEvents]

theorem lines_of_mem_seenFrom_stmtEvents {ls : Lines} {req : Option Desc} {s : State} {st : Stmt} {x : Seen}
    (hx : x ∈ seenFrom ls req (stmtEvents s st)) : x.lines = ls := by
  cases st <;> simp_all [stmtEvents, seenFrom]

/-- A statement that does not drive a line leaves its latch as it was (20_memory R36 to R40). -/
theorem Stmt.linesAfter_lat {st : Stmt} {m : Line} (h : ∀ lvl, st ≠ .drive m lvl) (ls : Lines) :
    ((st.linesAfter ls).get m).lat = (ls.get m).lat := by
  cases st with
  | cfgIn l => exact Lines.get_setDir_lat ls l m .input
  | drive l lvl =>
    have hlm : l ≠ m := fun hlm => h lvl (hlm ▸ rfl)
    exact congrArg LineState.lat (Lines.get_setLat_other ls l m lvl hlm)
  | _ => rfl

/-- Statements that do not drive a line see its latch as it was before them. -/
theorem lat_of_mem_seenFrom {l : List Stmt} {m : Line} (h : ∀ st ∈ l, ∀ lvl, st ≠ .drive m lvl) {ls : Lines}
    {req : Option Desc} {s : State} {x : Seen} (hx : x ∈ seenFrom ls req (eventsOf s l)) :
    (x.lines.get m).lat = (ls.get m).lat := by
  induction l generalizing ls req s with
  | nil => cases hx
  | cons st l ih =>
    obtain ⟨hst, hl⟩ := List.forall_mem_cons.mp h
    rw [seenFrom_eventsOf_cons] at hx
    rcases List.mem_append.mp hx with hx | hx
    · rw [lines_of_mem_seenFrom_stmtEvents hx]
    · rw [ih hl hx, Stmt.linesAfter_lat hst]

/-! ### Statements that do not drive `E` -/

theorem ne_drive_of_not_drivesEnable {l : List Stmt} (h : ∀ st ∈ l, st.drivesEnable = false) :
    ∀ st ∈ l, ∀ lvl, st ≠ .drive .e lvl := by
  rintro st hst lvl rfl
  exact absurd (h _ hst) (by simp [Stmt.drivesEnable])

/-- Over statements that do not drive `E` its latch is seen as it was. -/
theorem enable_of_mem_seenFrom {l : List Stmt} (h : ∀ st ∈ l, st.drivesEnable = false) {ls : Lines}
    {req : Option Desc} {s : State} {x : Seen} (hx : x ∈ seenFrom ls req (eventsOf s l)) :
    x.lines.e.lat = ls.e.lat :=
  lat_of_mem_seenFrom (m := .e) (ne_drive_of_not_drivesEnable h) hx

theorem linesAfterAll_enable {l : List Stmt} (h : ∀ st ∈ l, st.drivesEnable = false) (ls : Lines) :
    (linesAfterAll ls l).e.lat = ls.e.lat := by
  induction l generalizing ls with
  | nil => rfl
  | cons st l ih =>
    obtain ⟨hst, hl⟩ := List.forall_mem_cons.mp h
    rw [linesAfterAll_cons, ih hl]
    exact Stmt.linesAfter_lat (m := .e) (ne_drive_of_not_drivesEnable h st List.mem_cons_self) ls

/-- Only a drive of `E` can be a rise (20_memory R44). -/
theorem isRise_of_not_drivesEnable {x : Seen} (h : x.ev.kind.drivesEnable = false) : x.isRise = false := by
  have hkind : x.ev.kind ≠ .drive .e .high := fun hkind => by simp [hkind, EventKind.drivesEnable] at h
  simp [Seen.isRise, hkind]

/-- Only a drive of `E` can be a fall (R43). -/
theorem isFall_of_not_drivesEnable {x : Seen} (h : x.ev.kind.drivesEnable = false) : x.isFall = false := by
  have hkind : x.ev.kind ≠ .drive .e .low := fun hkind => by simp [hkind, EventKind.drivesEnable] at h
  simp [Seen.isFall, hkind]

theorem drivesEnable_of_mem_seenFrom {l : List Stmt} (h : ∀ st ∈ l, st.drivesEnable = false) {ls : Lines}
    {req : Option Desc} {s : State} {x : Seen} (hx : x ∈ seenFrom ls req (eventsOf s l)) :
    x.ev.kind.drivesEnable = false :=
  drivesEnable_eventsOf h s x.ev (ev_mem_of_mem_seenFrom hx)

theorem drivesEnable_put (v : Byte) (n : Nat) : ∀ st ∈ put v n, st.drivesEnable = false := by
  simp [put, Stmt.drivesEnable]

theorem drivesEnable_tapIfAll (c : Cfg) (v : Byte) (w : Nat) : ∀ st ∈ tapIfAll c v w, st.drivesEnable = false := by
  unfold tapIfAll; split <;> simp [Stmt.drivesEnable]

theorem drivesEnable_optionalDrive (c : Cfg) :
    ∀ st ∈ (if c.wnDrivesRw then [Stmt.drive .rw c.rwWriteLevel] else []), st.drivesEnable = false := by
  split <;> simp [Stmt.drivesEnable]

theorem drivesEnable_readEntry (c : Cfg) : ∀ st ∈ readEntry c, st.drivesEnable = false :=
  List.forall_mem_cons.mpr ⟨rfl, List.forall_mem_append.mpr ⟨drivesEnable_dataLinesIn c, by simp [Stmt.drivesEnable]⟩⟩

/-! ### READ's entry -/

/-- An event at which the transport does not meet a driving display: no rise that finds a data line still an output,
and `E` low where a data line becomes an input or `RS` or `RW` is driven (70_reset_and_hazards R138). -/
def turnsSafely (c : Cfg) (x : Seen) : Prop :=
  contention c x = false ∧
    ((x.ev.kind.isCfgIn = true ∨ x.ev.kind.drivesSelect = true) → x.lines.e.lat = some .low)

theorem contention_of_not_drivesEnable (c : Cfg) {x : Seen} (h : x.ev.kind.drivesEnable = false) :
    contention c x = false := by
  simp [contention, isRise_of_not_drivesEnable h]

theorem contention_of_input (c : Cfg) {x : Seen} (h : ∀ l ∈ x.lines.data, l.dir = .input) : contention c x = false := by
  have hany : (x.lines.data.any fun l => decide (l.dir = .output)) = false :=
    List.any_eq_false.mpr fun l hl => by simp [h l hl]
  rw [contention, hany, Bool.and_false]

/-- `Begin` and `End` are no calls, and turn nothing round. -/
theorem turnsSafely_of_not_inside (c : Cfg) {x : Seen} (h : x.ev.kind.inside = false) : turnsSafely c x := by
  obtain ⟨ls, req, t, kind⟩ := x
  cases kind with
  | beginReq q => exact ⟨contention_of_not_drivesEnable c rfl, nofun⟩
  | endReq n st => exact ⟨contention_of_not_drivesEnable c rfl, nofun⟩
  | _ => cases h

/-- Statements that do not drive `E`, from `E` low on. -/
theorem turnsSafely_quiet (c : Cfg) {l : List Stmt} (h : ∀ st ∈ l, st.drivesEnable = false) {ls : Lines}
    (he : ls.e.lat = some .low) (req : Option Desc) (s : State) :
    ∀ x ∈ seenFrom ls req (eventsOf s l), turnsSafely c x := fun _ hx =>
  ⟨contention_of_not_drivesEnable c (drivesEnable_of_mem_seenFrom h hx), fun _ => (enable_of_mem_seenFrom h hx).trans he⟩

/-- Whether a statement leaves every line but `E` alone. -/
def Stmt.sparesOthers : Stmt → Bool
  | .cfgIn _ => false
  | .drive l _ => decide (l = .e)
  | _ => true

theorem sparesOthers_of_untouched {l : List Stmt} (h : ∀ st ∈ l, st.touchesLines = false) :
    ∀ st ∈ l, st.sparesOthers = true := by
  intro st hst
  have hst := h st hst
  cases st with
  | cfgIn l => cases hst
  | drive l lvl => cases hst
  | _ => rfl

theorem sparesOthers_readCycle (c : Cfg) (n : Nat) : ∀ st ∈ readCycle c n, st.sparesOthers = true :=
  List.forall_mem_append.mpr ⟨List.forall_mem_append.mpr ⟨List.forall_mem_cons.mpr ⟨rfl,
    sparesOthers_of_untouched (untouched_hold _)⟩, sparesOthers_of_untouched (untouched_get n)⟩,
    List.forall_mem_cons.mpr ⟨rfl, sparesOthers_of_untouched (untouched_hold _)⟩⟩

theorem sparesOthers_readUnit (c : Cfg) : ∀ st ∈ readUnitStmts c, st.sparesOthers = true := by
  unfold readUnitStmts
  cases c.width with
  | eight => exact List.forall_mem_append.mpr ⟨sparesOthers_readCycle c 8, by simp [Stmt.sparesOthers]⟩
  | four =>
    exact List.forall_mem_append.mpr ⟨List.forall_mem_append.mpr ⟨sparesOthers_readCycle c 4,
      List.forall_mem_cons.mpr ⟨rfl, sparesOthers_readCycle c 4⟩⟩, by simp [Stmt.sparesOthers]⟩

theorem sparesOthers_readUnits (c : Cfg) (k : Nat) :
    ∀ st ∈ (List.replicate k (readUnitStmts c)).flatten, st.sparesOthers = true := by
  intro st hst
  obtain ⟨l, hl, hst⟩ := List.mem_flatten.mp hst
  exact sparesOthers_readUnit c st (List.eq_of_mem_replicate hl ▸ hst)

/-- Statements that leave every line but `E` alone see the data lines as they were. -/
theorem data_of_mem_seenFrom {l : List Stmt} (h : ∀ st ∈ l, st.sparesOthers = true) {ls : Lines} {req : Option Desc}
    {s : State} {x : Seen} (hx : x ∈ seenFrom ls req (eventsOf s l)) :
    x.lines.data = ls.data ∧ x.ev.kind.isCfgIn = false ∧ x.ev.kind.drivesSelect = false := by
  induction l generalizing ls req s with
  | nil => cases hx
  | cons st l ih =>
    obtain ⟨hst, hl⟩ := List.forall_mem_cons.mp h
    rw [seenFrom_eventsOf_cons] at hx
    have hdata : (st.linesAfter ls).data = ls.data := by
      cases st with
      | cfgIn l => cases hst
      | drive l lvl => obtain rfl := of_decide_eq_true hst; rfl
      | _ => rfl
    rcases List.mem_append.mp hx with hx | hx
    · have hlines := lines_of_mem_seenFrom_stmtEvents hx
      cases st with
      | cfgIn l => cases hst
      | drive l lvl =>
        obtain rfl := of_decide_eq_true hst
        obtain rfl := List.mem_singleton.mp hx
        exact ⟨rfl, rfl, rfl⟩
      | sleep t | tap v w | sampleBit i =>
        obtain rfl := List.mem_singleton.mp hx
        exact ⟨rfl, rfl, rfl⟩
      | _ => cases hx
    · obtain ⟨hrest, hkind⟩ := ih hl hx
      exact ⟨hrest.trans hdata, hkind⟩

/-- READ's cycles find every data line an input, and turn nothing round. -/
theorem turnsSafely_readUnits {c : Cfg} {ls : Lines} (hin : ∀ l ∈ ls.data, l.dir = .input) (k : Nat)
    (req : Option Desc) (s : State) :
    ∀ x ∈ seenFrom ls req (eventsOf s (List.replicate k (readUnitStmts c)).flatten), turnsSafely c x := by
  intro x hx
  obtain ⟨hdata, hcfg, hselect⟩ := data_of_mem_seenFrom (sparesOthers_readUnits c k) hx
  exact ⟨contention_of_input c (hdata ▸ hin), fun h => by simp [hcfg, hselect] at h⟩

/-- READ of a positive length: the entry and the second reconfiguration with `E` low, the cycles between them with every
data line an input. -/
theorem turnsSafely_read {c : Cfg} {ls : Lines} (hn : c.n = ls.data.length) (he : ls.e.lat = some .low) (n : Nat)
    (req : Option Desc) (s : State) :
    ∀ x ∈ seenFrom ls req (eventsOf s (readStmts c (n + 1))), turnsSafely c x := by
  have hin : ∀ l ∈ (linesAfterAll ls (readEntry c)).data, l.dir = .input := by
    rw [linesAfterAll_readEntry ls c hn]
    exact List.forall_mem_map.mpr fun l _ => rfl
  have hlow : (linesAfterAll ls (readBody c n)).e.lat = some .low := by
    rw [readBody, linesAfterAll_append, linesAfterAll_readUnits, if_neg (Nat.succ_ne_zero n)]
    rfl
  rw [readStmts_eq_readBody, seenFrom_eventsOf_append]
  refine List.forall_mem_append.mpr ⟨?_, turnsSafely_quiet c (drivesEnable_dataLinesIn c) hlow _ _⟩
  rw [readBody, seenFrom_eventsOf_append]
  exact List.forall_mem_append.mpr ⟨turnsSafely_quiet c (drivesEnable_readEntry c) he req s,
    turnsSafely_readUnits hin (n + 1) _ _⟩

/-- Settles O34: at a boundary `E` is low; `Begin` and `End` turn nothing round, and READ's statements turn safely. -/
theorem readEntryHasNoContention : Obligations.ReadEntryHasNoContention := by
  intro s n hs hpos
  obtain ⟨m, rfl⟩ := Nat.exists_eq_succ_of_ne_zero hpos.ne'
  obtain ⟨t, k, status, htrace⟩ := perform_events (i := .read (m + 1)) hs.idle
  refine ⟨_, _, rfl, htrace, ?_⟩
  rw [seenFrom_request]
  exact List.forall_mem_append.mpr ⟨List.forall_mem_append.mpr
    ⟨List.forall_mem_singleton.mpr (turnsSafely_of_not_inside _ rfl), turnsSafely_read hs.n_eq hs.enableLow m _ _⟩,
    List.forall_mem_singleton.mpr (turnsSafely_of_not_inside _ rfl)⟩

end Sys2Proof.Machine
end

section
/-! PROOFS. The reset and hazards family (70_reset_and_hazards R130 to R133): setup and hold on the write path, inside a
request and across requests. -/

namespace Sys2Proof.Machine

/-! ### The pieces of WRITE and WRNIB -/

/-- A property of lists of statements that the pieces of WRITE and WRNIB have (taps, PUTs and PULSEs) and that passes to
what is made of them (40_bus_transport R73, R74). -/
structure HoldsOfPieces (c : Cfg) (Q : List Stmt → Prop) : Prop where
  nil : Q []
  append : ∀ {l m}, Q l → Q m → Q (l ++ m)
  tap : ∀ v w, Q [.tap v w]
  put : ∀ v n, Q (put v n)
  pulse : Q (pulse c)

section
variable {c : Cfg} {Q : List Stmt → Prop} (h : HoldsOfPieces c Q)
include h

theorem HoldsOfPieces.tapIfAll (v : Byte) (w : Nat) : Q (tapIfAll c v w) := by
  unfold Machine.tapIfAll
  split
  · exact h.tap v w
  · exact h.nil

/-- A unit with its tap. -/
theorem HoldsOfPieces.unit (v : Byte) (n : Nat) : Q (.tap v n :: Machine.put v n ++ Machine.pulse c) :=
  h.append (h.append (l := [.tap v n]) (h.tap v n) (h.put v n)) h.pulse

theorem HoldsOfPieces.writeByte (v : Byte) : Q (writeByteStmts c v) := by
  unfold writeByteStmts
  cases c.width with
  | eight => exact h.append (h.append (h.tapIfAll v 8) (h.put v 8)) h.pulse
  | four => exact h.append (h.unit (hiNibble v) 4) (h.unit (loNibble v) 4)

theorem HoldsOfPieces.wrnibElem (v : Byte) : Q (wrnibElemStmts c v) :=
  h.append (h.append (h.tapIfAll (loNibble v) 4) (h.put (loNibble v) 4)) h.pulse

theorem HoldsOfPieces.flatMap {f : Byte → List Stmt} (hf : ∀ v, Q (f v)) (p : List Byte) : Q (p.flatMap f) := by
  induction p with
  | nil => exact h.nil
  | cons v p ih => exact h.append (hf v) ih

theorem HoldsOfPieces.writeBytes (p : List Byte) : Q (p.flatMap (writeByteStmts c)) :=
  h.flatMap h.writeByte p

/-- WRNIB's elements and its trailing pulse. -/
theorem HoldsOfPieces.wrnibElems (p : List Byte) : Q (p.flatMap (wrnibElemStmts c) ++ Machine.pulse c) :=
  h.append (h.flatMap h.wrnibElem p) h.pulse

end

/-! ### Strobes within a stretch of time -/

/-- What R130 to R133 ask of an event and a later one. -/
structure StrobeGaps (c : Cfg) (a b : Seen) : Prop where
  beforeRise : b.isRise = true → a.ev.t + c.tEl ≤ b.ev.t
  riseToRise : a.isRise = true → b.isRise = true → a.ev.t + (c.tEh + c.tSettle + c.tEl) ≤ b.ev.t
  riseToFall : a.isRise = true → b.isFall = true → a.ev.t + c.tEh ≤ b.ev.t
  dataToFall : a.drivesData = true → b.isFall = true → a.ev.t + (c.tEl + c.tEh) ≤ b.ev.t
  fallToChange : a.isFall = true → b.changesBus = true → a.ev.t + c.tSettle ≤ b.ev.t

theorem strobeGaps_iff (c : Cfg) (a b : Seen) : StrobeGaps c a b ↔
    (b.isRise = true → a.ev.t + c.tEl ≤ b.ev.t) ∧
    (a.isRise = true → b.isRise = true → a.ev.t + (c.tEh + c.tSettle + c.tEl) ≤ b.ev.t) ∧
    (a.isRise = true → b.isFall = true → a.ev.t + c.tEh ≤ b.ev.t) ∧
    (a.drivesData = true → b.isFall = true → a.ev.t + (c.tEl + c.tEh) ≤ b.ev.t) ∧
    (a.isFall = true → b.changesBus = true → a.ev.t + c.tSettle ≤ b.ev.t) :=
  ⟨fun ⟨h1, h2, h3, h4, h5⟩ => ⟨h1, h2, h3, h4, h5⟩, fun ⟨h1, h2, h3, h4, h5⟩ => ⟨h1, h2, h3, h4, h5⟩⟩

/-- Events between `t` and `u` with what R130 to R133 ask of them, and with room before every strobe and after it, so
that a stretch can follow another: PULSE begins with `T_EL` and ends with `T_SETTLE` (41_enable_sequencer R83). -/
structure StrobesWithin (c : Cfg) (t u : Nat) (xs : List Seen) : Prop where
  within : ∀ x ∈ xs, t ≤ x.ev.t ∧ x.ev.t ≤ u
  rises : ∀ x ∈ xs, x.isRise = true → t + c.tEl ≤ x.ev.t ∧ x.ev.t + (c.tEh + c.tSettle) ≤ u
  falls : ∀ x ∈ xs, x.isFall = true → t + (c.tEl + c.tEh) ≤ x.ev.t ∧ x.ev.t + c.tSettle ≤ u
  enableLow : ∀ x ∈ xs, x.drivesData = true → x.lines.e.lat = some .low
  gaps : xs.Pairwise (StrobeGaps c)

/-- One stretch after another: the room that each leaves around its strobes makes the gaps between them. -/
theorem StrobesWithin.append {c : Cfg} {t u w : Nat} {xs ys : List Seen} (hx : StrobesWithin c t u xs)
    (hy : StrobesWithin c u w ys) (htu : t ≤ u) (huw : u ≤ w) : StrobesWithin c t w (xs ++ ys) where
  within := List.forall_mem_append.mpr ⟨fun x h => ⟨(hx.within x h).1, (hx.within x h).2.trans huw⟩,
    fun y h => ⟨htu.trans (hy.within y h).1, (hy.within y h).2⟩⟩
  rises := List.forall_mem_append.mpr
    ⟨fun x h hr => by have := hx.rises x h hr; omega, fun y h hr => by have := hy.rises y h hr; omega⟩
  falls := List.forall_mem_append.mpr
    ⟨fun x h hf => by have := hx.falls x h hf; omega, fun y h hf => by have := hy.falls y h hf; omega⟩
  enableLow := List.forall_mem_append.mpr ⟨hx.enableLow, hy.enableLow⟩
  gaps := by
    refine List.pairwise_append.mpr ⟨hx.gaps, hy.gaps, fun x hxs y hys => ?_⟩
    have hbefore := (hx.within x hxs).2
    have hafter := (hy.within y hys).1
    constructor
    case beforeRise => intro hr; have := hy.rises y hys hr; omega
    case riseToRise => intro hr hr'; have := hx.rises x hxs hr; have := hy.rises y hys hr'; omega
    case riseToFall => intro hr _; have := hx.rises x hxs hr; omega
    case dataToFall => intro _ hf; have := hy.falls y hys hf; omega
    case fallToChange => intro hf _; have := hx.falls x hxs hf; omega

/-- Events that do not drive `E` are no strobes. -/
theorem strobesWithin_quiet {c : Cfg} {t u : Nat} {xs : List Seen} (h : ∀ x ∈ xs, x.ev.kind.drivesEnable = false)
    (hlow : ∀ x ∈ xs, x.drivesData = true → x.lines.e.lat = some .low)
    (hwithin : ∀ x ∈ xs, t ≤ x.ev.t ∧ x.ev.t ≤ u) : StrobesWithin c t u xs := by
  have hrise : ∀ x ∈ xs, ¬ x.isRise = true := fun x hx => by simp [isRise_of_not_drivesEnable (h x hx)]
  have hfall : ∀ x ∈ xs, ¬ x.isFall = true := fun x hx => by simp [isFall_of_not_drivesEnable (h x hx)]
  exact ⟨hwithin, fun x hx hr => absurd hr (hrise x hx), fun x hx hf => absurd hf (hfall x hx), hlow,
    List.pairwise_of_forall_mem_list fun a ha b hb =>
      ⟨fun hr => absurd hr (hrise b hb), fun hr => absurd hr (hrise a ha), fun hr => absurd hr (hrise a ha),
        fun _ hf => absurd hf (hfall b hb), fun hf => absurd hf (hfall a ha)⟩⟩

/-! ### The strobes of statements -/

/-- Wherever the statements start with `E` low, they keep R130 to R133 while they run, and leave `E` low. -/
def KeepsStrobes (c : Cfg) (l : List Stmt) : Prop :=
  ∀ ls : Lines, ls.e.lat = some .low → (linesAfterAll ls l).e.lat = some .low ∧
    ∀ req s, StrobesWithin c s.now (runStmts s l).now (seenFrom ls req (eventsOf s l))

theorem keepsStrobes_append {c : Cfg} {l m : List Stmt} (hl : KeepsStrobes c l) (hm : KeepsStrobes c m) :
    KeepsStrobes c (l ++ m) := by
  intro ls he
  obtain ⟨hmid, hl⟩ := hl ls he
  obtain ⟨hend, hm⟩ := hm _ hmid
  refine ⟨by rwa [linesAfterAll_append], fun req s => ?_⟩
  rw [seenFrom_eventsOf_append, runStmts_append]
  exact (hl req s).append (hm _ _) (runStmts_now_le s l) (runStmts_now_le _ m)

theorem keepsStrobes_quiet (c : Cfg) {l : List Stmt} (h : ∀ st ∈ l, st.drivesEnable = false) : KeepsStrobes c l :=
  fun ls he => ⟨(linesAfterAll_enable h ls).trans he, fun _ s => strobesWithin_quiet
    (fun _ hx => drivesEnable_of_mem_seenFrom h hx) (fun _ hx _ => (enable_of_mem_seenFrom h hx).trans he)
    fun x hx => eventsOf_within s l x.ev (ev_mem_of_mem_seenFrom hx)⟩

/-- The hold after a drive of `E` is over before the next statement, counted from its own start too. -/
theorem eventsOf_driveThenSleep_hold (s : State) (lvl : Level) (t : Nat) : ∃ u x,
    eventsOf s (driveThenSleep lvl t) = [⟨s.now, .drive .e lvl⟩, ⟨u, .sleep t x⟩] ∧ s.now ≤ u ∧
      u + t ≤ (runStmts s (driveThenSleep lvl t)).now :=
  ⟨_, _, rfl, runStmts_now_le s [.drive .e lvl], runStmt_now (runStmt s (.drive .e lvl)) (.sleep t)⟩

/-- PULSE's events, each hold over before the next drive (41_enable_sequencer R83). -/
theorem eventsOf_pulse (s : State) (c : Cfg) : ∃ t1 rise t3 fall t5 x1 x2 x3,
    eventsOf s (pulse c) = [⟨s.now, .drive .e .low⟩, ⟨t1, .sleep c.tEl x1⟩, ⟨rise, .drive .e .high⟩,
      ⟨t3, .sleep c.tEh x2⟩, ⟨fall, .drive .e .low⟩, ⟨t5, .sleep c.tSettle x3⟩] ∧
    s.now ≤ t1 ∧ t1 + c.tEl ≤ rise ∧ rise ≤ t3 ∧ t3 + c.tEh ≤ fall ∧ fall ≤ t5 ∧
      t5 + c.tSettle ≤ (runStmts s (pulse c)).now := by
  obtain ⟨t1, x1, hlow, ht1, hrise⟩ := eventsOf_driveThenSleep_hold s .low c.tEl
  obtain ⟨t3, x2, hhigh, ht3, hfall⟩ := eventsOf_driveThenSleep_hold (runStmts s (driveThenSleep .low c.tEl)) .high c.tEh
  obtain ⟨t5, x3, hsettle, ht5, hend⟩ := eventsOf_driveThenSleep_hold
    (runStmts (runStmts s (driveThenSleep .low c.tEl)) (driveThenSleep .high c.tEh)) .low c.tSettle
  rw [pulse_eq_driveThenSleep, eventsOf_append, eventsOf_append, runStmts_append, runStmts_append, hlow, hhigh, hsettle]
  exact ⟨t1, _, t3, _, t5, x1, x2, x3, rfl, ht1, hrise, ht3, hfall, ht5, hend⟩

/-- PULSE from `E` low is one rise and one fall: its first drive is no edge. -/
theorem keepsStrobes_pulse (c : Cfg) : KeepsStrobes c (pulse c) := by
  intro ls he
  refine ⟨rfl, fun req s => ?_⟩
  obtain ⟨t1, rise, t3, fall, t5, x1, x2, x3, hevents, ht1, hrise, ht3, hfall, ht5, hend⟩ := eventsOf_pulse s c
  rw [hevents]
  constructor
  case within => simp [seenFrom]; omega
  case rises => simp [seenFrom, Seen.isRise, Lines.after, he]; omega
  case falls => simp [seenFrom, Seen.isFall, Lines.after, he]; omega
  case enableLow => simp [seenFrom, Seen.drivesData, EventKind.drivesData]
  case gaps =>
    simp [seenFrom, strobeGaps_iff, Seen.isRise, Seen.isFall, Seen.drivesData, Seen.changesBus, EventKind.drivesData,
      EventKind.drivesSelect, Lines.after, he]
    omega

theorem holdsOfPieces_keepsStrobes (c : Cfg) : HoldsOfPieces c (KeepsStrobes c) where
  nil := keepsStrobes_quiet c (by simp)
  append := keepsStrobes_append
  tap _ _ := keepsStrobes_quiet c (by simp [Stmt.drivesEnable])
  put v n := keepsStrobes_quiet c (drivesEnable_put v n)
  pulse := keepsStrobes_pulse c

theorem keepsStrobes_write (c : Cfg) (p : List Byte) : KeepsStrobes c (writeStmts c p) :=
  keepsStrobes_append (l := [.drive .rw c.rwWriteLevel]) (keepsStrobes_quiet c (by simp [Stmt.drivesEnable]))
    ((holdsOfPieces_keepsStrobes c).writeBytes p)

theorem keepsStrobes_wrnib (c : Cfg) (p : List Byte) : KeepsStrobes c (wrnibStmts c p) := by
  rw [wrnibStmts, List.append_assoc]
  exact keepsStrobes_append (keepsStrobes_quiet c (drivesEnable_optionalDrive c))
    ((holdsOfPieces_keepsStrobes c).wrnibElems p)

/-! ### The strobes of a request -/

/-- `Begin` and `End` are no calls. -/
theorem strobesWithin_bare (c : Cfg) (ls : Lines) (req : Option Desc) {ev : Event} (h : ev.kind.inside = false) :
    StrobesWithin c ev.t ev.t [⟨ls, req, ev⟩] := by
  obtain ⟨t, kind⟩ := ev
  refine strobesWithin_quiet (List.forall_mem_singleton.mpr ?_) (List.forall_mem_singleton.mpr ?_)
    (List.forall_mem_singleton.mpr ⟨le_rfl, le_rfl⟩)
  all_goals
    cases kind with
    | beginReq q => simp [EventKind.drivesEnable, Seen.drivesData, EventKind.drivesData]
    | endReq n st => simp [EventKind.drivesEnable, Seen.drivesData, EventKind.drivesData]
    | _ => cases h

/-- A request that runs keeps R130 to R133 where its statements do. -/
theorem strobesWithin_perform {s : State} {i : Instr} (hidle : s.seq = .idle) (he : s.lines.e.lat = some .low)
    (h : KeepsStrobes s.cfg (stmtsOf s.cfg i)) : ∃ evs, (perform i s).trace = s.trace ++ evs ∧
      StrobesWithin s.cfg s.now (perform i s).now (seenFrom s.lines none evs) := by
  obtain ⟨-, -, -, -, -, -, -, htrace⟩ := perform_effect i s hidle
  obtain ⟨-, hstmts⟩ := h s.lines he
  have hnow := runStmts_now_le (s.accept i) (stmtsOf s.cfg i)
  rw [← perform_now hidle] at hnow
  refine ⟨_, htrace, ?_⟩
  rw [seenFrom_request]
  refine ((strobesWithin_bare s.cfg _ _ (ev := ⟨s.now, _⟩) rfl).append ?_ le_rfl hnow).append
    (strobesWithin_bare s.cfg _ _ (ev := ⟨_, _⟩) rfl) hnow le_rfl
  rw [perform_now hidle]
  exact hstmts _ (s.accept i)

/-- A refusal has `Begin` and `End` alone. -/
theorem strobesWithin_refuse (s : State) (q : Desc) (reason : RefuseReason) :
    ∃ evs, (s.refuse q reason).trace = s.trace ++ evs ∧
      StrobesWithin s.cfg s.now (s.refuse q reason).now (seenFrom s.lines none evs) :=
  ⟨_, List.append_assoc .., (strobesWithin_bare s.cfg _ _ (ev := ⟨s.now, .beginReq q⟩) rfl).append
    (strobesWithin_bare s.cfg _ _ (ev := ⟨s.now, .endReq 0 (.refused reason)⟩) rfl) le_rfl le_rfl⟩

/-- WRITE and WRNIB keep R130 to R133 from `E` low on; a WRNIB in Eight mode is refused. -/
theorem strobesWithin_exec {s : State} (hidle : s.seq = .idle) (he : s.lines.e.lat = some .low) {i : Instr}
    (hi : (∃ p, i = .write p) ∨ ∃ p, i = .wrnib p) : ∃ t evs, exec i s = .next t ∧ t.trace = s.trace ++ evs ∧
      StrobesWithin s.cfg s.now t.now (seenFrom s.lines none evs) := by
  have hkeeps : KeepsStrobes s.cfg (stmtsOf s.cfg i) := by
    rcases hi with ⟨p, rfl⟩ | ⟨p, rfl⟩
    · exact keepsStrobes_write s.cfg p
    · exact keepsStrobes_wrnib s.cfg p
  cases hruns : requestRuns s.cfg i with
  | true =>
    obtain ⟨evs, h⟩ := strobesWithin_perform hidle he hkeeps
    exact ⟨_, evs, exec_of_runs hruns, h⟩
  | false =>
    obtain ⟨evs, h⟩ := strobesWithin_refuse s (encodeDesc s.cfg i) .wrnibEightMode
    exact ⟨_, evs, exec_of_not_runs hidle hruns, h⟩

/-- Settles O41: the gaps between the request's events are those asked for, kind by kind. -/
theorem writePathSetupAndHold : Obligations.WritePathSetupAndHold := by
  intro s i hs he hi
  obtain ⟨t, evs, hexec, htrace, hstrobes⟩ := strobesWithin_exec hs.idle he hi
  have hgaps := hstrobes.gaps
  exact ⟨t, evs, hexec, htrace,
    ⟨hstrobes.enableLow, hgaps.imp fun h _ => h.beforeRise, hgaps.imp fun h => h.dataToFall⟩,
    ⟨hgaps.imp fun h => h.riseToFall, hgaps.imp fun h _ => h.beforeRise, hgaps.imp fun h => h.riseToRise⟩,
    hgaps.imp fun h => h.fallToChange, hgaps.imp fun h _ => h.beforeRise⟩

/-- Everything a step issues starts no earlier than the state before it (10_state R26). -/
theorem now_le_of_step {t u : State} (hstep : step t = .next u) {later : List Event}
    (htrace : u.trace = t.trace ++ later) : ∀ ev ∈ later, t.now ≤ ev.t := by
  obtain ⟨evs, hevs, -, htimed, -⟩ := (extends_step t u hstep).events
  obtain rfl := List.append_cancel_left (htrace.symm.trans hevs)
  exact htimed.1

/-- Settles O58: a rise leaves `T_EL` from the request's start, which nothing in the trace comes after, and a fall
`T_SETTLE` to its end, which no later event comes before. -/
theorem setupAndHoldAcrossRequests : Obligations.SetupAndHoldAcrossRequests := by
  intro s i hs he htimed hi
  obtain ⟨t, evs, hexec, htrace, hstrobes⟩ := strobesWithin_exec hs.idle he hi
  obtain ⟨-, hpast⟩ := htimed
  refine ⟨t, evs, hexec, htrace, fun x hx hrise old hold => ?_, fun x hx hfall => ?_⟩
  · have hold := hpast old hold
    have hsetup := (hstrobes.rises x hx hrise).1
    omega
  · have hsettle := (hstrobes.falls x hx hfall).2
    exact ⟨hsettle, fun u later hstep hlater new hnew => hsettle.trans (now_le_of_step hstep hlater new hnew)⟩

end Sys2Proof.Machine
end

section
/-! PROOFS. The reset and hazards family (70_reset_and_hazards R124): with `E` high before it, a request makes a fall too
many or a rise too few. Rises and falls alternate, each pulse of WRITE and WRNIB has one rise and each read cycle one
fall, whatever `E` was. -/

namespace Sys2Proof.Machine

/-! ### Rises and falls alternate -/

/-- `E` as a number: 1 where it is high. -/
def Lines.enableBit (ls : Lines) : Nat := if ls.e.lat = some .high then 1 else 0

/-- An event that does not drive `E` leaves its latch as it was. -/
theorem Lines.after_enable {k : EventKind} (h : k.drivesEnable = false) (ls : Lines) :
    (ls.after k).e.lat = ls.e.lat := by
  cases k with
  | cfgOut l => exact Lines.get_setDir_lat ls l .e .output
  | cfgIn l => exact Lines.get_setDir_lat ls l .e .input
  | drive l lvl =>
    cases l with
    | e => cases h
    | _ => rfl
  | _ => rfl

/-- A fall takes `E` from high to low and a rise to high from low; no other event changes which it is. -/
theorem fall_add_enableBit (ls : Lines) (req : Option Desc) (ev : Event) :
    (if Seen.isFall ⟨ls, req, ev⟩ then 1 else 0) + (ls.after ev.kind).enableBit =
      (if Seen.isRise ⟨ls, req, ev⟩ then 1 else 0) + ls.enableBit := by
  cases he : ev.kind.drivesEnable with
  | false =>
    rw [isFall_of_not_drivesEnable (x := ⟨ls, req, ev⟩) he, isRise_of_not_drivesEnable (x := ⟨ls, req, ev⟩) he,
      Lines.enableBit, Lines.after_enable he]
    rfl
  | true =>
    obtain ⟨t, kind⟩ := ev
    cases kind with
    | drive l lvl =>
      cases l with
      | e =>
        by_cases hhigh : ls.e.lat = some .high <;> cases lvl <;>
          simp [Seen.isFall, Seen.isRise, Lines.enableBit, Lines.after, hhigh]
      | _ => cases he
    | _ => cases he

theorem falls_add_enableBit (ls : Lines) (req : Option Desc) (evs : List Event) :
    (seenFrom ls req evs).countP Seen.isFall + (replayLines ls evs).enableBit =
      (seenFrom ls req evs).countP Seen.isRise + ls.enableBit := by
  induction evs generalizing ls req with
  | nil => rfl
  | cons ev evs ih =>
    have hev := fall_add_enableBit ls req ev
    have hevs := ih (ls.after ev.kind) (requestAfter req ev.kind)
    rw [seenFrom, List.countP_cons, List.countP_cons, replayLines_cons]
    omega

/-- Statements that find `E` high and leave it low make one fall more than rises. -/
theorem falls_eq_rises_add_one {ls : Lines} {l : List Stmt} (hstart : ls.e.lat = some .high)
    (hend : (linesAfterAll ls l).e.lat = some .low) (req : Option Desc) (s : State) :
    (seenFrom ls req (eventsOf s l)).countP Seen.isFall =
      (seenFrom ls req (eventsOf s l)).countP Seen.isRise + 1 := by
  have h := falls_add_enableBit ls req (eventsOf s l)
  rw [replayLines_eventsOf] at h
  simpa [Lines.enableBit, hstart, hend] using h

/-! ### One edge per pulse -/

/-- Whatever `E` was, the statements make one edge of a kind each time they drive `E` high. -/
def EdgePerPulse (edge : Seen → Bool) (l : List Stmt) : Prop :=
  ∀ ls req s, (seenFrom ls req (eventsOf s l)).countP edge = enablePulses l

theorem edgePerPulse_append {edge : Seen → Bool} {l m : List Stmt} (hl : EdgePerPulse edge l)
    (hm : EdgePerPulse edge m) : EdgePerPulse edge (l ++ m) := by
  intro ls req s
  rw [seenFrom_eventsOf_append, List.countP_append, hl, hm, enablePulses_append]

theorem edgePerPulse_replicate {edge : Seen → Bool} {l : List Stmt} (h : EdgePerPulse edge l) (k : Nat) :
    EdgePerPulse edge (List.replicate k l).flatten := by
  induction k with
  | zero => intro ls req s; rfl
  | succ k ih => exact edgePerPulse_append h ih

theorem enablePulses_quiet {l : List Stmt} (h : ∀ st ∈ l, st.drivesEnable = false) : enablePulses l = 0 := by
  refine List.countP_eq_zero.mpr fun k hk hhigh => ?_
  obtain ⟨st, hst, hshape⟩ := List.mem_filterMap.mp hk
  obtain rfl := of_decide_eq_true hhigh
  cases st with
  | drive l lvl =>
    obtain ⟨rfl, rfl⟩ : l = .e ∧ lvl = .high := by simpa [Stmt.shape] using hshape
    exact absurd (h _ hst) (by simp [Stmt.drivesEnable])
  | _ => simp [Stmt.shape] at hshape

/-- Statements that do not drive `E` make no edge. -/
theorem countP_edge_quiet {edge : Seen → Bool} (hedge : ∀ x : Seen, x.ev.kind.drivesEnable = false → edge x = false)
    {l : List Stmt} (h : ∀ st ∈ l, st.drivesEnable = false) (ls : Lines) (req : Option Desc) (s : State) :
    (seenFrom ls req (eventsOf s l)).countP edge = 0 :=
  List.countP_eq_zero.mpr fun x hx => by simp [hedge x (drivesEnable_of_mem_seenFrom h hx)]

theorem edgePerPulse_quiet {edge : Seen → Bool} (hedge : ∀ x : Seen, x.ev.kind.drivesEnable = false → edge x = false)
    {l : List Stmt} (h : ∀ st ∈ l, st.drivesEnable = false) : EdgePerPulse edge l := fun ls req s => by
  rw [countP_edge_quiet hedge h, enablePulses_quiet h]

/-- PULSE drives `E` low before it drives it high, so that it rises once (41_enable_sequencer R83). -/
theorem risePerPulse_pulse (c : Cfg) : EdgePerPulse Seen.isRise (pulse c) := by
  intro ls req s
  rw [enablePulses_pulse]
  simp [pulse, stmtEvents, seenFrom, Seen.isRise, Lines.after]

theorem holdsOfPieces_risePerPulse (c : Cfg) : HoldsOfPieces c (EdgePerPulse Seen.isRise) where
  nil _ _ _ := rfl
  append := edgePerPulse_append
  tap _ _ := edgePerPulse_quiet (fun _ => isRise_of_not_drivesEnable) (by simp [Stmt.drivesEnable])
  put v n := edgePerPulse_quiet (fun _ => isRise_of_not_drivesEnable) (drivesEnable_put v n)
  pulse := risePerPulse_pulse c

theorem risePerPulse_write (c : Cfg) (p : List Byte) : EdgePerPulse Seen.isRise (writeStmts c p) :=
  edgePerPulse_append (l := [.drive .rw c.rwWriteLevel])
    (edgePerPulse_quiet (fun _ => isRise_of_not_drivesEnable) (by simp [Stmt.drivesEnable]))
    ((holdsOfPieces_risePerPulse c).writeBytes p)

theorem risePerPulse_wrnib (c : Cfg) (p : List Byte) : EdgePerPulse Seen.isRise (wrnibStmts c p) := by
  rw [wrnibStmts, List.append_assoc]
  exact edgePerPulse_append (edgePerPulse_quiet (fun _ => isRise_of_not_drivesEnable) (drivesEnable_optionalDrive c))
    ((holdsOfPieces_risePerPulse c).wrnibElems p)

theorem fallPerPulse_quiet {l : List Stmt} (h : ∀ st ∈ l, st.drivesEnable = false) : EdgePerPulse Seen.isFall l :=
  edgePerPulse_quiet (fun _ => isFall_of_not_drivesEnable) h

/-- A rise of `E`, or a drive of it where it is high already, makes sure that the next drive to low is a fall. -/
theorem fallPerPulse_strobe {l : List Stmt} (h : ∀ st ∈ l, st.drivesEnable = false) :
    EdgePerPulse Seen.isFall ([.drive .e .high] ++ (l ++ [.drive .e .low])) := by
  intro ls req s
  have hhigh : (linesAfterAll (ls.setLat .e .high) l).e.lat = some .high := linesAfterAll_enable h _
  have hpulses : enablePulses ([.drive .e .high] ++ (l ++ [.drive .e .low])) = 1 := by
    rw [enablePulses_append, enablePulses_append, enablePulses_quiet h]
    rfl
  rw [hpulses, seenFrom_eventsOf_append, seenFrom_eventsOf_append, List.countP_append, List.countP_append,
    countP_edge_quiet (fun _ => isFall_of_not_drivesEnable) h]
  simp [stmtEvents, seenFrom, Stmt.linesAfter, Seen.isFall, hhigh]

/-- A read cycle drives `E` high before it drives it low, so that it falls once (40_bus_transport R76, R77). -/
theorem fallPerPulse_readCycle (c : Cfg) (n : Nat) : EdgePerPulse Seen.isFall (readCycle c n) := by
  have hheld : ∀ st ∈ hold c.tRdEh ++ get n, st.drivesEnable = false := List.forall_mem_append.mpr
    ⟨drivesEnable_of_untouched (untouched_hold _), drivesEnable_of_untouched (untouched_get n)⟩
  have hsplit : readCycle c n =
      ([.drive .e .high] ++ ((hold c.tRdEh ++ get n) ++ [.drive .e .low])) ++ hold c.tRdEl := by
    simp [readCycle]
  rw [hsplit]
  exact edgePerPulse_append (fallPerPulse_strobe hheld)
    (fallPerPulse_quiet (drivesEnable_of_untouched (untouched_hold _)))

theorem fallPerPulse_readUnit (c : Cfg) : EdgePerPulse Seen.isFall (readUnitStmts c) := by
  unfold readUnitStmts
  cases c.width with
  | eight =>
    exact edgePerPulse_append (fallPerPulse_readCycle c 8) (fallPerPulse_quiet (by simp [Stmt.drivesEnable]))
  | four =>
    have hsecond : EdgePerPulse Seen.isFall ([.saveHi] ++ readCycle c 4) :=
      edgePerPulse_append (fallPerPulse_quiet (by simp [Stmt.drivesEnable])) (fallPerPulse_readCycle c 4)
    exact edgePerPulse_append (edgePerPulse_append (fallPerPulse_readCycle c 4) hsecond)
      (fallPerPulse_quiet (by simp [Stmt.drivesEnable]))

theorem fallPerPulse_read (c : Cfg) (n : Nat) : EdgePerPulse Seen.isFall (readStmts c (n + 1)) := by
  rw [readStmts_succ]
  exact edgePerPulse_append (fallPerPulse_quiet (drivesEnable_readEntry c))
    (edgePerPulse_append (edgePerPulse_replicate (fallPerPulse_readUnit c) (n + 1))
      (fallPerPulse_quiet (drivesEnable_dataLinesIn c)))

/-! ### The pulses of WRITE -/

theorem enablePulses_writeByte (c : Cfg) (v : Byte) : enablePulses (writeByteStmts c v) = (units c.width v).length := by
  have htap : ∀ u w l, enablePulses (.tap u w :: l) = enablePulses l := fun _ _ _ => rfl
  unfold writeByteStmts
  cases c.width with
  | eight => simp [units]
  | four => simp [units, htap]

/-- WRITE makes one pulse for each unit of its bytes (40_bus_transport R73). -/
theorem enablePulses_write (c : Cfg) (p : List Byte) :
    enablePulses (writeStmts c p) = (p.flatMap (units c.width)).length := by
  have hdrive : enablePulses (writeStmts c p) = enablePulses (p.flatMap (writeByteStmts c)) := rfl
  rw [hdrive]
  induction p with
  | nil => rfl
  | cons v p ih =>
    rw [List.flatMap_cons, enablePulses_append, enablePulses_writeByte, ih rfl, List.flatMap_cons, List.length_append]

/-! ### Every fall latches at the write level -/

/-- Where every fall ends a write cycle each latches a unit (20_memory R43). -/
theorem latchedFrom_length {c : Cfg} {ls : Lines} {evs : List Event}
    (h : ∀ x ∈ seenFrom ls none evs, x.isFall = true → cycleKind c x.lines = .write) :
    (latchedFrom c ls evs).length = (seenFrom ls none evs).countP Seen.isFall := by
  rw [latchedFrom, List.length_filterMap_eq_countP]
  refine List.countP_congr fun x hx => ?_
  cases hfall : x.isFall with
  | false => simp [Seen.latched, hfall]
  | true => simp [Seen.latched, hfall, h x hx hfall]

/-- Statements that first bring `RW` to the write level, and then leave it, make their falls in write cycles. -/
theorem cycleKind_of_fall {c : Cfg} {start rest : List Stmt} {ls : Lines}
    (hstart : ∀ st ∈ start, st.drivesEnable = false) (hrest : ∀ st ∈ rest, ∀ lvl, st ≠ .drive .rw lvl)
    (hrw : cycleKind c (linesAfterAll ls start) = .write) (req : Option Desc) (s : State) :
    ∀ x ∈ seenFrom ls req (eventsOf s (start ++ rest)), x.isFall = true → cycleKind c x.lines = .write := by
  rw [seenFrom_eventsOf_append]
  refine List.forall_mem_append.mpr ⟨fun x hx hfall => ?_, fun x hx _ => ?_⟩
  · simp [isFall_of_not_drivesEnable (drivesEnable_of_mem_seenFrom hstart hx)] at hfall
  · have hlat := lat_of_mem_seenFrom hrest hx
    simpa only [cycleKind, bus, hlat] using hrw

theorem holdsOfPieces_sparesReadWrite (c : Cfg) : HoldsOfPieces c fun l => ∀ st ∈ l, ∀ lvl, st ≠ .drive .rw lvl where
  nil := by simp
  append hl hm := List.forall_mem_append.mpr ⟨hl, hm⟩
  tap v w := by simp
  put v n := by simp [put]
  pulse := by simp [pulse]

theorem cycleKind_of_fall_write (c : Cfg) (ls : Lines) (p : List Byte) (req : Option Desc) (s : State) :
    ∀ x ∈ seenFrom ls req (eventsOf s (writeStmts c p)), x.isFall = true → cycleKind c x.lines = .write :=
  cycleKind_of_fall (start := [.drive .rw c.rwWriteLevel]) (by simp [Stmt.drivesEnable])
    ((holdsOfPieces_sparesReadWrite c).writeBytes p) (cycleKind_write c _ rfl) req s

theorem cycleKind_of_fall_wrnib {c : Cfg} {ls : Lines} (h : c.wnDrivesRw = true ∨ ls.rw.lat = some c.rwWriteLevel)
    (p : List Byte) (req : Option Desc) (s : State) :
    ∀ x ∈ seenFrom ls req (eventsOf s (wrnibStmts c p)), x.isFall = true → cycleKind c x.lines = .write := by
  have hstart : linesAfterAll ls (if c.wnDrivesRw then [Stmt.drive .rw c.rwWriteLevel] else []) = wrnibStart c ls := by
    unfold wrnibStart; split <;> rfl
  rw [wrnibStmts, List.append_assoc]
  exact cycleKind_of_fall (drivesEnable_optionalDrive c) ((holdsOfPieces_sparesReadWrite c).wrnibElems p)
    (hstart ▸ cycleKind_wrnibStart h) req s

/-! ### The first PUT, with `E` still high -/

/-- Before the first pulse `E` is as it was before the request, and PUT drives data lines under it (R124). -/
theorem drivesWhileEnabled_of_put {ls : Lines} (he : ls.e.lat = some .high) {start : List Stmt}
    (hstart : ∀ st ∈ start, st.drivesEnable = false) (v : Byte) (n : Nat) (rest : List Stmt) (req : Option Desc)
    (s : State) :
    (seenFrom ls req (eventsOf s (start ++ (put v (n + 1) ++ rest)))).any drivesWhileEnabled = true := by
  have hput : put v (n + 1) ++ rest = .drive (.d 0) (Level.ofBit (v.getLsbD 0)) ::
      ((List.range n).map (fun i => .drive (.d (i + 1)) (Level.ofBit (v.getLsbD (i + 1)))) ++ rest) := by
    simp [put, List.range_succ_eq_map, Function.comp_def]
  have hhigh : (linesAfterAll ls start).e.lat = some .high := (linesAfterAll_enable hstart ls).trans he
  rw [hput, seenFrom_eventsOf_append, seenFrom_eventsOf_cons, List.any_append, List.any_append]
  simp [stmtEvents, seenFrom, drivesWhileEnabled, Seen.drivesData, EventKind.drivesData, hhigh]

theorem drivesWhileEnabled_write {c : Cfg} {ls : Lines} (he : ls.e.lat = some .high) {p : List Byte} (hp : p ≠ [])
    (req : Option Desc) (s : State) :
    (seenFrom ls req (eventsOf s (writeStmts c p))).any drivesWhileEnabled = true := by
  obtain ⟨v, p, rfl⟩ := List.exists_cons_of_ne_nil hp
  rw [writeStmts, List.flatMap_cons]
  unfold writeByteStmts
  cases c.width with
  | eight =>
    simp only [List.append_assoc]
    exact drivesWhileEnabled_of_put he (start := .drive .rw c.rwWriteLevel :: tapIfAll c v 8)
      (List.forall_mem_cons.mpr ⟨rfl, drivesEnable_tapIfAll c v 8⟩) v 7 _ req s
  | four =>
    simp only [List.append_assoc, List.cons_append]
    exact drivesWhileEnabled_of_put he (start := [.drive .rw c.rwWriteLevel, .tap (hiNibble v) 4])
      (by simp [Stmt.drivesEnable]) (hiNibble v) 3 _ req s

theorem drivesWhileEnabled_wrnib {c : Cfg} {ls : Lines} (he : ls.e.lat = some .high) {p : List Byte} (hp : p ≠ [])
    (req : Option Desc) (s : State) :
    (seenFrom ls req (eventsOf s (wrnibStmts c p))).any drivesWhileEnabled = true := by
  obtain ⟨v, p, rfl⟩ := List.exists_cons_of_ne_nil hp
  rw [wrnibStmts, List.flatMap_cons, wrnibElemStmts]
  simp only [List.append_assoc]
  rw [← List.append_assoc]
  exact drivesWhileEnabled_of_put he
    (List.forall_mem_append.mpr ⟨drivesEnable_optionalDrive c, drivesEnable_tapIfAll c _ 4⟩) (loNibble v) 3 _ req s

/-! ### The whole request -/

/-- `Begin` and `End` are no edges. -/
theorem countP_edge_request {edge : Seen → Bool} (hedge : ∀ x : Seen, x.ev.kind.drivesEnable = false → edge x = false)
    (ls : Lines) (req : Option Desc) (q : Desc) (t u n : Nat) (st : Status) (evs : List Event) :
    (seenFrom ls req (⟨t, .beginReq q⟩ :: evs ++ [⟨u, .endReq n st⟩])).countP edge =
      (seenFrom ls (some q) evs).countP edge := by
  have hbegin : edge ⟨ls, req, ⟨t, .beginReq q⟩⟩ = false := hedge _ rfl
  have hend : edge ⟨replayLines ls evs, requestAfterAll (some q) evs, ⟨u, .endReq n st⟩⟩ = false := hedge _ rfl
  rw [seenFrom_request, List.countP_append, List.countP_append, List.countP_singleton, List.countP_singleton, hbegin,
    hend]
  simp

theorem any_seenFrom_request {bad : Seen → Bool} (ls : Lines) (req : Option Desc) (q : Desc) (t u n : Nat) (st : Status)
    (evs : List Event) (h : (seenFrom ls (some q) evs).any bad = true) :
    (seenFrom ls req (⟨t, .beginReq q⟩ :: evs ++ [⟨u, .endReq n st⟩])).any bad = true := by
  rw [seenFrom_request, List.any_append, List.any_append, h, Bool.or_true, Bool.true_or]

theorem countKind_request {p : EventKind → Bool} (hbegin : ∀ q, p (.beginReq q) = false)
    (hend : ∀ n st, p (.endReq n st) = false) (q : Desc) (t u n : Nat) (st : Status) (evs : List Event) :
    countKind p (⟨t, .beginReq q⟩ :: evs ++ [⟨u, .endReq n st⟩]) = countKind p evs := by
  simp [countKind, List.countP_append, hbegin, hend]

/-- Settles O24: each request leaves `E` low, so from `E` high it makes one fall more than rises. WRITE and WRNIB rise
once per pulse, and at the write level each fall latches; READ falls once per cycle. -/
theorem enableHighAddsALatchEvent : Obligations.EnableHighAddsALatchEvent := by
  intro s hs he
  refine ⟨fun p hp => ?_, fun hfour p => ?_, fun n hpos => ?_⟩
  · obtain ⟨t, n, status, htrace⟩ := perform_events (i := .write p) hs.idle
    have hlow : (linesAfterAll s.lines (writeStmts s.cfg p)).e.lat = some .low := by
      rw [linesAfterAll_write, unitsLines_e, if_neg (mt (flatMap_units_eq_nil _ p).mp hp)]
    refine ⟨_, _, rfl, htrace, ?_, any_seenFrom_request _ _ _ _ _ _ _ _ (drivesWhileEnabled_write he hp _ _)⟩
    rw [latchedFrom_request, stmtsOf, latchedFrom_length (cycleKind_of_fall_write _ _ p _ _),
      falls_eq_rises_add_one he hlow, risePerPulse_write, enablePulses_write]
  · obtain ⟨t, n, status, htrace⟩ := perform_events (i := .wrnib p) hs.idle
    have hlow : (linesAfterAll s.lines (wrnibStmts s.cfg p)).e.lat = some .low := by rw [linesAfterAll_wrnib_e]
    have hfalls : ∀ req, (seenFrom s.lines req (eventsOf (s.accept (.wrnib p)) (wrnibStmts s.cfg p))).countP
        Seen.isFall = p.length + 2 := fun req => by
      rw [falls_eq_rises_add_one he hlow, risePerPulse_wrnib, enablePulses_wrnib]
    refine ⟨_, _, exec_of_runs (beq_iff_eq.mpr hfour), htrace,
      (countP_edge_request (fun _ => isFall_of_not_drivesEnable) ..).trans (hfalls _), fun hrw => ?_,
      fun hp => any_seenFrom_request _ _ _ _ _ _ _ _ (drivesWhileEnabled_wrnib he hp _ _)⟩
    rw [latchedFrom_request, stmtsOf, latchedFrom_length (cycleKind_of_fall_wrnib hrw p _ _), hfalls]
  · obtain ⟨m, rfl⟩ := Nat.exists_eq_succ_of_ne_zero hpos.ne'
    obtain ⟨t, k, status, htrace⟩ := perform_events (i := .read (m + 1)) hs.idle
    have hlow : (linesAfterAll s.lines (readStmts s.cfg (m + 1))).e.lat = some .low := by
      rw [linesAfterAll_read s.lines s.cfg m hs.n_eq]
    refine ⟨_, _, rfl, htrace, ?_⟩
    rw [countKind_request (by simp) (by simp), countKind_enableHigh_eventsOf, stmtsOf,
      ← fallPerPulse_read s.cfg m s.lines _ (s.accept (.read (m + 1))), falls_eq_rises_add_one he hlow]
    exact congrArg (· + 1) (countP_edge_request (fun _ => isRise_of_not_drivesEnable) ..)

end Sys2Proof.Machine
end
